-- ==== Sys2Proof/Word.lean ====
section
/-! DEFINITION. The two word types of the block (spec/00_scope.md R4: `DATA_WIDTH` 8, `ADDR_WIDTH` 16). -/

namespace Sys2Proof

/-- `bits8`: a register other than `PC`, a memory cell, an opcode or an operand byte (R5). -/
abbrev Byte := BitVec 8

/-- `bits16`: an address, `PC`, `LastArg` or an operand word (R5). Arithmetic wraps modulo 65536 (R56). -/
abbrev Addr := BitVec 16

end Sys2Proof
end

