-- ==== Sys2Proof/Machine/Bits.lean ====
section
/-! DEFINITION. Byte order, extension and field helpers (spec/00_scope.md R5, spec/40_addressing_modes.md R91). -/

namespace Sys2Proof

/-- `lo(w) = w[7:0]` (R5). -/
def lo (w : Addr) : Byte := w.extractLsb' 0 8

/-- `hi(w) = w[15:8]` (R5). -/
def hi (w : Addr) : Byte := w.extractLsb' 8 8

/-- `{h, l}`: the word `h * 256 + l` (R5). -/
def join (h l : Byte) : Addr := h ++ l

/-- `zext16(b)` (R5). -/
def zext16 (b : Byte) : Addr := b.zeroExtend 16

/-- `sext16(b)`: `b` if `b < 128`, else `b + 0xFF00` (R5). -/
def sext16 (b : Byte) : Addr := b.signExtend 16

/-- `cross(a, b) = (hi(a) != hi(b))`: the two addresses lie in different 256-byte pages (R91). -/
def cross (a b : Addr) : Bool := hi a != hi b

end Sys2Proof
end

