-- ==== Sys2Proof/Syntax.lean ====
section
/-! DEFINITION. The instructions as syntax: one constructor per mnemonic of spec/opcode_table.json (the 56 of
spec/30_encoding.md R77 and ILL of R78). The operand argument carries the addressing mode and the operand bytes, so a row of
the opcode table is a constructor together with a mode. Which modes a mnemonic has is WellFormed.lean. -/

namespace Sys2Proof

/-- The 13 addressing-mode tags (spec/30_encoding.md R71). -/
inductive AddrMode where
  | imp | acc | imm | zpg | zpx | zpy | abs | abx | aby | ind | izx | izy | rel
deriving DecidableEq, Repr

/-- An operand in memory at an effective address: the eight modes of R94 to R99, R101 and R102. -/
inductive MemOperand where
  /-- `$nn` -/
  | zpg (b : Byte)
  /-- `$nn,X` -/
  | zpx (b : Byte)
  /-- `$nn,Y` -/
  | zpy (b : Byte)
  /-- `$nnnn` -/
  | abs (w : Addr)
  /-- `$nnnn,X` -/
  | abx (w : Addr)
  /-- `$nnnn,Y` -/
  | aby (w : Addr)
  /-- `($nn,X)` -/
  | izx (b : Byte)
  /-- `($nn),Y` -/
  | izy (b : Byte)
deriving DecidableEq, Repr

/-- The operand of a reading instruction: immediate (R93) or in memory. -/
inductive ReadOperand where
  /-- `#$nn` -/
  | imm (b : Byte)
  | mem (m : MemOperand)
deriving DecidableEq, Repr

/-- The operand of a read-modify-write instruction: the accumulator (R92) or in memory. -/
inductive ModifyOperand where
  /-- `A` -/
  | acc
  | mem (m : MemOperand)
deriving DecidableEq, Repr

/-- The operand of JMP: absolute (R97) or indirect (R100). -/
inductive JumpOperand where
  /-- `$nnnn` -/
  | abs (w : Addr)
  /-- `($nnnn)` -/
  | ind (w : Addr)
deriving DecidableEq, Repr

/-- The mode tag of a memory operand. -/
def MemOperand.mode : MemOperand → AddrMode
  | .zpg _ => .zpg
  | .zpx _ => .zpx
  | .zpy _ => .zpy
  | .abs _ => .abs
  | .abx _ => .abx
  | .aby _ => .aby
  | .izx _ => .izx
  | .izy _ => .izy

/-- The mode tag of a reading instruction's operand. -/
def ReadOperand.mode : ReadOperand → AddrMode
  | .imm _ => .imm
  | .mem m => m.mode

/-- The mode tag of a read-modify-write instruction's operand. -/
def ModifyOperand.mode : ModifyOperand → AddrMode
  | .acc => .acc
  | .mem m => m.mode

/-- The mode tag of JMP's operand. -/
def JumpOperand.mode : JumpOperand → AddrMode
  | .abs _ => .abs
  | .ind _ => .ind

/-- The instructions, in the order of spec/INDEX.md's families. -/
inductive Instr where
  -- loads, stores, transfers (spec/43_load_store_transfer.md)
  | lda (o : ReadOperand)
  | ldx (o : ReadOperand)
  | ldy (o : ReadOperand)
  | sta (m : MemOperand)
  | stx (m : MemOperand)
  | sty (m : MemOperand)
  | tax
  | tay
  | txa
  | tya
  | tsx
  | txs
  -- arithmetic, logic, compare, bit test, increment, decrement (spec/44_arith_logic.md)
  | adc (o : ReadOperand)
  | sbc (o : ReadOperand)
  | and (o : ReadOperand)
  | ora (o : ReadOperand)
  | eor (o : ReadOperand)
  | cmp (o : ReadOperand)
  | cpx (o : ReadOperand)
  | cpy (o : ReadOperand)
  | bit (m : MemOperand)
  | inc (m : MemOperand)
  | dec (m : MemOperand)
  | inx
  | iny
  | dex
  | dey
  -- shifts and rotates (spec/45_shift_rotate.md)
  | asl (o : ModifyOperand)
  | lsr (o : ModifyOperand)
  | rol (o : ModifyOperand)
  | ror (o : ModifyOperand)
  -- branches, jumps, subroutines (spec/46_branch_jump.md); `d` is the displacement byte
  | bcc (d : Byte)
  | bcs (d : Byte)
  | beq (d : Byte)
  | bne (d : Byte)
  | bmi (d : Byte)
  | bpl (d : Byte)
  | bvc (d : Byte)
  | bvs (d : Byte)
  | jmp (o : JumpOperand)
  | jsr (w : Addr)
  | rts
  -- stack, flags, NOP, BRK, RTI, illegal opcodes (spec/47_stack_flags_system.md)
  | pha
  | pla
  | php
  | plp
  | clc
  | sec
  | cli
  | sei
  | cld
  | sed
  | clv
  | nop
  | brk
  | rti
  /-- An illegal opcode; `op` is the opcode byte. -/
  | ill (op : Byte)
deriving DecidableEq, Repr

/-- The addressing-mode tag of the instruction's table entry. -/
def Instr.mode : Instr → AddrMode
  | .lda o => o.mode
  | .ldx o => o.mode
  | .ldy o => o.mode
  | .sta m => m.mode
  | .stx m => m.mode
  | .sty m => m.mode
  | .tax => .imp
  | .tay => .imp
  | .txa => .imp
  | .tya => .imp
  | .tsx => .imp
  | .txs => .imp
  | .adc o => o.mode
  | .sbc o => o.mode
  | .and o => o.mode
  | .ora o => o.mode
  | .eor o => o.mode
  | .cmp o => o.mode
  | .cpx o => o.mode
  | .cpy o => o.mode
  | .bit m => m.mode
  | .inc m => m.mode
  | .dec m => m.mode
  | .inx => .imp
  | .iny => .imp
  | .dex => .imp
  | .dey => .imp
  | .asl o => o.mode
  | .lsr o => o.mode
  | .rol o => o.mode
  | .ror o => o.mode
  | .bcc _ => .rel
  | .bcs _ => .rel
  | .beq _ => .rel
  | .bne _ => .rel
  | .bmi _ => .rel
  | .bpl _ => .rel
  | .bvc _ => .rel
  | .bvs _ => .rel
  | .jmp o => o.mode
  | .jsr _ => .abs
  | .rts => .imp
  | .pha => .imp
  | .pla => .imp
  | .php => .imp
  | .plp => .imp
  | .clc => .imp
  | .sec => .imp
  | .cli => .imp
  | .sei => .imp
  | .cld => .imp
  | .sed => .imp
  | .clv => .imp
  | .nop => .imp
  | .brk => .imp
  | .rti => .imp
  | .ill _ => .imp

end Sys2Proof
end

