-- ==== Sys2Proof/WellFormed.lean ====
section
/-! DEFINITION. Which instructions exist: the modes each mnemonic has (the cells of the tables of spec/30_encoding.md R77
that are not blank) and the 105 illegal opcode values (R78). -/

namespace Sys2Proof

/-- The eight modes of group 1 of R77 (STA lacks IMM). -/
def group1Modes : List AddrMode := [.imm, .zpg, .zpx, .abs, .abx, .aby, .izx, .izy]

/-- The five modes of the shifts and rotates, group 2 of R77 (INC and DEC lack ACC). -/
def shiftModes : List AddrMode := [.acc, .zpg, .zpx, .abs, .abx]

/-- The illegal opcode values, line by line as R78 lists them. -/
def illegalOpcodes : List Byte :=
  [0x02, 0x03, 0x04, 0x07, 0x0B, 0x0C, 0x0F] ++
  [0x12, 0x13, 0x14, 0x17, 0x1A, 0x1B, 0x1C, 0x1F] ++
  [0x22, 0x23, 0x27, 0x2B, 0x2F] ++
  [0x32, 0x33, 0x34, 0x37, 0x3A, 0x3B, 0x3C, 0x3F] ++
  [0x42, 0x43, 0x44, 0x47, 0x4B, 0x4F] ++
  [0x52, 0x53, 0x54, 0x57, 0x5A, 0x5B, 0x5C, 0x5F] ++
  [0x62, 0x63, 0x64, 0x67, 0x6B, 0x6F] ++
  [0x72, 0x73, 0x74, 0x77, 0x7A, 0x7B, 0x7C, 0x7F] ++
  [0x80, 0x82, 0x83, 0x87, 0x89, 0x8B, 0x8F] ++
  [0x92, 0x93, 0x97, 0x9B, 0x9C, 0x9E, 0x9F] ++
  [0xA3, 0xA7, 0xAB, 0xAF] ++
  [0xB2, 0xB3, 0xB7, 0xBB, 0xBF] ++
  [0xC2, 0xC3, 0xC7, 0xCB, 0xCF] ++
  [0xD2, 0xD3, 0xD4, 0xD7, 0xDA, 0xDB, 0xDC, 0xDF] ++
  [0xE2, 0xE3, 0xE7, 0xEB, 0xEF] ++
  [0xF2, 0xF3, 0xF4, 0xF7, 0xFA, 0xFB, 0xFC, 0xFF]

/-- Does the opcode table have the instruction: the mnemonic exists in the operand's mode (R77), or the opcode value of an
ILL is one of R78. -/
def Instr.wellFormed : Instr → Bool
  | .lda o => group1Modes.contains o.mode
  | .ldx o => [.imm, .zpg, .zpy, .abs, .aby].contains o.mode
  | .ldy o => [.imm, .zpg, .zpx, .abs, .abx].contains o.mode
  | .sta m => group1Modes.contains m.mode
  | .stx m => [.zpg, .zpy, .abs].contains m.mode
  | .sty m => [.zpg, .zpx, .abs].contains m.mode
  | .tax => true
  | .tay => true
  | .txa => true
  | .tya => true
  | .tsx => true
  | .txs => true
  | .adc o => group1Modes.contains o.mode
  | .sbc o => group1Modes.contains o.mode
  | .and o => group1Modes.contains o.mode
  | .ora o => group1Modes.contains o.mode
  | .eor o => group1Modes.contains o.mode
  | .cmp o => group1Modes.contains o.mode
  | .cpx o => [.imm, .zpg, .abs].contains o.mode
  | .cpy o => [.imm, .zpg, .abs].contains o.mode
  | .bit m => [.zpg, .abs].contains m.mode
  | .inc m => shiftModes.contains m.mode
  | .dec m => shiftModes.contains m.mode
  | .inx => true
  | .iny => true
  | .dex => true
  | .dey => true
  | .asl o => shiftModes.contains o.mode
  | .lsr o => shiftModes.contains o.mode
  | .rol o => shiftModes.contains o.mode
  | .ror o => shiftModes.contains o.mode
  | .bcc _ => true
  | .bcs _ => true
  | .beq _ => true
  | .bne _ => true
  | .bmi _ => true
  | .bpl _ => true
  | .bvc _ => true
  | .bvs _ => true
  | .jmp _ => true
  | .jsr _ => true
  | .rts => true
  | .pha => true
  | .pla => true
  | .php => true
  | .plp => true
  | .clc => true
  | .sec => true
  | .cli => true
  | .sei => true
  | .cld => true
  | .sed => true
  | .clv => true
  | .nop => true
  | .brk => true
  | .rti => true
  | .ill op => illegalOpcodes.contains op

/-- The instruction is a row of the opcode table. -/
abbrev Instr.WellFormed (i : Instr) : Prop := i.wellFormed = true

end Sys2Proof
end

