-- ==== Sys2Proof/Decode.lean ====
section
/-! DEFINITION. The opcode table and the decoder (spec/30_encoding.md R70 to R78, R81), and after them the encoder, written
from the mnemonic and mode tables of R77 (the decoder is written from the 256 rows by opcode value, so that the two agreeing
is a check of both). -/

namespace Sys2Proof

/-! ## Lengths -/

/-- The length in bytes of an instruction of the mode (R71). -/
def AddrMode.length : AddrMode → Nat
  | .imp => 1
  | .acc => 1
  | .imm => 2
  | .zpg => 2
  | .zpx => 2
  | .zpy => 2
  | .izx => 2
  | .izy => 2
  | .rel => 2
  | .abs => 3
  | .abx => 3
  | .aby => 3
  | .ind => 3

/-! ## The opcode table -/

/-- An entry of the opcode table: "{addressing-mode tag, cycle-cost (0 for trapped illegal codes), 3-character mnemonic,
handler reference}" (R74). `build` is the instruction the entry stands for, from the first and second operand byte. -/
structure Entry where
  mnemonic : String
  mode : AddrMode
  cycles : Nat
  build : Byte → Byte → Instr

/-- The entry of an instruction with no operand bytes (format F1). -/
def Entry.implied (mnemonic : String) (mode : AddrMode) (cycles : Nat) (i : Instr) : Entry :=
  ⟨mnemonic, mode, cycles, fun _ _ => i⟩

/-- The entry of an instruction with one operand byte (format F2, R73). -/
def Entry.byteOperand (mnemonic : String) (mode : AddrMode) (cycles : Nat) (f : Byte → Instr) : Entry :=
  ⟨mnemonic, mode, cycles, fun b _ => f b⟩

/-- The entry of an instruction with a little-endian operand word (format F3, R73). -/
def Entry.wordOperand (mnemonic : String) (mode : AddrMode) (cycles : Nat) (f : Addr → Instr) : Entry :=
  ⟨mnemonic, mode, cycles, fun l h => f (join h l)⟩

/-- The entry of an illegal opcode: mode IMP, cost 0, mnemonic ILL (R78). -/
def Entry.illegal (op : Byte) : Entry := ⟨"ILL", .imp, 0, fun _ _ => .ill op⟩

/-- Opcodes $00 to $0F. -/
def opcodeRow0 : List Entry := [
  .implied "BRK" .imp 7 .brk,
  .byteOperand "ORA" .izx 6 fun b => .ora (.mem (.izx b)),
  .illegal 0x02,
  .illegal 0x03,
  .illegal 0x04,
  .byteOperand "ORA" .zpg 3 fun b => .ora (.mem (.zpg b)),
  .byteOperand "ASL" .zpg 5 fun b => .asl (.mem (.zpg b)),
  .illegal 0x07,
  .implied "PHP" .imp 3 .php,
  .byteOperand "ORA" .imm 2 fun b => .ora (.imm b),
  .implied "ASL" .acc 2 (.asl .acc),
  .illegal 0x0B,
  .illegal 0x0C,
  .wordOperand "ORA" .abs 4 fun w => .ora (.mem (.abs w)),
  .wordOperand "ASL" .abs 6 fun w => .asl (.mem (.abs w)),
  .illegal 0x0F]

/-- Opcodes $10 to $1F. -/
def opcodeRow1 : List Entry := [
  .byteOperand "BPL" .rel 2 fun b => .bpl b,
  .byteOperand "ORA" .izy 5 fun b => .ora (.mem (.izy b)),
  .illegal 0x12,
  .illegal 0x13,
  .illegal 0x14,
  .byteOperand "ORA" .zpx 4 fun b => .ora (.mem (.zpx b)),
  .byteOperand "ASL" .zpx 6 fun b => .asl (.mem (.zpx b)),
  .illegal 0x17,
  .implied "CLC" .imp 2 .clc,
  .wordOperand "ORA" .aby 4 fun w => .ora (.mem (.aby w)),
  .illegal 0x1A,
  .illegal 0x1B,
  .illegal 0x1C,
  .wordOperand "ORA" .abx 4 fun w => .ora (.mem (.abx w)),
  .wordOperand "ASL" .abx 7 fun w => .asl (.mem (.abx w)),
  .illegal 0x1F]

/-- Opcodes $20 to $2F. -/
def opcodeRow2 : List Entry := [
  .wordOperand "JSR" .abs 6 fun w => .jsr w,
  .byteOperand "AND" .izx 6 fun b => .and (.mem (.izx b)),
  .illegal 0x22,
  .illegal 0x23,
  .byteOperand "BIT" .zpg 3 fun b => .bit (.zpg b),
  .byteOperand "AND" .zpg 3 fun b => .and (.mem (.zpg b)),
  .byteOperand "ROL" .zpg 5 fun b => .rol (.mem (.zpg b)),
  .illegal 0x27,
  .implied "PLP" .imp 4 .plp,
  .byteOperand "AND" .imm 2 fun b => .and (.imm b),
  .implied "ROL" .acc 2 (.rol .acc),
  .illegal 0x2B,
  .wordOperand "BIT" .abs 4 fun w => .bit (.abs w),
  .wordOperand "AND" .abs 4 fun w => .and (.mem (.abs w)),
  .wordOperand "ROL" .abs 6 fun w => .rol (.mem (.abs w)),
  .illegal 0x2F]

/-- Opcodes $30 to $3F. -/
def opcodeRow3 : List Entry := [
  .byteOperand "BMI" .rel 2 fun b => .bmi b,
  .byteOperand "AND" .izy 5 fun b => .and (.mem (.izy b)),
  .illegal 0x32,
  .illegal 0x33,
  .illegal 0x34,
  .byteOperand "AND" .zpx 4 fun b => .and (.mem (.zpx b)),
  .byteOperand "ROL" .zpx 6 fun b => .rol (.mem (.zpx b)),
  .illegal 0x37,
  .implied "SEC" .imp 2 .sec,
  .wordOperand "AND" .aby 4 fun w => .and (.mem (.aby w)),
  .illegal 0x3A,
  .illegal 0x3B,
  .illegal 0x3C,
  .wordOperand "AND" .abx 4 fun w => .and (.mem (.abx w)),
  .wordOperand "ROL" .abx 7 fun w => .rol (.mem (.abx w)),
  .illegal 0x3F]

/-- Opcodes $40 to $4F. -/
def opcodeRow4 : List Entry := [
  .implied "RTI" .imp 6 .rti,
  .byteOperand "EOR" .izx 6 fun b => .eor (.mem (.izx b)),
  .illegal 0x42,
  .illegal 0x43,
  .illegal 0x44,
  .byteOperand "EOR" .zpg 3 fun b => .eor (.mem (.zpg b)),
  .byteOperand "LSR" .zpg 5 fun b => .lsr (.mem (.zpg b)),
  .illegal 0x47,
  .implied "PHA" .imp 3 .pha,
  .byteOperand "EOR" .imm 2 fun b => .eor (.imm b),
  .implied "LSR" .acc 2 (.lsr .acc),
  .illegal 0x4B,
  .wordOperand "JMP" .abs 3 fun w => .jmp (.abs w),
  .wordOperand "EOR" .abs 4 fun w => .eor (.mem (.abs w)),
  .wordOperand "LSR" .abs 6 fun w => .lsr (.mem (.abs w)),
  .illegal 0x4F]

/-- Opcodes $50 to $5F. -/
def opcodeRow5 : List Entry := [
  .byteOperand "BVC" .rel 2 fun b => .bvc b,
  .byteOperand "EOR" .izy 5 fun b => .eor (.mem (.izy b)),
  .illegal 0x52,
  .illegal 0x53,
  .illegal 0x54,
  .byteOperand "EOR" .zpx 4 fun b => .eor (.mem (.zpx b)),
  .byteOperand "LSR" .zpx 6 fun b => .lsr (.mem (.zpx b)),
  .illegal 0x57,
  .implied "CLI" .imp 2 .cli,
  .wordOperand "EOR" .aby 4 fun w => .eor (.mem (.aby w)),
  .illegal 0x5A,
  .illegal 0x5B,
  .illegal 0x5C,
  .wordOperand "EOR" .abx 4 fun w => .eor (.mem (.abx w)),
  .wordOperand "LSR" .abx 7 fun w => .lsr (.mem (.abx w)),
  .illegal 0x5F]

/-- Opcodes $60 to $6F. -/
def opcodeRow6 : List Entry := [
  .implied "RTS" .imp 6 .rts,
  .byteOperand "ADC" .izx 6 fun b => .adc (.mem (.izx b)),
  .illegal 0x62,
  .illegal 0x63,
  .illegal 0x64,
  .byteOperand "ADC" .zpg 3 fun b => .adc (.mem (.zpg b)),
  .byteOperand "ROR" .zpg 5 fun b => .ror (.mem (.zpg b)),
  .illegal 0x67,
  .implied "PLA" .imp 4 .pla,
  .byteOperand "ADC" .imm 2 fun b => .adc (.imm b),
  .implied "ROR" .acc 2 (.ror .acc),
  .illegal 0x6B,
  .wordOperand "JMP" .ind 5 fun w => .jmp (.ind w),
  .wordOperand "ADC" .abs 4 fun w => .adc (.mem (.abs w)),
  .wordOperand "ROR" .abs 6 fun w => .ror (.mem (.abs w)),
  .illegal 0x6F]

/-- Opcodes $70 to $7F. -/
def opcodeRow7 : List Entry := [
  .byteOperand "BVS" .rel 2 fun b => .bvs b,
  .byteOperand "ADC" .izy 5 fun b => .adc (.mem (.izy b)),
  .illegal 0x72,
  .illegal 0x73,
  .illegal 0x74,
  .byteOperand "ADC" .zpx 4 fun b => .adc (.mem (.zpx b)),
  .byteOperand "ROR" .zpx 6 fun b => .ror (.mem (.zpx b)),
  .illegal 0x77,
  .implied "SEI" .imp 2 .sei,
  .wordOperand "ADC" .aby 4 fun w => .adc (.mem (.aby w)),
  .illegal 0x7A,
  .illegal 0x7B,
  .illegal 0x7C,
  .wordOperand "ADC" .abx 4 fun w => .adc (.mem (.abx w)),
  .wordOperand "ROR" .abx 7 fun w => .ror (.mem (.abx w)),
  .illegal 0x7F]

/-- Opcodes $80 to $8F. -/
def opcodeRow8 : List Entry := [
  .illegal 0x80,
  .byteOperand "STA" .izx 6 fun b => .sta (.izx b),
  .illegal 0x82,
  .illegal 0x83,
  .byteOperand "STY" .zpg 3 fun b => .sty (.zpg b),
  .byteOperand "STA" .zpg 3 fun b => .sta (.zpg b),
  .byteOperand "STX" .zpg 3 fun b => .stx (.zpg b),
  .illegal 0x87,
  .implied "DEY" .imp 2 .dey,
  .illegal 0x89,
  .implied "TXA" .imp 2 .txa,
  .illegal 0x8B,
  .wordOperand "STY" .abs 4 fun w => .sty (.abs w),
  .wordOperand "STA" .abs 4 fun w => .sta (.abs w),
  .wordOperand "STX" .abs 4 fun w => .stx (.abs w),
  .illegal 0x8F]

/-- Opcodes $90 to $9F. -/
def opcodeRow9 : List Entry := [
  .byteOperand "BCC" .rel 2 fun b => .bcc b,
  .byteOperand "STA" .izy 6 fun b => .sta (.izy b),
  .illegal 0x92,
  .illegal 0x93,
  .byteOperand "STY" .zpx 4 fun b => .sty (.zpx b),
  .byteOperand "STA" .zpx 4 fun b => .sta (.zpx b),
  .byteOperand "STX" .zpy 4 fun b => .stx (.zpy b),
  .illegal 0x97,
  .implied "TYA" .imp 2 .tya,
  .wordOperand "STA" .aby 5 fun w => .sta (.aby w),
  .implied "TXS" .imp 2 .txs,
  .illegal 0x9B,
  .illegal 0x9C,
  .wordOperand "STA" .abx 5 fun w => .sta (.abx w),
  .illegal 0x9E,
  .illegal 0x9F]

/-- Opcodes $A0 to $AF. -/
def opcodeRowA : List Entry := [
  .byteOperand "LDY" .imm 2 fun b => .ldy (.imm b),
  .byteOperand "LDA" .izx 6 fun b => .lda (.mem (.izx b)),
  .byteOperand "LDX" .imm 2 fun b => .ldx (.imm b),
  .illegal 0xA3,
  .byteOperand "LDY" .zpg 3 fun b => .ldy (.mem (.zpg b)),
  .byteOperand "LDA" .zpg 3 fun b => .lda (.mem (.zpg b)),
  .byteOperand "LDX" .zpg 3 fun b => .ldx (.mem (.zpg b)),
  .illegal 0xA7,
  .implied "TAY" .imp 2 .tay,
  .byteOperand "LDA" .imm 2 fun b => .lda (.imm b),
  .implied "TAX" .imp 2 .tax,
  .illegal 0xAB,
  .wordOperand "LDY" .abs 4 fun w => .ldy (.mem (.abs w)),
  .wordOperand "LDA" .abs 4 fun w => .lda (.mem (.abs w)),
  .wordOperand "LDX" .abs 4 fun w => .ldx (.mem (.abs w)),
  .illegal 0xAF]

/-- Opcodes $B0 to $BF. -/
def opcodeRowB : List Entry := [
  .byteOperand "BCS" .rel 2 fun b => .bcs b,
  .byteOperand "LDA" .izy 5 fun b => .lda (.mem (.izy b)),
  .illegal 0xB2,
  .illegal 0xB3,
  .byteOperand "LDY" .zpx 4 fun b => .ldy (.mem (.zpx b)),
  .byteOperand "LDA" .zpx 4 fun b => .lda (.mem (.zpx b)),
  .byteOperand "LDX" .zpy 4 fun b => .ldx (.mem (.zpy b)),
  .illegal 0xB7,
  .implied "CLV" .imp 2 .clv,
  .wordOperand "LDA" .aby 4 fun w => .lda (.mem (.aby w)),
  .implied "TSX" .imp 2 .tsx,
  .illegal 0xBB,
  .wordOperand "LDY" .abx 4 fun w => .ldy (.mem (.abx w)),
  .wordOperand "LDA" .abx 4 fun w => .lda (.mem (.abx w)),
  .wordOperand "LDX" .aby 4 fun w => .ldx (.mem (.aby w)),
  .illegal 0xBF]

/-- Opcodes $C0 to $CF. -/
def opcodeRowC : List Entry := [
  .byteOperand "CPY" .imm 2 fun b => .cpy (.imm b),
  .byteOperand "CMP" .izx 6 fun b => .cmp (.mem (.izx b)),
  .illegal 0xC2,
  .illegal 0xC3,
  .byteOperand "CPY" .zpg 3 fun b => .cpy (.mem (.zpg b)),
  .byteOperand "CMP" .zpg 3 fun b => .cmp (.mem (.zpg b)),
  .byteOperand "DEC" .zpg 5 fun b => .dec (.zpg b),
  .illegal 0xC7,
  .implied "INY" .imp 2 .iny,
  .byteOperand "CMP" .imm 2 fun b => .cmp (.imm b),
  .implied "DEX" .imp 2 .dex,
  .illegal 0xCB,
  .wordOperand "CPY" .abs 4 fun w => .cpy (.mem (.abs w)),
  .wordOperand "CMP" .abs 4 fun w => .cmp (.mem (.abs w)),
  .wordOperand "DEC" .abs 6 fun w => .dec (.abs w),
  .illegal 0xCF]

/-- Opcodes $D0 to $DF. -/
def opcodeRowD : List Entry := [
  .byteOperand "BNE" .rel 2 fun b => .bne b,
  .byteOperand "CMP" .izy 5 fun b => .cmp (.mem (.izy b)),
  .illegal 0xD2,
  .illegal 0xD3,
  .illegal 0xD4,
  .byteOperand "CMP" .zpx 4 fun b => .cmp (.mem (.zpx b)),
  .byteOperand "DEC" .zpx 6 fun b => .dec (.zpx b),
  .illegal 0xD7,
  .implied "CLD" .imp 2 .cld,
  .wordOperand "CMP" .aby 4 fun w => .cmp (.mem (.aby w)),
  .illegal 0xDA,
  .illegal 0xDB,
  .illegal 0xDC,
  .wordOperand "CMP" .abx 4 fun w => .cmp (.mem (.abx w)),
  .wordOperand "DEC" .abx 7 fun w => .dec (.abx w),
  .illegal 0xDF]

/-- Opcodes $E0 to $EF. -/
def opcodeRowE : List Entry := [
  .byteOperand "CPX" .imm 2 fun b => .cpx (.imm b),
  .byteOperand "SBC" .izx 6 fun b => .sbc (.mem (.izx b)),
  .illegal 0xE2,
  .illegal 0xE3,
  .byteOperand "CPX" .zpg 3 fun b => .cpx (.mem (.zpg b)),
  .byteOperand "SBC" .zpg 3 fun b => .sbc (.mem (.zpg b)),
  .byteOperand "INC" .zpg 5 fun b => .inc (.zpg b),
  .illegal 0xE7,
  .implied "INX" .imp 2 .inx,
  .byteOperand "SBC" .imm 2 fun b => .sbc (.imm b),
  .implied "NOP" .imp 2 .nop,
  .illegal 0xEB,
  .wordOperand "CPX" .abs 4 fun w => .cpx (.mem (.abs w)),
  .wordOperand "SBC" .abs 4 fun w => .sbc (.mem (.abs w)),
  .wordOperand "INC" .abs 6 fun w => .inc (.abs w),
  .illegal 0xEF]

/-- Opcodes $F0 to $FF. -/
def opcodeRowF : List Entry := [
  .byteOperand "BEQ" .rel 2 fun b => .beq b,
  .byteOperand "SBC" .izy 5 fun b => .sbc (.mem (.izy b)),
  .illegal 0xF2,
  .illegal 0xF3,
  .illegal 0xF4,
  .byteOperand "SBC" .zpx 4 fun b => .sbc (.mem (.zpx b)),
  .byteOperand "INC" .zpx 6 fun b => .inc (.zpx b),
  .illegal 0xF7,
  .implied "SED" .imp 2 .sed,
  .wordOperand "SBC" .aby 4 fun w => .sbc (.mem (.aby w)),
  .illegal 0xFA,
  .illegal 0xFB,
  .illegal 0xFC,
  .wordOperand "SBC" .abx 4 fun w => .sbc (.mem (.abx w)),
  .wordOperand "INC" .abx 7 fun w => .inc (.abx w),
  .illegal 0xFF]


/-- The opcode table: 256 entries, indexed by the opcode byte (R74, R75). -/
def opcodeTable : List Entry :=
  opcodeRow0 ++ opcodeRow1 ++ opcodeRow2 ++ opcodeRow3 ++ opcodeRow4 ++ opcodeRow5 ++ opcodeRow6 ++ opcodeRow7 ++
  opcodeRow8 ++ opcodeRow9 ++ opcodeRowA ++ opcodeRowB ++ opcodeRowC ++ opcodeRowD ++ opcodeRowE ++ opcodeRowF

/-- The table's entry for an opcode byte. The table has 256 entries, so the default is never used. -/
def opcodeEntry (op : Byte) : Entry := opcodeTable.getD op.toNat (.illegal op)

/-! ## The decoder -/

/-- The instruction that starts with the three bytes: total, since every opcode value has an entry (R75). Bytes past the
instruction's length are not looked at. -/
def decodeBytes (b0 b1 b2 : Byte) : Instr := (opcodeEntry b0).build b1 b2

/-- Why a list of bytes holds no instruction. -/
inductive DecodeReject where
  /-- There is no byte at all. -/
  | noOpcodeByte
  /-- The list ends before the operand bytes of the opcode. -/
  | operandBytesMissing (op : Byte)
deriving DecidableEq, Repr

/-- The instruction at the head of a list of bytes and the rest of the list. The opcode byte alone gives the length (R72). -/
def decode : List Byte → Except DecodeReject (Instr × List Byte)
  | [] => .error .noOpcodeByte
  | b0 :: rest =>
    match (opcodeEntry b0).mode.length, rest with
    | 1, rest => .ok (decodeBytes b0 0 0, rest)
    | 2, b1 :: rest => .ok (decodeBytes b0 b1 0, rest)
    | 3, b1 :: b2 :: rest => .ok (decodeBytes b0 b1 b2, rest)
    | _, _ => .error (.operandBytesMissing b0)

/-- Byte `k` of a number, byte 0 the least significant. -/
def byteOfNat (w k : Nat) : Byte := BitVec.ofNat 8 (w / 256 ^ k)

/-- The three bytes an instruction whose bits are `w` occupies, lowest address first; bits from `nbits` up are 0 (log 18). -/
def tableWordBytes (nbits w : Nat) : List Byte :=
  let v := w % 2 ^ nbits
  [byteOfNat v 0, byteOfNat v 1, byteOfNat v 2]

/-- The instruction the decoder reads from the table word `w` of `nbits` bits; no instruction has fewer than 8 or more than
24 bits (R70). -/
def decodeTableWord (nbits w : Nat) : Option Instr :=
  if nbits < 8 || 24 < nbits then none
  else
    match decode (tableWordBytes nbits w) with
    | .ok (i, _) => some i
    | .error _ => none

/-! ## The encoder -/

/-- Choose by the mode of a memory operand, in the order of R77's columns. -/
def MemOperand.select {α : Type} (zpg zpx zpy abs abx aby izx izy : α) : MemOperand → α
  | .zpg _ => zpg
  | .zpx _ => zpx
  | .zpy _ => zpy
  | .abs _ => abs
  | .abx _ => abx
  | .aby _ => aby
  | .izx _ => izx
  | .izy _ => izy

/-- Choose by the mode of a reading instruction's operand, in the order of R77's columns. -/
def ReadOperand.select {α : Type} (imm zpg zpx zpy abs abx aby izx izy : α) : ReadOperand → α
  | .imm _ => imm
  | .mem m => m.select zpg zpx zpy abs abx aby izx izy

/-- The opcode of a shift or rotate, in the order of R77's columns ACC, ZPG, ZPX, ABS, ABX. -/
def ModifyOperand.select (acc zpg zpx abs abx : Byte) : ModifyOperand → Option Byte
  | .acc => some acc
  | .mem m => m.select (some zpg) (some zpx) none (some abs) (some abx) none none none

/-- A group 1 row of R77: columns IMM, ZPG, ZPX, ABS, ABX, ABY, IZX, IZY. -/
def ReadOperand.group1 (imm zpg zpx abs abx aby izx izy : Byte) (o : ReadOperand) : Option Byte :=
  o.select (some imm) (some zpg) (some zpx) none (some abs) (some abx) (some aby) (some izx) (some izy)

/-- The opcode byte of an instruction by the tables of R77; none where R77 has a blank cell, or an ILL value not in R78. -/
def Instr.opcode : Instr → Option Byte
  -- group 1
  | .ora o => o.group1 0x09 0x05 0x15 0x0D 0x1D 0x19 0x01 0x11
  | .and o => o.group1 0x29 0x25 0x35 0x2D 0x3D 0x39 0x21 0x31
  | .eor o => o.group1 0x49 0x45 0x55 0x4D 0x5D 0x59 0x41 0x51
  | .adc o => o.group1 0x69 0x65 0x75 0x6D 0x7D 0x79 0x61 0x71
  | .sta m => m.select (some 0x85) (some 0x95) none (some 0x8D) (some 0x9D) (some 0x99) (some 0x81) (some 0x91)
  | .lda o => o.group1 0xA9 0xA5 0xB5 0xAD 0xBD 0xB9 0xA1 0xB1
  | .cmp o => o.group1 0xC9 0xC5 0xD5 0xCD 0xDD 0xD9 0xC1 0xD1
  | .sbc o => o.group1 0xE9 0xE5 0xF5 0xED 0xFD 0xF9 0xE1 0xF1
  -- group 2
  | .asl o => o.select 0x0A 0x06 0x16 0x0E 0x1E
  | .rol o => o.select 0x2A 0x26 0x36 0x2E 0x3E
  | .lsr o => o.select 0x4A 0x46 0x56 0x4E 0x5E
  | .ror o => o.select 0x6A 0x66 0x76 0x6E 0x7E
  | .dec m => m.select (some 0xC6) (some 0xD6) none (some 0xCE) (some 0xDE) none none none
  | .inc m => m.select (some 0xE6) (some 0xF6) none (some 0xEE) (some 0xFE) none none none
  -- group 3
  | .ldx o => o.select (some 0xA2) (some 0xA6) none (some 0xB6) (some 0xAE) none (some 0xBE) none none
  | .ldy o => o.select (some 0xA0) (some 0xA4) (some 0xB4) none (some 0xAC) (some 0xBC) none none none
  | .stx m => m.select (some 0x86) none (some 0x96) (some 0x8E) none none none none
  | .sty m => m.select (some 0x84) (some 0x94) none (some 0x8C) none none none none
  | .cpx o => o.select (some 0xE0) (some 0xE4) none none (some 0xEC) none none none none
  | .cpy o => o.select (some 0xC0) (some 0xC4) none none (some 0xCC) none none none none
  | .bit m => m.select (some 0x24) none none (some 0x2C) none none none none
  -- group 4
  | .bpl _ => some 0x10
  | .bmi _ => some 0x30
  | .bvc _ => some 0x50
  | .bvs _ => some 0x70
  | .bcc _ => some 0x90
  | .bcs _ => some 0xB0
  | .bne _ => some 0xD0
  | .beq _ => some 0xF0
  -- group 5
  | .jmp (.abs _) => some 0x4C
  | .jmp (.ind _) => some 0x6C
  | .jsr _ => some 0x20
  | .rts => some 0x60
  | .brk => some 0x00
  | .rti => some 0x40
  -- group 6
  | .php => some 0x08
  | .clc => some 0x18
  | .plp => some 0x28
  | .sec => some 0x38
  | .pha => some 0x48
  | .cli => some 0x58
  | .pla => some 0x68
  | .sei => some 0x78
  | .dey => some 0x88
  | .tya => some 0x98
  | .tay => some 0xA8
  | .clv => some 0xB8
  | .iny => some 0xC8
  | .cld => some 0xD8
  | .inx => some 0xE8
  | .sed => some 0xF8
  | .txa => some 0x8A
  | .txs => some 0x9A
  | .tax => some 0xAA
  | .tsx => some 0xBA
  | .dex => some 0xCA
  | .nop => some 0xEA
  -- illegal
  | .ill op => if illegalOpcodes.contains op then some op else none

/-- An operand word in memory order, low byte first (R51, R70). -/
def wordBytes (w : Addr) : List Byte := [lo w, hi w]

/-- The operand bytes of a memory operand in memory order. -/
def MemOperand.bytes : MemOperand → List Byte
  | .zpg b => [b]
  | .zpx b => [b]
  | .zpy b => [b]
  | .abs w => wordBytes w
  | .abx w => wordBytes w
  | .aby w => wordBytes w
  | .izx b => [b]
  | .izy b => [b]

/-- The operand bytes of a reading instruction. -/
def ReadOperand.bytes : ReadOperand → List Byte
  | .imm b => [b]
  | .mem m => m.bytes

/-- The operand bytes of a read-modify-write instruction. -/
def ModifyOperand.bytes : ModifyOperand → List Byte
  | .acc => []
  | .mem m => m.bytes

/-- The operand bytes of an instruction in memory order (R70, R73). -/
def Instr.operandBytes : Instr → List Byte
  | .lda o => o.bytes
  | .ldx o => o.bytes
  | .ldy o => o.bytes
  | .sta m => m.bytes
  | .stx m => m.bytes
  | .sty m => m.bytes
  | .tax => []
  | .tay => []
  | .txa => []
  | .tya => []
  | .tsx => []
  | .txs => []
  | .adc o => o.bytes
  | .sbc o => o.bytes
  | .and o => o.bytes
  | .ora o => o.bytes
  | .eor o => o.bytes
  | .cmp o => o.bytes
  | .cpx o => o.bytes
  | .cpy o => o.bytes
  | .bit m => m.bytes
  | .inc m => m.bytes
  | .dec m => m.bytes
  | .inx => []
  | .iny => []
  | .dex => []
  | .dey => []
  | .asl o => o.bytes
  | .lsr o => o.bytes
  | .rol o => o.bytes
  | .ror o => o.bytes
  | .bcc d => [d]
  | .bcs d => [d]
  | .beq d => [d]
  | .bne d => [d]
  | .bmi d => [d]
  | .bpl d => [d]
  | .bvc d => [d]
  | .bvs d => [d]
  | .jmp (.abs w) => wordBytes w
  | .jmp (.ind w) => wordBytes w
  | .jsr w => wordBytes w
  | .rts => []
  | .pha => []
  | .pla => []
  | .php => []
  | .plp => []
  | .clc => []
  | .sec => []
  | .cli => []
  | .sei => []
  | .cld => []
  | .sed => []
  | .clv => []
  | .nop => []
  | .brk => []
  | .rti => []
  | .ill _ => []

/-- The bytes of an instruction in ascending address order (R70); none for a term that is no row of the opcode table. -/
def encode (i : Instr) : Option (List Byte) :=
  match i.opcode with
  | some op => some (op :: i.operandBytes)
  | none => none

end Sys2Proof
end

