-- ==== Sys2Proof/Config.lean ====
section
/-! DEFINITION. The parameters of spec/00_scope.md R4 at the value R4 gives each, and the uninterpreted behaviour of the
device handlers (spec/93_implementation_defined.md U8). A parameter whose other value the spec describes is a constant the
operations branch on, so that the other instance is one edit away (log 11). -/

namespace Sys2Proof.Config

/-- `STACK_BASE`: the stack page is $0100 to $01FF. -/
def stackBase : Addr := 0x0100

/-- `SP_INIT`: the stack pointer's reset value, and the empty stack RTS tests for (R13, R210). -/
def spInit : Byte := 0xFF

/-- `VEC_RESET`. -/
def vecReset : Addr := 0xFFFC

/-- `VEC_IRQ`: the vector BRK and IRQ share. -/
def vecIrq : Addr := 0xFFFE

/-- `DEFAULT_RESET_TARGET`: what the power-on reset vector points to. -/
def defaultResetTarget : Addr := 0x0200

/-- `IRQ_STUB_ADDR`: where the default RTI handler stands (D25). -/
def irqStubAddr : Addr := 0xFFF0

/-- `INIT_A` (D23). -/
def initA : Byte := 0x00

/-- `INIT_X` (D23). -/
def initX : Byte := 0x00

/-- `INIT_Y` (D23). -/
def initY : Byte := 0x00

/-- `INIT_P` (D23). -/
def initP : Byte := 0x00

/-- `INIT_PC` (D23). -/
def initPC : Addr := 0x0000

/-- `ZP_POINTER_WRAP` (D5): does the high byte of a zero-page pointer at $00FF come from $0000 (true) or $0100 (false). -/
def zpPointerWrap : Bool := false

/-- `JMP_IND_PAGE_BUG` (D6): does `JMP ($xxFF)` read its high byte from $xx00 (true) or from the next page (false). -/
def jmpIndPageBug : Bool := false

/-- The two values of `BRANCH_PAGE_BASE` (D7). -/
inductive PageBase where
  | opcodeAddress
  | followingAddress
deriving DecidableEq, Repr

/-- `BRANCH_PAGE_BASE` (D7): the address whose page is compared with the branch target's. -/
def branchPageBase : PageBase := .opcodeAddress

/-- The two values of `MASKED_IRQ_POLICY` (D18). -/
inductive MaskedIrq where
  | hold
  | drop
deriving DecidableEq, Repr

/-- `MASKED_IRQ_POLICY` (D18): what happens to a request found masked when an instruction starts. -/
def maskedIrqPolicy : MaskedIrq := .hold

/-- The two values of `ILLEGAL_POLICY` (D14). -/
inductive Illegal where
  | flagOnly
  | brkSequence
deriving DecidableEq, Repr

/-- `ILLEGAL_POLICY` (D14, C1): what an illegal opcode does. -/
def illegalPolicy : Illegal := .flagOnly

/-- `BRK_RETURN_OFFSET` (D20, C2): the stacked return address less the address of the BRK opcode. -/
def brkReturnOffset : Addr := 2

/-- `IRQ_RETURN_OFFSET` (D19): the stacked return address less the address of the instruction not yet fetched. -/
def irqReturnOffset : Addr := 0

/-- What a device's read handler does (R44, R46, U8): from the handler's number, the registration's parameter list, the
device environment `E`, the memory array and the address, the new `E` and the raw pokes the handler makes to the array, in
order. UNINTERPRETED: nothing is known of it, so a claim that holds here holds for every device layer (log 6). -/
opaque deviceRead (handler : Nat) (params : List Nat) (env : List Nat) (mem : List Host.Cell) (a : Addr) :
    List Nat × List (Addr × Byte)

/-- What a device's write handler does with the address and the byte written (R45, R46, U8). UNINTERPRETED (log 6). -/
opaque deviceWrite (handler : Nat) (params : List Nat) (env : List Nat) (mem : List Host.Cell) (a : Addr) (v : Byte) :
    List Nat × List (Addr × Byte)

end Sys2Proof.Config
end

