-- ==== Sys2Proof/Machine/Devices.lean ====
section
/-! DEFINITION. The environment behind the bus as data: the ROM window (spec/20_memory.md R45) and the device registrations
(R46, R48, R49). The block never changes either; the host does, between Steps. -/

namespace Sys2Proof.Machine

/-- The read-only window `ROM_ENABLED`, `ROM_BEGIN`, `ROM_END` (R45, U7). -/
structure RomWindow where
  enabled : Bool
  first : Addr
  last : Addr
deriving DecidableEq, Repr

/-- Does the ROM guard drop a write to the address: "`ROM_ENABLED` and `ROM_BEGIN <= a <= ROM_END`" (R45). -/
def RomWindow.guards (r : RomWindow) (a : Addr) : Bool :=
  r.enabled && decide (r.first ≤ a) && decide (a ≤ r.last)

/-- An inclusive address range of a registration (R46). -/
structure AddrRange where
  first : Addr
  last : Addr
deriving DecidableEq, Repr

/-- Does the range hold the address. -/
def AddrRange.contains (r : AddrRange) (a : Addr) : Bool := decide (r.first ≤ a) && decide (a ≤ r.last)

/-- Do the two ranges share an address. -/
def AddrRange.meets (r q : AddrRange) : Bool :=
  decide (r.first ≤ r.last) && decide (q.first ≤ q.last) && decide (r.first ≤ q.last) && decide (q.first ≤ r.last)

/-- A device registration: "{numeric id, name, list of inclusive address ranges, read-handler, write-handler, parameter
list}" (R46), and whether the device is active. A handler is a number that names one of the environment's functions
(Config.deviceRead, Config.deviceWrite), or absent (R49; log 7). -/
structure Device where
  id : Nat
  name : String
  ranges : List AddrRange
  active : Bool
  readHandler : Option Nat
  writeHandler : Option Nat
  params : List Nat
deriving DecidableEq, Repr

/-- "A device owns address a when a lies in one of its ranges and the device is active" (R46). -/
def Device.owns (d : Device) (a : Addr) : Bool := d.active && d.ranges.any (·.contains a)

/-- Are the two devices both active with ranges that share an address. -/
def Device.clashes (d e : Device) : Bool :=
  d.active && e.active && d.ranges.any fun r => e.ranges.any fun q => r.meets q

/-- "Address ranges across concurrently active devices must not overlap" (R48). -/
def devicesDisjoint : List Device → Bool
  | [] => true
  | d :: ds => ds.all (fun e => !d.clashes e) && devicesDisjoint ds

/-- A device map "in which each address has at most one owner": an overlapping configuration is refused by construction
(R48, U1; log 5). -/
structure DeviceMap where
  regs : List Device
  disjoint : devicesDisjoint regs = true
deriving DecidableEq, Repr

/-- The device map with no device: the reference environment (R46). -/
def DeviceMap.empty : DeviceMap := ⟨[], rfl⟩

/-- The device that owns the address, if one does. -/
def DeviceMap.owner (m : DeviceMap) (a : Addr) : Option Device := m.regs.find? (·.owns a)

/-- Register the devices, or refuse a list with overlapping active ranges (R48, U1). -/
def DeviceMap.ofList (ds : List Device) : Option DeviceMap :=
  if h : devicesDisjoint ds = true then some ⟨ds, h⟩ else none

end Sys2Proof.Machine
end

