-- ==== Sys2Proof/Machine/Memory.lean ====
section
/-! DEFINITION. The memory array (spec/20_memory.md R40, R41): 65,536 bytes, held as the list of the cells that differ from
what an unlisted address reads as, by strictly rising address, so that equal memories are equal lists. -/

namespace Sys2Proof.Machine

/-- The memory array as (address, byte) cells. -/
abbrev Memory := List Host.Cell

/-- What an address the list does not hold reads as: the power-on contents. The five pre-wired cells are the spec's
(spec/70_reset_and_hazards.md R280): the reset vector, the BRK and IRQ vector, and the RTI at `IRQ_STUB_ADDR`. The spec leaves
every other cell unspecified (spec/93_implementation_defined.md U5). DESIGN CHOICE, unsafe: they read as 0x00 (log 1). -/
def Memory.unlisted (n : Nat) : Byte :=
  if n = Config.irqStubAddr.toNat then 0x40
  else if n = Config.vecReset.toNat then lo Config.defaultResetTarget
  else if n = (Config.vecReset + 1).toNat then hi Config.defaultResetTarget
  else if n = Config.vecIrq.toNat then lo Config.irqStubAddr
  else if n = (Config.vecIrq + 1).toNat then hi Config.irqStubAddr
  else 0x00

/-- The byte stored at an address. -/
def Memory.read : Memory → Nat → Byte
  | [], n => Memory.unlisted n
  | (k, v) :: m, n => if k = n then v else Memory.read m n

/-- A cell to list, or nothing when the byte is what the address reads as unlisted. -/
def Memory.cell (n : Nat) (v : Byte) : Memory := if v = Memory.unlisted n then [] else [(n, v)]

/-- Store a byte at an address, keeping the canonical form. -/
def Memory.write : Memory → Nat → Byte → Memory
  | [], n, v => Memory.cell n v
  | (k, w) :: m, n, v =>
    if k < n then (k, w) :: Memory.write m n v
    else if k = n then Memory.cell n v ++ m
    else Memory.cell n v ++ (k, w) :: m

/-- Every cell's address is at least `n`, inside the address space, and strictly rising, and no cell holds what its address
reads as unlisted. -/
def Memory.wfFrom : Nat → Memory → Bool
  | _, [] => true
  | n, (k, v) :: m => decide (n ≤ k) && decide (k < 65536) && (v != Memory.unlisted k) && Memory.wfFrom (k + 1) m

/-- The canonical form. -/
def Memory.wf (m : Memory) : Bool := Memory.wfFrom 0 m

/-- The raw poke `poke8_raw`: store a byte with no ROM guard and no device (R45, R41). -/
def Memory.poke (m : Memory) (a : Addr) (v : Byte) : Memory := m.write a.toNat v

/-- Raw pokes in order. -/
def Memory.pokes : Memory → List (Addr × Byte) → Memory
  | m, [] => m
  | m, (a, v) :: ps => Memory.pokes (m.poke a v) ps

/-- Raw pokes of consecutive bytes from an address up, wrapping modulo 65536 (R56): how an image is loaded (R41). -/
def Memory.load : Memory → Addr → List Byte → Memory
  | m, _, [] => m
  | m, a, v :: vs => Memory.load (m.poke a v) (a + 1) vs

end Sys2Proof.Machine
end

