-- ==== Sys2Proof/Machine/Bus.lean ====
section
/-! DEFINITION. The bus and the environment behind it (spec/20_memory.md R42 to R46): the memory array, the ROM window, the
devices and their state, and the two kinds of access the block makes. -/

namespace Sys2Proof.Machine

/-- What stands behind the block's memory port. -/
structure Bus where
  /-- The memory array (R40). -/
  mem : Memory
  /-- The ROM window (R45). -/
  rom : RomWindow
  /-- The device registrations (R46). -/
  devices : DeviceMap
  /-- The state `E` of the devices (R46). -/
  devEnv : List Nat
deriving DecidableEq, Repr

/-- `MemFetch(a)`: the raw path, the byte stored in the array; no device, no effect (R43). -/
def Bus.fetch (b : Bus) (a : Addr) : Byte := b.mem.read a.toNat

/-- What a handler did: the device environment is the new one and its raw pokes are in the array (R44, R46; log 6). -/
def Bus.afterHandler (b : Bus) (out : List Nat × List (Addr × Byte)) : Bus :=
  { b with devEnv := out.1, mem := b.mem.pokes out.2 }

/-- Run the read handler of the active device that owns the address, if there is one (R44, R49). -/
def Bus.runReadHandler (b : Bus) (a : Addr) : Bus :=
  match b.devices.owner a with
  | none => b
  | some d =>
    match d.readHandler with
    | none => b
    | some h => b.afterHandler (Config.deviceRead h d.params b.devEnv b.mem a)

/-- Run the write handler of the active device that owns the address, if there is one (R45, R49). -/
def Bus.runWriteHandler (b : Bus) (a : Addr) (v : Byte) : Bus :=
  match b.devices.owner a with
  | none => b
  | some d =>
    match d.writeHandler with
    | none => b
    | some h => b.afterHandler (Config.deviceWrite h d.params b.devEnv b.mem a v)

/-- `MemRead(a, 1)`: the device's read handler first, then the byte the array now stores (R44, D3). -/
def Bus.read (b : Bus) (a : Addr) : Byte × Bus :=
  let t := b.runReadHandler a
  (t.fetch a, t)

/-- `MemWrite(a, 1, v)`: dropped silently inside the active ROM window; otherwise the array takes the byte and then the
device's write handler runs (R45, D3). -/
def Bus.write (b : Bus) (a : Addr) (v : Byte) : Bus :=
  if b.rom.guards a then b else { b with mem := b.mem.poke a v }.runWriteHandler a v

/-- The raw poke `poke8_raw`: no ROM guard, no device (R41, R45). -/
def Bus.poke (b : Bus) (a : Addr) (v : Byte) : Bus := { b with mem := b.mem.poke a v }

/-- Raw pokes of consecutive bytes: how an image is loaded (R41). -/
def Bus.load (b : Bus) (a : Addr) (bytes : List Byte) : Bus := { b with mem := b.mem.load a bytes }

end Sys2Proof.Machine
end

