-- ==== Sys2Proof/Machine/State.lean ====
section
/-! DEFINITION. The state of the machine, field by field as INVENTORY.md lists it, the reasons a step can stop, and the state
right after reset. -/

namespace Sys2Proof.Machine

/-- The register record (spec/10_state.md R10, R20, R27) and what stands behind the memory port (spec/20_memory.md R41). -/
structure State where
  /-- `A`, the accumulator (R11). -/
  a : Byte
  /-- `X` (R12). -/
  x : Byte
  /-- `Y` (R12). -/
  y : Byte
  /-- `SP` (R13). -/
  sp : Byte
  /-- `PC` (R14). -/
  pc : Addr
  /-- `P`: N V U B D I Z C in bits 7 to 0 (R15). -/
  p : Byte
  /-- `CyclesLeft` (R21). -/
  cyclesLeft : Nat
  /-- `LastOpCode` (R22). -/
  lastOpCode : Byte
  /-- `LastAddrMode` (R22). -/
  lastAddrMode : AddrMode
  /-- `LastArg` (R22). -/
  lastArg : Addr
  /-- `PageBoundary` (R23). -/
  pageBoundary : Bool
  /-- `SoftIrq` (R24). -/
  softIrq : Bool
  /-- `LastRTS` (R25). -/
  lastRTS : Bool
  /-- `IrqPending` (R26). -/
  irqPending : Bool
  /-- `ExitAtLastRTS` (R27). -/
  exitAtLastRTS : Bool
  /-- The memory array and the environment behind the bus: `mem`, `rom`, `devices`, `devEnv` (spec/20_memory.md R40 to R46). -/
  bus : Bus
deriving DecidableEq, Repr

/-- A fault would stop the machine. There is none: "After construction no operation fails" (spec/42_dispatcher_cycles.md
R145), and spec/60_exceptions.md R252 lists every condition another machine might fault on, each with its defined effect. -/
inductive Fault where
deriving DecidableEq, Repr

/-- Why an instruction has no meaning. -/
inductive Refusal where
  /-- Raised by an arm of `exec` whose instruction has no meaning yet. Safe. No arm raises it. -/
  | notModelled (mnemonic : String)
deriving DecidableEq, Repr

/-- The outcome of a step or of an instruction. -/
abbrev Result := Host.Outcome State Fault Refusal

/-- The machine right after power-on (spec/70_reset_and_hazards.md R280, spec/10_state.md R31). The five memory cells R280
writes are what `Memory.unlisted` gives, so no cell is listed. Register values D23 (log 3); environment: no ROM window (log 4),
no device (log 6). -/
def State.powerOn : State where
  a := Config.initA
  x := Config.initX
  y := Config.initY
  sp := Config.spInit
  pc := Config.initPC
  p := Config.initP
  cyclesLeft := 0
  lastOpCode := 0x00
  lastAddrMode := .imp
  lastArg := 0x0000
  pageBoundary := false
  softIrq := false
  lastRTS := false
  irqPending := false
  exitAtLastRTS := false
  bus := { mem := [], rom := ⟨false, 0x0000, 0x0000⟩, devices := .empty, devEnv := [] }

/-- The machine right after power-on and the operation `reset()` (R280, R281): `PC` holds the word at $FFFC, which is
`DEFAULT_RESET_TARGET`, and `P.I` is 1; the rest is as after power-on (R31; log 2). -/
def State.reset : State :=
  { State.powerOn with pc := Config.defaultResetTarget, p := 0x04 }

end Sys2Proof.Machine
end

