-- ==== Sys2Proof/Machine/Flags.lean ====
section
/-! DEFINITION. The flag register's fields and the ALU (spec/10_state.md R15, spec/41_alu_flags.md R110 to R125): pure
functions over bytes and a carry; the instructions say where a result goes. -/

namespace Sys2Proof.Machine

/-! ## The flag register -/

/-- The fields of `P` (R15). -/
inductive Flag where
  | n | v | u | b | d | i | z | c
deriving DecidableEq, Repr

/-- The bit number of the flag in `P` (R15). -/
def Flag.bit : Flag → Nat
  | .n => 7
  | .v => 6
  | .u => 5
  | .b => 4
  | .d => 3
  | .i => 2
  | .z => 1
  | .c => 0

/-- The mask of the flag in `P` (R15). -/
def Flag.mask (f : Flag) : Byte := 1 <<< f.bit

/-- The flag's value in a status byte. -/
def getFlag (p : Byte) (f : Flag) : Bool := p.getLsbD f.bit

/-- A status byte with one flag replaced and every other bit kept. -/
def putFlag (p : Byte) (f : Flag) (v : Bool) : Byte := if v then p ||| f.mask else p &&& ~~~f.mask

/-- `SetNZ(v)`: `P.Z <- (v == 0); P.N <- v[7]` (R111). -/
def setNZ (v p : Byte) : Byte := putFlag (putFlag p .z (v == 0)) .n v.msb

/-- `P.C <- C; P.Z <- Z; P.N <- N` for a result byte: what the shifts, rotates and compares write (R116 to R120). -/
def setCNZ (carry : Bool) (r p : Byte) : Byte := setNZ r (putFlag p .c carry)

/-! ## Add and subtract -/

/-- What an add or subtract function returns: the result byte and the four flags it defines (R110, R125). -/
structure AddResult where
  r : Byte
  c : Bool
  v : Bool
  z : Bool
  n : Bool
deriving DecidableEq, Repr

/-- `P.C <- C; P.V <- V; P.Z <- Z; P.N <- N` (R170, R171). -/
def AddResult.setFlags (o : AddResult) (p : Byte) : Byte :=
  putFlag (putFlag (putFlag (putFlag p .c o.c) .v o.v) .z o.z) .n o.n

/-- `adc_bin(a, m, c)` (R112). -/
def adcBin (a m : Byte) (c : Bool) : AddResult :=
  let s := a.toNat + m.toNat + c.toNat
  let r : Byte := BitVec.ofNat 8 s
  { r := r
    c := decide (255 < s)
    v := ((~~~(a ^^^ m)) &&& (a ^^^ r) &&& 0x80) != 0
    z := r == 0
    n := r.msb }

/-- The low nibble of a byte as a number: `a & 0x0F`. -/
def loNibble (a : Byte) : Nat := a.toNat % 16

/-- The high nibble of a byte as a number: `a >> 4`. -/
def hiNibble (a : Byte) : Nat := a.toNat / 16

/-- The decimal correction of a nibble sum: "+6 correction when a nibble exceeds 9" (R113). -/
def adjustNibble (n : Nat) : Nat := if 9 < n then n + 6 else n

/-- Bit 3 of the high-nibble sum, `((ah << 4) & 0x80) != 0` of R113. -/
def nibbleSign (ah : Nat) : Bool := ah / 8 % 2 == 1

/-- `adc_dec(a, m, c)` (R113): the low nibble corrected first; Z from the binary sum, N and V from the high-nibble sum before
its own correction, C from the decimal carry. -/
def adcDec (a m : Byte) (c : Bool) : AddResult :=
  let al := adjustNibble (loNibble a + loNibble m + c.toNat)
  let ah := hiNibble a + hiNibble m + (decide (15 < al)).toNat
  { r := BitVec.ofNat 8 (adjustNibble ah * 16 + al % 16)
    c := decide (15 < adjustNibble ah)
    v := (nibbleSign ah != a.msb) && (a.msb == m.msb)
    z := (a.toNat + m.toNat + c.toNat) % 256 == 0
    n := nibbleSign ah }

/-- `sbc_bin(a, m, c) = adc_bin(a, m ^ 0xFF, c)` (R114). -/
def sbcBin (a m : Byte) (c : Bool) : AddResult := adcBin a (m ^^^ 0xFF) c

/-- `sbc_dec(a, m, c)` (R115): the flags of the binary subtraction, the result byte corrected nibble by nibble. -/
def sbcDec (a m : Byte) (c : Bool) : AddResult :=
  let al : Int := loNibble a - loNibble m - (1 - c.toNat)
  let borrow : Bool := decide (al < 0)
  let al' : Int := if borrow then al - 6 else al
  let ah : Int := hiNibble a - hiNibble m - borrow.toNat
  let ah' : Int := if ah < 0 then ah - 6 else ah
  { sbcBin a m c with r := BitVec.ofInt 8 (ah' % 16 * 16 + al' % 16) }

/-- The adder ADC uses: decimal when `P.D` is 1 (R170). -/
def adc (decimal : Bool) (a m : Byte) (c : Bool) : AddResult := if decimal then adcDec a m c else adcBin a m c

/-- The subtracter SBC uses: decimal when `P.D` is 1 (R171). -/
def sbc (decimal : Bool) (a m : Byte) (c : Bool) : AddResult := if decimal then sbcDec a m c else sbcBin a m c

/-! ## Shifts and rotates -/

/-- What a shift or rotate returns beside Z and N, which follow from the result byte: the result and the carry-out. -/
structure ShiftResult where
  r : Byte
  c : Bool
deriving DecidableEq, Repr

/-- `asl(v)` (R116). -/
def aslByte (v : Byte) : ShiftResult := ⟨(v <<< 1) &&& 0xFE, v.getLsbD 7⟩

/-- `lsr(v)` (R117). Bit 7 of the result is 0, so `N` is 0. -/
def lsrByte (v : Byte) : ShiftResult := ⟨(v >>> 1) &&& 0x7F, v.getLsbD 0⟩

/-- A carry as a byte, 0 or 1. -/
def carryByte (c : Bool) : Byte := if c then 1 else 0

/-- `rol(v, c)` (R118). -/
def rolByte (v : Byte) (c : Bool) : ShiftResult := ⟨((v <<< 1) &&& 0xFE) ||| carryByte c, v.getLsbD 7⟩

/-- `ror(v, c)` (R119). -/
def rorByte (v : Byte) (c : Bool) : ShiftResult := ⟨((v >>> 1) &&& 0x7F) ||| (carryByte c <<< 7), v.getLsbD 0⟩

/-! ## Compare, bit test, increment, decrement -/

/-- `cmp(reg, m)` with its three flags written: C the unsigned `reg >= m`, Z and N of the difference (R120). -/
def compareFlags (reg m p : Byte) : Byte := setCNZ (decide (m ≤ reg)) (reg - m) p

/-- `bit(a, m)` with its three flags written: Z of the AND, N and V copied from the operand (R121). -/
def bitFlags (a m p : Byte) : Byte :=
  putFlag (putFlag (putFlag p .z ((a &&& m) == 0)) .n (m.getLsbD 7)) .v (m.getLsbD 6)

/-- `inc(v)` (R123). -/
def incByte (v : Byte) : Byte := v + 1

/-- `dec(v)` (R123). -/
def decByte (v : Byte) : Byte := v - 1

/-! ## The flags of the state -/

/-- The value of a flag of `P`. -/
def State.flag (s : State) (f : Flag) : Bool := getFlag s.p f

/-- Write one flag of `P`. -/
def State.setFlag (s : State) (f : Flag) (v : Bool) : State := { s with p := putFlag s.p f v }

end Sys2Proof.Machine
end

