-- ==== Sys2Proof/Machine/Ops.lean ====
section
/-! DEFINITION. The named operations over memory and registers (spec/00_scope.md R7, spec/20_memory.md R43 to R45), the
return-address stack, taking an exception and returning from one (spec/60_exceptions.md R256, R259, R260), and the start of
an instruction (spec/42_dispatcher_cycles.md R132). -/

namespace Sys2Proof.Machine

/-! ## The memory port -/

/-- `MemFetch(a)` (R43). -/
def memFetch (s : State) (a : Addr) : Byte := s.bus.fetch a

/-- `MemFetch16(a) = {MemFetch(a +16 1), MemFetch(a)}` (R7). -/
def memFetch16 (s : State) (a : Addr) : Addr := join (memFetch s (a + 1)) (memFetch s a)

/-- `MemRead(a, 1)` (R44). -/
def memRead (a : Addr) (s : State) : Byte × State :=
  let r := s.bus.read a
  (r.1, { s with bus := r.2 })

/-- `MemWrite(a, 1, v)` (R45). -/
def memWrite (a : Addr) (v : Byte) (s : State) : State := { s with bus := s.bus.write a v }

/-! ## The stack -/

/-- The stack address `0x0100 + SP` (R13). -/
def stackAddr (sp : Byte) : Addr := Config.stackBase + zext16 sp

/-- `Push(v)`: write at the stack address, then decrement `SP` modulo 256 (R7, R13). -/
def push (v : Byte) (s : State) : State :=
  let t := memWrite (stackAddr s.sp) v s
  { t with sp := s.sp - 1 }

/-- `Pop()`: increment `SP` modulo 256, then read at the stack address (R7, R13). -/
def pop (s : State) : Byte × State :=
  let sp := s.sp + 1
  memRead (stackAddr sp) { s with sp := sp }

/-- `Push(hi(w)); Push(lo(w))`: a return address, high byte first (R51, R209). -/
def pushWord (w : Addr) (s : State) : State := push (lo w) (push (hi w) s)

/-- `l = Pop(); h = Pop()`: the word `{h, l}` (R210, R233). -/
def popWord (s : State) : Addr × State :=
  let l := pop s
  let h := pop l.2
  (join h.1 l.1, h.2)

/-! ## Exceptions -/

/-- Taking an exception, for BRK and IRQ alike (R259): push the return address high byte first and the status byte, set
`P.I`, and load `PC` from the shared vector through the raw path. -/
def takeException (ret : Addr) (status : Byte) (s : State) : State :=
  let t := push status (pushWord ret s)
  { t with p := putFlag t.p .i true, pc := memFetch16 t Config.vecIrq }

/-- Returning from one (R233, R260): pop all eight bits of `P`, pop `PC` with no adjustment, then force `P.I` to 0. -/
def returnFromException (s : State) : State :=
  let p := pop s
  let ret := popWord { p.2 with p := p.1 }
  { ret.2 with pc := ret.1, p := putFlag ret.2.p .i false }

/-- `raise SoftTrap`: `SoftIrq <- true`, nothing else (R8). -/
def raiseSoftTrap (s : State) : State := { s with softIrq := true }

/-- The status byte BRK and PHP push: `P | 0x10` (R18). -/
def statusWithBreak (p : Byte) : Byte := p ||| 0x10

/-- The status byte IRQ entry pushes: `P & 0xEF` (R18). -/
def statusWithoutBreak (p : Byte) : Byte := p &&& 0xEF

/-- The BRK sequence (R232). On entry `PC` is the opcode address plus 1. -/
def brkSequence (s : State) : State :=
  let ret := s.pc - 1 + Config.brkReturnOffset
  raiseSoftTrap (takeException ret (statusWithBreak s.p) s)

/-- `IrqEntry()` (R256): the stacked address is that of the instruction not yet fetched, bit 4 of the stacked status is
clear, and the latch is cleared. -/
def irqEntry (s : State) : State :=
  let t := takeException (s.pc + Config.irqReturnOffset) (statusWithoutBreak s.p) s
  { t with irqPending := false }

/-! ## The start of an instruction -/

/-- Record the decoded mode, the raw operand and the page-boundary flag of the instruction, as every resolution does (R90). -/
def State.noteOperand (s : State) (mode : AddrMode) (arg : Addr) (crossed : Bool) : State :=
  { s with lastAddrMode := mode, lastArg := arg, pageBoundary := crossed }

/-- `SoftIrq <- false; LastRTS <- false; PageBoundary <- false` (R132, D17). -/
def State.clearStatus (s : State) : State :=
  { s with softIrq := false, lastRTS := false, pageBoundary := false }

/-- `MASKED_IRQ_POLICY`: a request found masked is held, or discarded (R254, D18). -/
def State.maskedIrq (s : State) : State :=
  match Config.maskedIrqPolicy with
  | .hold => s
  | .drop => { s with irqPending := false }

/-- The hardware interrupt in place of an instruction: "the synthetic BRK opcode", cost 7 (R132, R134, R256). -/
def startIrq (s : State) : State :=
  irqEntry { s.noteOperand .imp 0 false with lastOpCode := 0x00, cyclesLeft := 7 - 1 }

/-- The bookkeeping of a fetched opcode before its handler runs: `PC` past the opcode byte, `LastOpCode`, and `CyclesLeft` the
base cost less 1 (R132, R134). An illegal opcode's cost is 0 and its `CyclesLeft` stays 0 (R137, R234). -/
def State.beginInstr (s : State) (op : Byte) (cycles : Nat) : State :=
  { s with pc := s.pc + 1, lastOpCode := op, cyclesLeft := cycles - 1 }

/-- The instruction at `PC`, its opcode byte and operand bytes fetched by the raw path (R43, R73; log 8). -/
def fetchInstr (s : State) : Instr :=
  decodeBytes (memFetch s s.pc) (memFetch s (s.pc + 1)) (memFetch s (s.pc + 2))

end Sys2Proof.Machine
end

