-- ==== Sys2Proof/Machine/Operands.lean ====
section
/-! DEFINITION. The addressing-mode resolver (spec/40_addressing_modes.md R90 to R105) and the helpers the instruction rules
share: `ReadOperand` and `Modify` (spec/42_dispatcher_cycles.md R147, R148), the branch (spec/46_branch_jump.md R211). On entry
`PC` is the address of the first operand byte; the operand bytes themselves are in the decoded instruction (log 8). -/

namespace Sys2Proof.Machine

/-! ## Pointer words -/

/-- The address of the high byte of a zero-page pointer: the next address, or the next inside the zero page under
`ZP_POINTER_WRAP` (R101, R102, D5). -/
def zpPointerHigh (p : Addr) : Addr :=
  if Config.zpPointerWrap then zext16 (lo p + 1) else p + 1

/-- The address of the high byte of JMP's pointer: the next address, or the next inside the pointer's page under
`JMP_IND_PAGE_BUG` (R100, D6). -/
def jumpPointerHigh (w : Addr) : Addr :=
  if Config.jmpIndPageBug then join (hi w) (lo w + 1) else w + 1

/-- A pointer word: two Data reads, low byte first (R54, R100 to R102). -/
def readPointer (low high : Addr) (s : State) : Addr × State :=
  let l := memRead low s
  let h := memRead high l.2
  (join h.1 l.1, h.2)

/-- A pointer word in the zero page. -/
def readZpPointer (p : Addr) (s : State) : Addr × State := readPointer p (zpPointerHigh p) s

/-! ## resolve(mode) -/

/-- `PC` past the operand bytes, with the resolution recorded (R90). -/
def State.resolved (s : State) (mode : AddrMode) (arg : Addr) (crossed : Bool) : State :=
  { s.noteOperand mode arg crossed with pc := s.pc + BitVec.ofNat 16 (mode.length - 1) }

/-- `resolve(IMP)` (R92). -/
def resolveImp (s : State) : State := s.resolved .imp 0 false

/-- `resolve(ACC)` (R92). -/
def resolveAcc (s : State) : State := s.resolved .acc 0 false

/-- `resolve(mode)` for a memory operand: the effective address and the state after the resolution (R94 to R99, R101, R102). -/
def resolveMem : MemOperand → State → Addr × State
  | .zpg b, s => (zext16 b, s.resolved .zpg (zext16 b) false)
  | .zpx b, s => (zext16 (b + s.x), s.resolved .zpx (zext16 b) false)
  | .zpy b, s => (zext16 (b + s.y), s.resolved .zpy (zext16 b) false)
  | .abs w, s => (w, s.resolved .abs w false)
  | .abx w, s =>
    let ea := w + zext16 s.x
    (ea, s.resolved .abx w (cross w ea))
  | .aby w, s =>
    let ea := w + zext16 s.y
    (ea, s.resolved .aby w (cross w ea))
  | .izx b, s =>
    let ptr := readZpPointer (zext16 (b + s.x)) s
    (ptr.1, ptr.2.resolved .izx (zext16 b) false)
  | .izy b, s =>
    let ptr := readZpPointer (zext16 b) s
    let ea := ptr.1 + zext16 s.y
    (ea, ptr.2.resolved .izy (zext16 b) (cross ptr.1 ea))

/-- `resolve(ABS)` and `resolve(IND)` for JMP (R97, R100). -/
def resolveJump : JumpOperand → State → Addr × State
  | .abs w, s => (w, s.resolved .abs w false)
  | .ind w, s =>
    let ptr := readPointer w (jumpPointerHigh w) s
    (ptr.1, ptr.2.resolved .ind w false)

/-- The address whose page a branch target's page is compared with, from the address of the displacement byte
(`BRANCH_PAGE_BASE`: R103, D7). -/
def branchPageAddr (operandAddr : Addr) : Addr :=
  match Config.branchPageBase with
  | .opcodeAddress => operandAddr - 1
  | .followingAddress => operandAddr + 1

/-- `resolve(REL)`: the branch target, displacement counted from the following address (R103). -/
def resolveRel (d : Byte) (s : State) : Addr × State :=
  let ea := s.pc + 1 + sext16 d
  (ea, s.resolved .rel (zext16 d) (cross (branchPageAddr s.pc) ea))

/-! ## Operands -/

/-- `if PageBoundary then CyclesLeft <- CyclesLeft + 1` (R135, R147). -/
def State.readPenalty (s : State) : State :=
  { s with cyclesLeft := s.cyclesLeft + s.pageBoundary.toNat }

/-- `ReadOperand(mode)`: the operand byte and the state after it is read (R147). An immediate is an instruction-stream byte
(R93); a memory operand is read once, after the page-crossing penalty. -/
def readOperand : ReadOperand → State → Byte × State
  | .imm b, s => (b, s.resolved .imm (zext16 b) false)
  | .mem m, s =>
    let ea := resolveMem m s
    memRead ea.1 ea.2.readPenalty

/-- `ea = resolve(mode); MemWrite(ea, 1, v)`: a store (R153 to R155). No penalty. -/
def storeOperand (m : MemOperand) (v : Byte) (s : State) : State :=
  let ea := resolveMem m s
  memWrite ea.1 v ea.2

/-- `Modify(mode, f)`: replace the operand byte by `f` of it, one read and one write at the same address (R148). Answers the
byte that was read, from which the caller has the result byte and the flags. -/
def modifyOperand (o : ModifyOperand) (f : Byte → Byte) (s : State) : Byte × State :=
  match o with
  | .acc => (s.a, { resolveAcc s with a := f s.a })
  | .mem m =>
    let ea := resolveMem m s
    let v := memRead ea.1 ea.2
    (v.1, memWrite ea.1 (f v.1) v.2)

/-! ## Branches -/

/-- The penalty of a taken branch: 2 if the branch crosses a page, else 1 (R136). -/
def branchPenalty (crossed : Bool) : Nat := if crossed then 2 else 1

/-- `Branch(cond)` (R211). -/
def branch (cond : Bool) (d : Byte) (s : State) : State :=
  let target := resolveRel d s
  if cond then
    { target.2 with
      pc := target.1
      cyclesLeft := target.2.cyclesLeft + branchPenalty target.2.pageBoundary }
  else target.2

end Sys2Proof.Machine
end

