-- ==== Sys2Proof/Machine/Arith.lean ====
section
/-! DEFINITION. Arithmetic, logic, compare, bit-test, increment and decrement instructions (spec/44_arith_logic.md R170 to R184). -/

namespace Sys2Proof.Machine

/-! ## Add and subtract -/

/-- ADC: the decimal adder when `P.D` is 1, else the binary one (R170). -/
def execAdc (o : ReadOperand) (s : State) : Result :=
  let m := readOperand o s
  let out := adc (m.2.flag .d) m.2.a m.1 (m.2.flag .c)
  .next { m.2 with a := out.r, p := out.setFlags m.2.p }

/-- SBC: the decimal subtracter when `P.D` is 1, else the binary one (R171). -/
def execSbc (o : ReadOperand) (s : State) : Result :=
  let m := readOperand o s
  let out := sbc (m.2.flag .d) m.2.a m.1 (m.2.flag .c)
  .next { m.2 with a := out.r, p := out.setFlags m.2.p }

/-! ## Logic -/

/-- Write a logic result to `A` and set N and Z of it (R122). -/
def State.setAccNZ (s : State) (r : Byte) : State := { s with a := r, p := setNZ r s.p }

/-- AND: `A <- A & m; SetNZ(A)` (R172). -/
def execAnd (o : ReadOperand) (s : State) : Result :=
  let m := readOperand o s
  .next (m.2.setAccNZ (m.2.a &&& m.1))

/-- ORA: `A <- A | m; SetNZ(A)` (R173). -/
def execOra (o : ReadOperand) (s : State) : Result :=
  let m := readOperand o s
  .next (m.2.setAccNZ (m.2.a ||| m.1))

/-- EOR: `A <- A ^ m; SetNZ(A)` (R174). -/
def execEor (o : ReadOperand) (s : State) : Result :=
  let m := readOperand o s
  .next (m.2.setAccNZ (m.2.a ^^^ m.1))

/-! ## Compares and bit test -/

/-- CMP (R175). -/
def execCmp (o : ReadOperand) (s : State) : Result :=
  let m := readOperand o s
  .next { m.2 with p := compareFlags m.2.a m.1 m.2.p }

/-- CPX (R176). -/
def execCpx (o : ReadOperand) (s : State) : Result :=
  let m := readOperand o s
  .next { m.2 with p := compareFlags m.2.x m.1 m.2.p }

/-- CPY (R177). -/
def execCpy (o : ReadOperand) (s : State) : Result :=
  let m := readOperand o s
  .next { m.2 with p := compareFlags m.2.y m.1 m.2.p }

/-- BIT (R178). -/
def execBit (o : MemOperand) (s : State) : Result :=
  let m := readOperand (.mem o) s
  .next { m.2 with p := bitFlags m.2.a m.1 m.2.p }

/-! ## Increment and decrement -/

/-- INC: `r = Modify(mode, inc); SetNZ(r)` (R179). -/
def execInc (m : MemOperand) (s : State) : Result :=
  let v := modifyOperand (.mem m) incByte s
  .next { v.2 with p := setNZ (incByte v.1) v.2.p }

/-- DEC: `r = Modify(mode, dec); SetNZ(r)` (R180). -/
def execDec (m : MemOperand) (s : State) : Result :=
  let v := modifyOperand (.mem m) decByte s
  .next { v.2 with p := setNZ (decByte v.1) v.2.p }

/-- INX: `X <- X +8 1; SetNZ(X)` (R181). -/
def execInx (s : State) : Result := .next { resolveImp s with x := incByte s.x, p := setNZ (incByte s.x) s.p }

/-- INY: `Y <- Y +8 1; SetNZ(Y)` (R182). -/
def execIny (s : State) : Result := .next { resolveImp s with y := incByte s.y, p := setNZ (incByte s.y) s.p }

/-- DEX: `X <- X -8 1; SetNZ(X)` (R183). -/
def execDex (s : State) : Result := .next { resolveImp s with x := decByte s.x, p := setNZ (decByte s.x) s.p }

/-- DEY: `Y <- Y -8 1; SetNZ(Y)` (R184). -/
def execDey (s : State) : Result := .next { resolveImp s with y := decByte s.y, p := setNZ (decByte s.y) s.p }

end Sys2Proof.Machine
end

