-- ==== Sys2Proof/Machine/Branch.lean ====
section
/-! DEFINITION. Branch, jump and subroutine instructions (spec/46_branch_jump.md R200 to R211). -/

namespace Sys2Proof.Machine

/-! ## Conditional branches -/

/-- BCC: `Branch(P.C == 0)` (R200). -/
def execBcc (d : Byte) (s : State) : Result := .next (branch (!s.flag .c) d s)

/-- BCS: `Branch(P.C == 1)` (R201). -/
def execBcs (d : Byte) (s : State) : Result := .next (branch (s.flag .c) d s)

/-- BEQ: `Branch(P.Z == 1)` (R202). -/
def execBeq (d : Byte) (s : State) : Result := .next (branch (s.flag .z) d s)

/-- BNE: `Branch(P.Z == 0)` (R203). -/
def execBne (d : Byte) (s : State) : Result := .next (branch (!s.flag .z) d s)

/-- BMI: `Branch(P.N == 1)` (R204). -/
def execBmi (d : Byte) (s : State) : Result := .next (branch (s.flag .n) d s)

/-- BPL: `Branch(P.N == 0)` (R205). -/
def execBpl (d : Byte) (s : State) : Result := .next (branch (!s.flag .n) d s)

/-- BVC: `Branch(P.V == 0)` (R206). -/
def execBvc (d : Byte) (s : State) : Result := .next (branch (!s.flag .v) d s)

/-- BVS: `Branch(P.V == 1)` (R207). -/
def execBvs (d : Byte) (s : State) : Result := .next (branch (s.flag .v) d s)

/-! ## Jumps and subroutines -/

/-- JMP: `PC <- resolve(mode)` (R208). -/
def execJmp (o : JumpOperand) (s : State) : Result :=
  let target := resolveJump o s
  .next { target.2 with pc := target.1 }

/-- JSR: push the address of the instruction's last byte, high byte first, then jump (R209). -/
def execJsr (w : Addr) (s : State) : Result :=
  let target := resolveMem (.abs w) s
  let ret := target.2.pc - 1
  .next { pushWord ret target.2 with pc := target.1 }

/-- RTS: signal `LastRTS` at the empty stack when `ExitAtLastRTS` is on, else pop the return address less one (R210). -/
def execRts (s : State) : Result :=
  let s := resolveImp s
  if s.exitAtLastRTS && s.sp == Config.spInit then .next { s with lastRTS := true }
  else
    let ret := popWord s
    .next { ret.2 with pc := ret.1 + 1 }

end Sys2Proof.Machine
end

