-- ==== Sys2Proof/Machine/LoadStore.lean ====
section
/-! DEFINITION. Load, store and register-transfer instructions (spec/43_load_store_transfer.md R150 to R161). -/

namespace Sys2Proof.Machine

/-! ## Loads -/

/-- LDA: `m = ReadOperand(mode); A <- m; SetNZ(m)` (R150). -/
def execLda (o : ReadOperand) (s : State) : Result :=
  let m := readOperand o s
  .next { m.2 with a := m.1, p := setNZ m.1 m.2.p }

/-- LDX: `m = ReadOperand(mode); X <- m; SetNZ(m)` (R151). -/
def execLdx (o : ReadOperand) (s : State) : Result :=
  let m := readOperand o s
  .next { m.2 with x := m.1, p := setNZ m.1 m.2.p }

/-- LDY: `m = ReadOperand(mode); Y <- m; SetNZ(m)` (R152). -/
def execLdy (o : ReadOperand) (s : State) : Result :=
  let m := readOperand o s
  .next { m.2 with y := m.1, p := setNZ m.1 m.2.p }

/-! ## Stores -/

/-- STA: `ea = resolve(mode); MemWrite(ea, 1, A)` (R153). -/
def execSta (m : MemOperand) (s : State) : Result := .next (storeOperand m s.a s)

/-- STX: `ea = resolve(mode); MemWrite(ea, 1, X)` (R154). -/
def execStx (m : MemOperand) (s : State) : Result := .next (storeOperand m s.x s)

/-- STY: `ea = resolve(mode); MemWrite(ea, 1, Y)` (R155). -/
def execSty (m : MemOperand) (s : State) : Result := .next (storeOperand m s.y s)

/-! ## Register transfers -/

/-- TAX: `X <- A; SetNZ(X)` (R156). -/
def execTax (s : State) : Result := .next { resolveImp s with x := s.a, p := setNZ s.a s.p }

/-- TAY: `Y <- A; SetNZ(Y)` (R157). -/
def execTay (s : State) : Result := .next { resolveImp s with y := s.a, p := setNZ s.a s.p }

/-- TXA: `A <- X; SetNZ(A)` (R158). -/
def execTxa (s : State) : Result := .next { resolveImp s with a := s.x, p := setNZ s.x s.p }

/-- TYA: `A <- Y; SetNZ(A)` (R159). -/
def execTya (s : State) : Result := .next { resolveImp s with a := s.y, p := setNZ s.y s.p }

/-- TSX: `X <- SP; SetNZ(X)` (R160). -/
def execTsx (s : State) : Result := .next { resolveImp s with x := s.sp, p := setNZ s.sp s.p }

/-- TXS: `SP <- X`; no flag (R161). -/
def execTxs (s : State) : Result := .next { resolveImp s with sp := s.x }

end Sys2Proof.Machine
end

