-- ==== Sys2Proof/Machine/Shift.lean ====
section
/-! DEFINITION. Shift and rotate instructions (spec/45_shift_rotate.md R190 to R193). -/

namespace Sys2Proof.Machine

/-- Apply a shift or rotate to the operand through `Modify` and write C, Z and N of it (R148, R190 to R193). -/
def shiftOperand (o : ModifyOperand) (f : Byte → ShiftResult) (s : State) : State :=
  let v := modifyOperand o (fun b => (f b).r) s
  let out := f v.1
  { v.2 with p := setCNZ out.c out.r v.2.p }

/-- ASL (R190). -/
def execAsl (o : ModifyOperand) (s : State) : Result := .next (shiftOperand o aslByte s)

/-- LSR (R191). -/
def execLsr (o : ModifyOperand) (s : State) : Result := .next (shiftOperand o lsrByte s)

/-- ROL: the carry-in is the value of `P.C` before the instruction (R192). -/
def execRol (o : ModifyOperand) (s : State) : Result := .next (shiftOperand o (rolByte · (s.flag .c)) s)

/-- ROR: the carry-in is the value of `P.C` before the instruction (R193). -/
def execRor (o : ModifyOperand) (s : State) : Result := .next (shiftOperand o (rorByte · (s.flag .c)) s)

end Sys2Proof.Machine
end

