-- ==== Sys2Proof/Machine/StackFlags.lean ====
section
/-! DEFINITION. Stack, flag, NOP, BRK, RTI and illegal-opcode instructions (spec/47_stack_flags_system.md R220 to R234). -/

namespace Sys2Proof.Machine

/-! ## Stack instructions -/

/-- PHA: `Push(A)` (R220). -/
def execPha (s : State) : Result := .next (push s.a (resolveImp s))

/-- PLA: `A <- Pop(); SetNZ(A)` (R221). -/
def execPla (s : State) : Result :=
  let v := pop (resolveImp s)
  .next { v.2 with a := v.1, p := setNZ v.1 v.2.p }

/-- PHP: `Push(P | 0x10)` (R222). -/
def execPhp (s : State) : Result := .next (push (statusWithBreak s.p) (resolveImp s))

/-- PLP: `P <- Pop()`, all eight bits (R223). -/
def execPlp (s : State) : Result :=
  let v := pop (resolveImp s)
  .next { v.2 with p := v.1 }

/-! ## Flag instructions -/

/-- CLC: `P.C <- 0` (R224). -/
def execClc (s : State) : Result := .next ((resolveImp s).setFlag .c false)

/-- SEC: `P.C <- 1` (R225). -/
def execSec (s : State) : Result := .next ((resolveImp s).setFlag .c true)

/-- CLI: `P.I <- 0` (R226). -/
def execCli (s : State) : Result := .next ((resolveImp s).setFlag .i false)

/-- SEI: `P.I <- 1` (R227). -/
def execSei (s : State) : Result := .next ((resolveImp s).setFlag .i true)

/-- CLD: `P.D <- 0` (R228). -/
def execCld (s : State) : Result := .next ((resolveImp s).setFlag .d false)

/-- SED: `P.D <- 1` (R229). -/
def execSed (s : State) : Result := .next ((resolveImp s).setFlag .d true)

/-- CLV: `P.V <- 0` (R230). -/
def execClv (s : State) : Result := .next ((resolveImp s).setFlag .v false)

/-- NOP: no register, flag or memory changes (R231). -/
def execNop (s : State) : Result := .next (resolveImp s)

/-! ## BRK, RTI and illegal opcodes -/

/-- BRK: take the software interrupt (R232). -/
def execBrk (s : State) : Result := .next (brkSequence (resolveImp s))

/-- RTI: return from interrupt (R233). -/
def execRti (s : State) : Result := .next (returnFromException (resolveImp s))

/-- An illegal opcode: the software-interrupt flag and nothing else (R234, `ILLEGAL_POLICY`: D14, C1). The opcode byte is in
`LastOpCode` already (R132), so the effect does not depend on it. -/
def execIll (_op : Byte) (s : State) : Result :=
  let s := s.noteOperand .imp 0 false
  match Config.illegalPolicy with
  | .flagOnly => .next (raiseSoftTrap s)
  | .brkSequence => .next (brkSequence s)

end Sys2Proof.Machine
end

