-- ==== Sys2Proof/Machine/Sequencer.lean ====
section
/-! DEFINITION. The instruction dispatcher and the cycle counter: the Step state machine (spec/42_dispatcher_cycles.md R132 to
R137, spec/60_exceptions.md R258). -/

namespace Sys2Proof.Machine

/-- What a Step with `CyclesLeft == 0` does: clear the status flags; take a pending unmasked interrupt in place of the fetch;
else fetch, account and execute the instruction at `PC` (R132, R258). -/
def startInstr (s : State) : Result :=
  let s := s.clearStatus
  if s.irqPending && !s.flag .i then .next (startIrq s)
  else
    let s := s.maskedIrq
    let op := memFetch s s.pc
    exec (fetchInstr s) (s.beginInstr op (opcodeEntry op).cycles)

/-- One clock tick: count down, or start an instruction (R131, R132). -/
def tick (s : State) : Result :=
  if s.cyclesLeft = 0 then startInstr s else .next { s with cyclesLeft := s.cyclesLeft - 1 }

/-- `PC` takes the override first, on every Step (R133, D27). -/
def State.overridePC (s : State) : Option Addr → State
  | none => s
  | some a => { s with pc := a }

/-- The host operation `step(pc_override?)` (R132, R133). -/
def stepWith (pcOverride : Option Addr) (s : State) : Result := tick (s.overridePC pcOverride)

/-- `InstrStep`: the Step that starts an instruction, followed by setting `CyclesLeft` to 0 (R146). -/
def instrStep (s : State) : Result :=
  match startInstr s with
  | .next t => .next { t with cyclesLeft := 0 }
  | .fault f => .fault f
  | .refused r => .refused r

/-- The state with the bytes of a table word at `PC`, by raw pokes, and ready to start the instruction there: no countdown
running and no interrupt request latched (log 18). -/
def State.placeTableWord (s : State) (nbits w : Nat) : State :=
  { s with bus := s.bus.load s.pc (tableWordBytes nbits w), cyclesLeft := 0, irqPending := false }

end Sys2Proof.Machine
end

