-- ==== Sys2Proof/Machine/Step.lean ====
section
/-! DEFINITION. One step of the machine: the host operation `step()` with no override (spec/42_dispatcher_cycles.md R132). -/

namespace Sys2Proof.Machine

/-- One call of `step()`, which is one clock tick (R131; log 12). -/
def step (s : State) : Host.Outcome State Fault Refusal := stepWith none s

/-- The state in which the very next step fetches and runs the instruction of the table word `w` (log 18). -/
def State.withFetchWord (s : State) (nbits w : Nat) : State := s.placeTableWord nbits w

end Sys2Proof.Machine
end

