-- ==== Sys2Proof/Machine/HostOps.lean ====
section
/-! DEFINITION. The operations of the block beside `step` (spec/42_dispatcher_cycles.md R130, R139 to R142,
spec/70_reset_and_hazards.md R281, spec/30_encoding.md R81), what the host may do to the environment between Steps
(spec/20_memory.md R41, R45, R46), and a run under a schedule (spec/93_implementation_defined.md U13). -/

namespace Sys2Proof.Machine

/-! ## The register record -/

/-- The snapshot: every register of R10 and R20. `ExitAtLastRTS` is not part of it (R27, R139). -/
structure Snapshot where
  a : Byte
  x : Byte
  y : Byte
  sp : Byte
  pc : Addr
  p : Byte
  cyclesLeft : Nat
  lastOpCode : Byte
  lastAddrMode : AddrMode
  lastArg : Addr
  pageBoundary : Bool
  softIrq : Bool
  lastRTS : Bool
  irqPending : Bool
deriving DecidableEq, Repr

/-- `get_registers()` (R139). -/
def getRegisters (s : State) : Snapshot where
  a := s.a
  x := s.x
  y := s.y
  sp := s.sp
  pc := s.pc
  p := s.p
  cyclesLeft := s.cyclesLeft
  lastOpCode := s.lastOpCode
  lastAddrMode := s.lastAddrMode
  lastArg := s.lastArg
  pageBoundary := s.pageBoundary
  softIrq := s.softIrq
  lastRTS := s.lastRTS
  irqPending := s.irqPending

/-- `set_registers(r)`: overwrite every field of the snapshot, with no check (R140). -/
def setRegisters (r : Snapshot) (s : State) : State :=
  { s with
    a := r.a
    x := r.x
    y := r.y
    sp := r.sp
    pc := r.pc
    p := r.p
    cyclesLeft := r.cyclesLeft
    lastOpCode := r.lastOpCode
    lastAddrMode := r.lastAddrMode
    lastArg := r.lastArg
    pageBoundary := r.pageBoundary
    softIrq := r.softIrq
    lastRTS := r.lastRTS
    irqPending := r.irqPending }

/-! ## Reset, interrupt request, the RTS mode -/

/-- `reset()`: `PC` from the reset vector by the raw path, `P.I` set, `ExitAtLastRTS` cleared, nothing else (R281, D24). -/
def resetOp (s : State) : State :=
  { s with pc := memFetch16 s Config.vecReset, p := putFlag s.p .i true, exitAtLastRTS := false }

/-- `request_interrupt()` (R141). -/
def requestInterrupt (s : State) : State := { s with irqPending := true }

/-- `set_exit_at_last_rts(b)` (R142). -/
def setExitAtLastRts (b : Bool) (s : State) : State := { s with exitAtLastRTS := b }

/-! ## The environment -/

/-- A raw poke by the host between Steps: no ROM guard, no device (R41, R45). -/
def hostPoke (a : Addr) (v : Byte) (s : State) : State := { s with bus := s.bus.poke a v }

/-- Load an image: raw pokes of consecutive bytes (R41). -/
def loadImage (a : Addr) (bytes : List Byte) (s : State) : State := { s with bus := s.bus.load a bytes }

/-- Set the ROM window (R45, U7). -/
def setRom (r : RomWindow) (s : State) : State := { s with bus := { s.bus with rom := r } }

/-- Configure the devices and their state; the map has no overlap by construction (R46, R48, U1). -/
def setDevices (m : DeviceMap) (env : List Nat) (s : State) : State := { s with bus := { s.bus with devices := m, devEnv := env } }

/-! ## Disassembly -/

/-- What `decode(a)` returns (R81). -/
structure Disassembly where
  mnemonic : String
  mode : AddrMode
  arg : Addr
  target : Option Addr
  next : Addr
deriving DecidableEq, Repr

/-- `decode(a)`: a pure function of the memory image, through the raw path (R81). -/
def decodeAt (s : State) (a : Addr) : Disassembly :=
  let e := opcodeEntry (memFetch s a)
  let arg : Addr :=
    match e.mode.length with
    | 1 => 0
    | 2 => zext16 (memFetch s (a + 1))
    | _ => join (memFetch s (a + 2)) (memFetch s (a + 1))
  { mnemonic := e.mnemonic
    mode := e.mode
    arg := arg
    target := if e.mode = .rel then some (a + 2 + sext16 (lo arg)) else none
    next := a + BitVec.ofNat 16 e.mode.length }

/-- A hexadecimal digit, capital letters. -/
def hexDigit (n : Nat) : Char := ['0', '1', '2', '3', '4', '5', '6', '7', '8', '9', 'A', 'B', 'C', 'D', 'E', 'F'].getD n '0'

/-- Two hexadecimal digits. -/
def hexByte (b : Byte) : String := String.ofList [hexDigit (b.toNat / 16), hexDigit (b.toNat % 16)]

/-- Four hexadecimal digits. -/
def hexWord (w : Addr) : String := hexByte (hi w) ++ hexByte (lo w)

/-- The operand in the syntax of R80 (log 17). -/
def Disassembly.operandText (d : Disassembly) : String :=
  match d.mode with
  | .imp => ""
  | .acc => " A"
  | .imm => " #$" ++ hexByte (lo d.arg)
  | .zpg => " $" ++ hexByte (lo d.arg)
  | .zpx => " $" ++ hexByte (lo d.arg) ++ ",X"
  | .zpy => " $" ++ hexByte (lo d.arg) ++ ",Y"
  | .abs => " $" ++ hexWord d.arg
  | .abx => " $" ++ hexWord d.arg ++ ",X"
  | .aby => " $" ++ hexWord d.arg ++ ",Y"
  | .ind => " ($" ++ hexWord d.arg ++ ")"
  | .izx => " ($" ++ hexByte (lo d.arg) ++ ",X)"
  | .izy => " ($" ++ hexByte (lo d.arg) ++ "),Y"
  | .rel => " $" ++ hexWord (d.target.getD 0)

/-- `disassemble(addr) -> (mnemonic text, next address)` (R81; the spelling: log 17). -/
def disassemble (s : State) (a : Addr) : String × Addr :=
  let d := decodeAt s a
  (d.mnemonic ++ d.operandText, d.next)

/-! ## Runs -/

/-- One action of the host: an operation of R130 that changes the block, or a change of the environment between Steps.
`get_registers` and `disassemble` change nothing and need no place in a schedule. -/
inductive HostOp where
  | step (pcOverride : Option Addr)
  | setRegisters (r : Snapshot)
  | reset
  | requestInterrupt
  | setExitAtLastRts (b : Bool)
  | poke (a : Addr) (v : Byte)
  | setRom (r : RomWindow)
  | setDevices (m : DeviceMap) (env : List Nat)
deriving DecidableEq, Repr

/-- The effect of one action of the host; each is atomic (R130, R144). -/
def hostAct : HostOp → State → Result
  | .step pcOverride, s => stepWith pcOverride s
  | .setRegisters r, s => .next (setRegisters r s)
  | .reset, s => .next (resetOp s)
  | .requestInterrupt, s => .next (requestInterrupt s)
  | .setExitAtLastRts b, s => .next (setExitAtLastRts b s)
  | .poke a v, s => .next (hostPoke a v s)
  | .setRom r, s => .next (setRom r s)
  | .setDevices m env, s => .next (setDevices m env s)

/-- A run: the host's actions in order, until the schedule ends or the state an action leaves meets the stop predicate
(R289, D30, U13). -/
def runSchedule (stop : State → Bool) : List HostOp → State → Result
  | [], s => .next s
  | op :: ops, s =>
    match hostAct op s with
    | .next t => if stop t then .next t else runSchedule stop ops t
    | .fault f => .fault f
    | .refused r => .refused r

end Sys2Proof.Machine
end

