-- ==== Sys2Proof/Safety.lean ====
section
/-! DEFINITION. What a safe state and a safe run are, in the terms the statements use. -/

namespace Sys2Proof.Machine

/-- The invariant every step keeps: memory in its canonical form, and the countdown within the bound of
spec/10_state.md R21 ("`0 <= CyclesLeft <= 6` in every state reached by execution from a state that satisfies the same bound"). -/
structure State.Inv (s : State) : Prop where
  memWf : s.bus.mem.wf = true
  countdown : s.cyclesLeft ≤ 6

/-- The reference environment of spec/20_memory.md R46 as far as devices go: no active device owns any address. -/
def State.NoDevice (s : State) : Prop := ∀ a, s.bus.devices.owner a = none

/-- The state is at an instruction boundary with no unmasked interrupt request: the next Step fetches at `PC` (R132, R258). -/
def State.ReadyToFetch (s : State) : Prop := s.cyclesLeft = 0 ∧ (s.irqPending = false ∨ s.flag .i = true)

/-- A run is safe when it ends in a state: no fault and no refusal (spec/42_dispatcher_cycles.md R145). -/
def Completes (r : Result) : Prop := ∃ t, r = .next t

end Sys2Proof.Machine
end

