-- ==== Sys2Proof/Certificates/Slice0/Obligations.lean ====
section
/-! DEFINITION. The statements for the provers, one `def Obligations.<Name> : Prop` each, and before them the words they are
written in: the spec's formulas over numbers and bits, written from spec/ and not from the model's own operations. -/

namespace Sys2Proof.Claims

open Sys2Proof.Machine

/-! ## Words -/

/-- The status byte `p'` is `p` with each listed bit (number, value) replaced and EVERY other bit kept. With the bit numbers of
spec/10_state.md R15: N 7, V 6, D 3, I 2, Z 1, C 0. -/
def Writes (p p' : Byte) (bits : List (Nat × Bool)) : Prop :=
  (∀ kv ∈ bits, p'.getLsbD kv.1 = kv.2) ∧ ∀ k, (∀ kv ∈ bits, kv.1 ≠ k) → p'.getLsbD k = p.getLsbD k

/-- The bits `SetNZ(v)` writes (R111). -/
def nz (v : Byte) : List (Nat × Bool) := [(7, v.getLsbD 7), (1, decide (v = 0))]

/-- What `resolve(IMP)` leaves: nothing but the record of the mode (R92). -/
def implied (s : State) : State := { s with lastAddrMode := .imp, lastArg := 0, pageBoundary := false }

/-- The stack address `0x0100 + SP` (R13). -/
def stackAt (sp : Byte) : Addr := BitVec.ofNat 16 (256 + sp.toNat)

/-- The two bytes of an address, as numbers (R5). -/
def lowOf (w : Addr) : Byte := BitVec.ofNat 8 w.toNat

/-- The high byte of an address (R5). -/
def highOf (w : Addr) : Byte := BitVec.ofNat 8 (w.toNat / 256)

/-- The little-endian word of two bytes (R51). -/
def wordOf (low high : Byte) : Addr := BitVec.ofNat 16 (low.toNat + 256 * high.toNat)

/-! ## Effective addresses (the table of spec/40_addressing_modes.md R105) -/

/-- `[p]16`: the little-endian word two Data reads give, low byte first, and the bus after them. -/
def pointerAt (b : Bus) (p : Nat) : Nat × Bus :=
  let l := b.read (BitVec.ofNat 16 p)
  let h := l.2.read (BitVec.ofNat 16 (p + 1))
  (l.1.toNat + 256 * h.1.toNat, h.2)

/-- What a resolution yields: the effective address, `PageBoundary`, and the bus after the pointer reads. -/
structure Resolution where
  ea : Addr
  crossed : Bool
  bus : Bus

/-- `base + index` modulo 65536, and whether its page differs from the base's (R91). -/
def indexed (base index : Nat) (b : Bus) : Resolution :=
  ⟨BitVec.ofNat 16 (base + index), decide (base / 256 ≠ (base + index) % 65536 / 256), b⟩

/-- The rows of R105 for the memory modes. -/
def resolution (m : MemOperand) (s : State) : Resolution :=
  match m with
  | .zpg b => ⟨BitVec.ofNat 16 b.toNat, false, s.bus⟩
  | .zpx b => ⟨BitVec.ofNat 16 ((b.toNat + s.x.toNat) % 256), false, s.bus⟩
  | .zpy b => ⟨BitVec.ofNat 16 ((b.toNat + s.y.toNat) % 256), false, s.bus⟩
  | .abs w => ⟨w, false, s.bus⟩
  | .abx w => indexed w.toNat s.x.toNat s.bus
  | .aby w => indexed w.toNat s.y.toNat s.bus
  | .izx b =>
    let p := pointerAt s.bus ((b.toNat + s.x.toNat) % 256)
    ⟨BitVec.ofNat 16 p.1, false, p.2⟩
  | .izy b =>
    let p := pointerAt s.bus b.toNat
    indexed p.1 s.y.toNat p.2

/-- The raw operand `LastArg` records (R22). -/
def rawArg : MemOperand → Addr
  | .zpg b => BitVec.ofNat 16 b.toNat
  | .zpx b => BitVec.ofNat 16 b.toNat
  | .zpy b => BitVec.ofNat 16 b.toNat
  | .abs w => w
  | .abx w => w
  | .aby w => w
  | .izx b => BitVec.ofNat 16 b.toNat
  | .izy b => BitVec.ofNat 16 b.toNat

/-- The number of operand bytes of a memory mode (R105). -/
def operandBytes : MemOperand → Nat
  | .zpg _ => 1
  | .zpx _ => 1
  | .zpy _ => 1
  | .abs _ => 2
  | .abx _ => 2
  | .aby _ => 2
  | .izx _ => 1
  | .izy _ => 1

/-- The state after `resolve(mode)` of a memory operand: only `PC`, the three recording fields and the bus (R90). -/
def resolvedState (m : MemOperand) (s : State) : State :=
  { s with
    pc := s.pc + BitVec.ofNat 16 (operandBytes m)
    lastAddrMode := m.mode
    lastArg := rawArg m
    pageBoundary := (resolution m s).crossed
    bus := (resolution m s).bus }

/-- The operand byte of a reading instruction and the state after it is read, with the page-crossing penalty (R147, R135). -/
def operand : ReadOperand → State → Byte × State
  | .imm b, s =>
    (b, { s with pc := s.pc + 1, lastAddrMode := .imm, lastArg := BitVec.ofNat 16 b.toNat, pageBoundary := false })
  | .mem m, s =>
    let r := resolution m s
    let v := r.bus.read r.ea
    (v.1, { resolvedState m s with cyclesLeft := s.cyclesLeft + (if r.crossed then 1 else 0), bus := v.2 })

/-- The operand byte of a read-modify-write instruction and the state after `f` of it is written back: one read, one write at
the same address, no penalty (R148). -/
def modified (o : ModifyOperand) (f : Byte → Byte) (s : State) : Byte × State :=
  match o with
  | .acc => (s.a, { s with a := f s.a, lastAddrMode := .acc, lastArg := 0, pageBoundary := false })
  | .mem m =>
    let r := resolution m s
    let v := r.bus.read r.ea
    (v.1, { resolvedState m s with bus := v.2.write r.ea (f v.1) })

/-! ## Encodings -/

/-- A group 1 row of spec/30_encoding.md R77 in bytes: columns IMM, ZPG, ZPX, ABS, ABX, ABY, IZX, IZY. -/
def EncodesGroup1 (f : ReadOperand → Instr) (imm zpg zpx abs abx aby izx izy : Byte) : Prop :=
  ∀ b w, encode (f (.imm b)) = some [imm, b] ∧ encode (f (.mem (.zpg b))) = some [zpg, b] ∧
    encode (f (.mem (.zpx b))) = some [zpx, b] ∧ encode (f (.mem (.abs w))) = some [abs, lowOf w, highOf w] ∧
    encode (f (.mem (.abx w))) = some [abx, lowOf w, highOf w] ∧ encode (f (.mem (.aby w))) = some [aby, lowOf w, highOf w] ∧
    encode (f (.mem (.izx b))) = some [izx, b] ∧ encode (f (.mem (.izy b))) = some [izy, b]

/-- The memory columns of a group 2 row of R77 in bytes: ZPG, ZPX, ABS, ABX. -/
def EncodesModify (f : MemOperand → Instr) (zpg zpx abs abx : Byte) : Prop :=
  ∀ b w, encode (f (.zpg b)) = some [zpg, b] ∧ encode (f (.zpx b)) = some [zpx, b] ∧
    encode (f (.abs w)) = some [abs, lowOf w, highOf w] ∧ encode (f (.abx w)) = some [abx, lowOf w, highOf w]

/-! ## Whole-machine lists -/

/-- R287's summary of base costs by instruction shape: reading instructions in memory. -/
def readMemCost : MemOperand → Nat
  | .zpg _ => 3
  | .zpx _ => 4
  | .zpy _ => 4
  | .abs _ => 4
  | .abx _ => 4
  | .aby _ => 4
  | .izx _ => 6
  | .izy _ => 5

/-- R287: reading instructions. -/
def readCost : ReadOperand → Nat
  | .imm _ => 2
  | .mem m => readMemCost m

/-- R287: stores. -/
def storeCost : MemOperand → Nat
  | .zpg _ => 3
  | .zpx _ => 4
  | .zpy _ => 4
  | .abs _ => 4
  | .abx _ => 5
  | .aby _ => 5
  | .izx _ => 6
  | .izy _ => 6

/-- R287: read-modify-write instructions in memory, in the modes they have. -/
def modifyMemCost : MemOperand → Nat
  | .zpg _ => 5
  | .zpx _ => 6
  | .zpy _ => 6
  | .abs _ => 6
  | .abx _ => 7
  | .aby _ => 7
  | .izx _ => 7
  | .izy _ => 7

/-- R287: read-modify-write instructions. -/
def modifyCost : ModifyOperand → Nat
  | .acc => 2
  | .mem m => modifyMemCost m

/-- R287: JMP. -/
def jumpCost : JumpOperand → Nat
  | .abs _ => 3
  | .ind _ => 5

/-- R287: the base cost of an instruction by its shape. -/
def summaryCost : Instr → Nat
  | .lda o => readCost o
  | .ldx o => readCost o
  | .ldy o => readCost o
  | .sta m => storeCost m
  | .stx m => storeCost m
  | .sty m => storeCost m
  | .tax => 2
  | .tay => 2
  | .txa => 2
  | .tya => 2
  | .tsx => 2
  | .txs => 2
  | .adc o => readCost o
  | .sbc o => readCost o
  | .and o => readCost o
  | .ora o => readCost o
  | .eor o => readCost o
  | .cmp o => readCost o
  | .cpx o => readCost o
  | .cpy o => readCost o
  | .bit m => readMemCost m
  | .inc m => modifyMemCost m
  | .dec m => modifyMemCost m
  | .inx => 2
  | .iny => 2
  | .dex => 2
  | .dey => 2
  | .asl o => modifyCost o
  | .lsr o => modifyCost o
  | .rol o => modifyCost o
  | .ror o => modifyCost o
  | .bcc _ => 2
  | .bcs _ => 2
  | .beq _ => 2
  | .bne _ => 2
  | .bmi _ => 2
  | .bpl _ => 2
  | .bvc _ => 2
  | .bvs _ => 2
  | .jmp o => jumpCost o
  | .jsr _ => 6
  | .rts => 6
  | .pha => 3
  | .pla => 4
  | .php => 3
  | .plp => 4
  | .clc => 2
  | .sec => 2
  | .cli => 2
  | .sei => 2
  | .cld => 2
  | .sed => 2
  | .clv => 2
  | .nop => 2
  | .brk => 7
  | .rti => 6
  | .ill _ => 0

/-- Is the instruction a conditional branch, and then its condition in a state (R200 to R207). -/
def branchTaken : Instr → State → Option (Byte × Bool)
  | .bcc d, s => some (d, !s.p.getLsbD 0)
  | .bcs d, s => some (d, s.p.getLsbD 0)
  | .bne d, s => some (d, !s.p.getLsbD 1)
  | .beq d, s => some (d, s.p.getLsbD 1)
  | .bpl d, s => some (d, !s.p.getLsbD 7)
  | .bmi d, s => some (d, s.p.getLsbD 7)
  | .bvc d, s => some (d, !s.p.getLsbD 6)
  | .bvs d, s => some (d, s.p.getLsbD 6)
  | _, _ => none

/-- The target of a branch whose displacement byte stands at `operandAddr`: the address following the instruction plus the
signed displacement, modulo 65536 (R103, R211). -/
def branchTarget (d : Byte) (operandAddr : Addr) : Addr := BitVec.ofInt 16 ((operandAddr.toNat : Int) + 1 + d.toInt)

/-- Does the branch cross a page: the opcode's page and the target's differ (R103, D7). -/
def branchCrosses (d : Byte) (operandAddr : Addr) : Bool :=
  decide ((operandAddr.toNat + 65535) % 65536 / 256 ≠ (branchTarget d operandAddr).toNat / 256)

/-- The operand of the nine mnemonics that pay the page-crossing penalty (R135). -/
def penaltyOperand : Instr → Option ReadOperand
  | .adc o => some o
  | .and o => some o
  | .cmp o => some o
  | .eor o => some o
  | .lda o => some o
  | .ldx o => some o
  | .ldy o => some o
  | .ora o => some o
  | .sbc o => some o
  | _ => none

/-- The opcodes that can pay the page-crossing penalty, as R135 lists them by value: 23, where its text counts 24 (log 20). -/
def penaltyOpcodes : List Byte :=
  [0x1D, 0x19, 0x11, 0x3D, 0x39, 0x31, 0x5D, 0x59, 0x51, 0x7D, 0x79, 0x71] ++
  [0xBD, 0xB9, 0xB1, 0xDD, 0xD9, 0xD1, 0xFD, 0xF9, 0xF1, 0xBE, 0xBC]

/-- The cycles an instruction adds to its base cost (R135, R136). -/
def penalty (i : Instr) (s : State) : Nat :=
  match penaltyOperand i, branchTaken i s with
  | some (.mem m), _ => if (resolution m s).crossed then 1 else 0
  | _, some (d, true) => if branchCrosses d s.pc then 2 else 1
  | _, _ => 0

/-- PLP and RTI replace all eight bits of `P` (R17, R18, R223, R233). -/
def restoresStatus : Instr → Bool
  | .plp => true
  | .rti => true
  | _ => false

/-- The writers of N and Z in R16. -/
def writesNZ : Instr → Bool
  | .lda _ => true
  | .ldx _ => true
  | .ldy _ => true
  | .tax => true
  | .tay => true
  | .txa => true
  | .tya => true
  | .tsx => true
  | .pla => true
  | .and _ => true
  | .ora _ => true
  | .eor _ => true
  | .inc _ => true
  | .dec _ => true
  | .inx => true
  | .iny => true
  | .dex => true
  | .dey => true
  | .asl _ => true
  | .lsr _ => true
  | .rol _ => true
  | .ror _ => true
  | .adc _ => true
  | .sbc _ => true
  | .cmp _ => true
  | .cpx _ => true
  | .cpy _ => true
  | .bit _ => true
  | _ => false

/-- The writers of V in R16. -/
def writesV : Instr → Bool
  | .adc _ => true
  | .sbc _ => true
  | .bit _ => true
  | .clv => true
  | _ => false

/-- The writers of D in R16. -/
def writesD : Instr → Bool
  | .sed => true
  | .cld => true
  | _ => false

/-- The writers of I in R16. -/
def writesI : Instr → Bool
  | .sei => true
  | .cli => true
  | .brk => true
  | _ => false

/-- The writers of C in R16. -/
def writesC : Instr → Bool
  | .adc _ => true
  | .sbc _ => true
  | .cmp _ => true
  | .cpx _ => true
  | .cpy _ => true
  | .asl _ => true
  | .lsr _ => true
  | .rol _ => true
  | .ror _ => true
  | .sec => true
  | .clc => true
  | _ => false

/-- Which instructions write a flag: the table of spec/10_state.md R16, and PLP and RTI alone for the two storage bits (R17,
R18). -/
def writesFlag (f : Flag) (i : Instr) : Bool :=
  restoresStatus i ||
    match f with
    | .n => writesNZ i
    | .z => writesNZ i
    | .v => writesV i
    | .d => writesD i
    | .i => writesI i
    | .c => writesC i
    | .u => false
    | .b => false

/-- The writers of `A` (R11). -/
def writesA : Instr → Bool
  | .lda _ => true
  | .pla => true
  | .txa => true
  | .tya => true
  | .adc _ => true
  | .sbc _ => true
  | .and _ => true
  | .ora _ => true
  | .eor _ => true
  | .asl o => o == .acc
  | .lsr o => o == .acc
  | .rol o => o == .acc
  | .ror o => o == .acc
  | _ => false

/-- The writers of `X` (R12). -/
def writesX : Instr → Bool
  | .ldx _ => true
  | .tax => true
  | .tsx => true
  | .inx => true
  | .dex => true
  | _ => false

/-- The writers of `Y` (R12). -/
def writesY : Instr → Bool
  | .ldy _ => true
  | .tay => true
  | .iny => true
  | .dey => true
  | _ => false

/-- The instructions that write `SP` (R13). -/
def writesSP : Instr → Bool
  | .lda _ => false
  | .ldx _ => false
  | .ldy _ => false
  | .sta _ => false
  | .stx _ => false
  | .sty _ => false
  | .tax => false
  | .tay => false
  | .txa => false
  | .tya => false
  | .tsx => false
  | .txs => true
  | .adc _ => false
  | .sbc _ => false
  | .and _ => false
  | .ora _ => false
  | .eor _ => false
  | .cmp _ => false
  | .cpx _ => false
  | .cpy _ => false
  | .bit _ => false
  | .inc _ => false
  | .dec _ => false
  | .inx => false
  | .iny => false
  | .dex => false
  | .dey => false
  | .asl _ => false
  | .lsr _ => false
  | .rol _ => false
  | .ror _ => false
  | .bcc _ => false
  | .bcs _ => false
  | .beq _ => false
  | .bne _ => false
  | .bmi _ => false
  | .bpl _ => false
  | .bvc _ => false
  | .bvs _ => false
  | .jmp _ => false
  | .jsr _ => true
  | .rts => true
  | .pha => true
  | .pla => true
  | .php => true
  | .plp => true
  | .clc => false
  | .sec => false
  | .cli => false
  | .sei => false
  | .cld => false
  | .sed => false
  | .clv => false
  | .nop => false
  | .brk => true
  | .rti => true
  | .ill _ => false

/-- The instructions that overwrite `PC` (R14): the branches, JMP, JSR, RTS, RTI, BRK. -/
def writesPC : Instr → Bool
  | .lda _ => false
  | .ldx _ => false
  | .ldy _ => false
  | .sta _ => false
  | .stx _ => false
  | .sty _ => false
  | .tax => false
  | .tay => false
  | .txa => false
  | .tya => false
  | .tsx => false
  | .txs => false
  | .adc _ => false
  | .sbc _ => false
  | .and _ => false
  | .ora _ => false
  | .eor _ => false
  | .cmp _ => false
  | .cpx _ => false
  | .cpy _ => false
  | .bit _ => false
  | .inc _ => false
  | .dec _ => false
  | .inx => false
  | .iny => false
  | .dex => false
  | .dey => false
  | .asl _ => false
  | .lsr _ => false
  | .rol _ => false
  | .ror _ => false
  | .bcc _ => true
  | .bcs _ => true
  | .beq _ => true
  | .bne _ => true
  | .bmi _ => true
  | .bpl _ => true
  | .bvc _ => true
  | .bvs _ => true
  | .jmp _ => true
  | .jsr _ => true
  | .rts => true
  | .pha => false
  | .pla => false
  | .php => false
  | .plp => false
  | .clc => false
  | .sec => false
  | .cli => false
  | .sei => false
  | .cld => false
  | .sed => false
  | .clv => false
  | .nop => false
  | .brk => true
  | .rti => true
  | .ill _ => false

/-- The address a read-modify-write stores to: none in mode ACC. -/
def modifiedAddresses (o : ModifyOperand) (s : State) : List Addr :=
  match o with
  | .acc => []
  | .mem m => [(resolution m s).ea]

/-- The addresses an instruction stores to: a store's or a read-modify-write's effective address, the stack bytes of a push,
of JSR and of BRK, and none for every other form. -/
def storedAddresses (i : Instr) (s : State) : List Addr :=
  match i with
  | .lda _ => []
  | .ldx _ => []
  | .ldy _ => []
  | .sta m => [(resolution m s).ea]
  | .stx m => [(resolution m s).ea]
  | .sty m => [(resolution m s).ea]
  | .tax => []
  | .tay => []
  | .txa => []
  | .tya => []
  | .tsx => []
  | .txs => []
  | .adc _ => []
  | .sbc _ => []
  | .and _ => []
  | .ora _ => []
  | .eor _ => []
  | .cmp _ => []
  | .cpx _ => []
  | .cpy _ => []
  | .bit _ => []
  | .inc m => [(resolution m s).ea]
  | .dec m => [(resolution m s).ea]
  | .inx => []
  | .iny => []
  | .dex => []
  | .dey => []
  | .asl o => modifiedAddresses o s
  | .lsr o => modifiedAddresses o s
  | .rol o => modifiedAddresses o s
  | .ror o => modifiedAddresses o s
  | .bcc _ => []
  | .bcs _ => []
  | .beq _ => []
  | .bne _ => []
  | .bmi _ => []
  | .bpl _ => []
  | .bvc _ => []
  | .bvs _ => []
  | .jmp _ => []
  | .jsr _ => [stackAt s.sp, stackAt (s.sp - 1)]
  | .rts => []
  | .pha => [stackAt s.sp]
  | .pla => []
  | .php => [stackAt s.sp]
  | .plp => []
  | .clc => []
  | .sec => []
  | .cli => []
  | .sei => []
  | .cld => []
  | .sed => []
  | .clv => []
  | .nop => []
  | .brk => [stackAt s.sp, stackAt (s.sp - 1), stackAt (s.sp - 2)]
  | .rti => []
  | .ill _ => []

/-- Two states with the same registers a program can read, the same countdown and request latch, the same RTS mode and the
same bus; they may differ in `LastOpCode`, `LastAddrMode`, `LastArg`, `PageBoundary`, `SoftIrq` and `LastRTS`. -/
def SameProgramView (s t : State) : Prop :=
  s.a = t.a ∧ s.x = t.x ∧ s.y = t.y ∧ s.sp = t.sp ∧ s.pc = t.pc ∧ s.p = t.p ∧ s.cyclesLeft = t.cyclesLeft ∧
    s.irqPending = t.irqPending ∧ s.exitAtLastRTS = t.exitAtLastRTS ∧ s.bus = t.bus

/-- A two-digit number in packed BCD (spec/41_alu_flags.md R113). -/
def bcd (n : Nat) : Byte := BitVec.ofNat 8 (n / 10 * 16 + n % 10)

/-- `adc_dec(a, m, c)` written out line by line (R113). -/
def decimalAdd (a m : Byte) (c : Bool) : AddResult :=
  let al := (a.toNat &&& 0x0F) + (m.toNat &&& 0x0F) + c.toNat
  let al := if 9 < al then al + 6 else al
  let ah := (a.toNat >>> 4) + (m.toNat >>> 4) + (if 0x0F < al then 1 else 0)
  let high := if 9 < ah then ah + 6 else ah
  { r := BitVec.ofNat 8 ((high <<< 4) ||| (al &&& 0x0F))
    c := decide (0x0F < high)
    v := (((ah <<< 4) ^^^ a.toNat) &&& 0x80) != 0 && ((a.toNat ^^^ m.toNat) &&& 0x80) == 0
    z := (a.toNat + m.toNat + c.toNat) % 256 == 0
    n := ((ah <<< 4) &&& 0x80) != 0 }

/-- The result byte of `sbc_dec(a, m, c)` written out line by line (R115). -/
def decimalDifference (a m : Byte) (c : Bool) : Byte :=
  let al : Int := (a.toNat &&& 0x0F : Nat) - (m.toNat &&& 0x0F : Nat) - (1 - c.toNat)
  let ah : Int := (a.toNat >>> 4 : Nat) - (m.toNat >>> 4 : Nat)
  let low := if al < 0 then al - 6 else al
  let ah := if al < 0 then ah - 1 else ah
  let ah := if ah < 0 then ah - 6 else ah
  BitVec.ofNat 8 (((ah % 16).toNat <<< 4) ||| (low % 16).toNat)

end Sys2Proof.Claims

open Sys2Proof Sys2Proof.Machine Sys2Proof.Claims

/-! ## Encoding -/

/-- Decoding the bytes of a well-formed instruction gives it back, whatever bytes follow (spec/30_encoding.md, sections 1
to 3), and a term that is not well-formed (a blank cell of R77, an ILL value outside R78) has no encoding. -/
def Obligations.EncodeThenDecode : Prop :=
  ∀ i : Instr, (i.WellFormed → ∃ bytes, encode i = some bytes ∧ ∀ rest, decode (bytes ++ rest) = .ok (i, rest)) ∧
    (¬i.WellFormed → encode i = none)

/-- Whatever three bytes stand at an address, the instruction read from them is a row of the table, and its encoding is the
bytes it occupies: no bit is dropped or invented (R70 to R73, R75). -/
def Obligations.DecodeThenEncode : Prop :=
  ∀ b0 b1 b2 : Byte, (decodeBytes b0 b1 b2).WellFormed ∧
    encode (decodeBytes b0 b1 b2) = some ([b0, b1, b2].take (decodeBytes b0 b1 b2).mode.length)

/-- The 105 values of R78 and no others decode to an illegal opcode, and their entries are IMP, cost 0, ILL. The set and the
entries are the spec's own decisions D15 and D16. -/
def Obligations.IllegalOpcodesAreTheListed105 : Prop :=
  (∀ op b1 b2 : Byte, decodeBytes op b1 b2 = .ill op ↔ op ∈ illegalOpcodes) ∧
  (∀ op ∈ illegalOpcodes, (opcodeEntry op).mode = .imp ∧ (opcodeEntry op).cycles = 0 ∧ (opcodeEntry op).mnemonic = "ILL") ∧
  illegalOpcodes.length = 105 ∧ illegalOpcodes.Nodup

/-- A few words written out bit by bit from the spec's encodings decode to the instruction they stand for (R80's examples). -/
def Obligations.WrittenWordsDecode : Prop :=
  decode [0b00011000] = .ok (.clc, []) ∧
  decode [0b00001010] = .ok (.asl .acc, []) ∧
  decode [0b10101001, 0b01000010] = .ok (.lda (.imm 0x42), []) ∧
  decode [0b10100101, 0b00010000] = .ok (.lda (.mem (.zpg 0x10)), []) ∧
  decode [0b10110101, 0b00010000] = .ok (.lda (.mem (.zpx 0x10)), []) ∧
  decode [0b10110110, 0b00010000] = .ok (.ldx (.mem (.zpy 0x10)), []) ∧
  decode [0b10101101, 0b00110100, 0b00010010] = .ok (.lda (.mem (.abs 0x1234)), []) ∧
  decode [0b10111101, 0b11111111, 0b00010010] = .ok (.lda (.mem (.abx 0x12FF)), []) ∧
  decode [0b10111001, 0b00110100, 0b00010010] = .ok (.lda (.mem (.aby 0x1234)), []) ∧
  decode [0b01101100, 0b00110100, 0b00010010] = .ok (.jmp (.ind 0x1234), []) ∧
  decode [0b10100001, 0b00010000] = .ok (.lda (.mem (.izx 0x10)), []) ∧
  decode [0b10110001, 0b00010000] = .ok (.lda (.mem (.izy 0x10)), []) ∧
  decode [0b11010000, 0b00000101] = .ok (.bne 0x05, []) ∧
  decode [0b00000010] = .ok (.ill 0x02, [])

/-- The opcode table's mode is the instruction's, and its base cost is that of the summary by shape (R287) — two places of the
spec that must agree. The costs are the spec's own decision D9. -/
def Obligations.BaseCostsFollowTheSummary : Prop :=
  ∀ (i : Instr) (op : Byte), i.opcode = some op →
    (opcodeEntry op).mode = i.mode ∧ (opcodeEntry op).cycles = summaryCost i

/-! ## The bus and memory -/

/-- `MemRead` (R44): with a read handler behind the address the handler runs first, on the environment and array as they are,
and the byte answered is the one the array then stores; without an owner, or without a handler (R49), nothing changes. That
the handler runs before the array is read is the spec's own decision D3. The form of a handler is the model's choice (log 6),
and the fallthrough by direction is log 7. -/
def Obligations.DataReadRunsTheHandlerFirst : Prop :=
  ∀ (b : Bus) (a : Addr),
    (∀ d h, b.devices.owner a = some d → d.readHandler = some h →
      b.read a =
        (let out := Config.deviceRead h d.params b.devEnv b.mem a
         ((b.mem.pokes out.2).read a.toNat, { b with devEnv := out.1, mem := b.mem.pokes out.2 }))) ∧
    (∀ d, b.devices.owner a = some d → d.readHandler = none → b.read a = (b.mem.read a.toNat, b)) ∧
    (b.devices.owner a = none → b.read a = (b.mem.read a.toNat, b))

/-- `MemWrite` (R45): inside the active ROM window nothing happens; otherwise the array takes the byte, and then the owner's
write handler, if there is one, runs on the array that holds it. That the array takes the byte before the handler runs, and
that a guarded write runs no handler, are the spec's own decision D3. The form of a handler is the model's choice (log 6), and
the fallthrough by direction is log 7. -/
def Obligations.DataWriteGuardThenArrayThenHandler : Prop :=
  ∀ (b : Bus) (a : Addr) (v : Byte),
    (b.rom.enabled = true → b.rom.first.toNat ≤ a.toNat → a.toNat ≤ b.rom.last.toNat → b.write a v = b) ∧
    (¬(b.rom.enabled = true ∧ b.rom.first.toNat ≤ a.toNat ∧ a.toNat ≤ b.rom.last.toNat) →
      (b.devices.owner a = none → b.write a v = { b with mem := b.mem.write a.toNat v }) ∧
      (∀ d, b.devices.owner a = some d → d.writeHandler = none → b.write a v = { b with mem := b.mem.write a.toNat v }) ∧
      (∀ d h, b.devices.owner a = some d → d.writeHandler = some h →
        b.write a v =
          (let out := Config.deviceWrite h d.params b.devEnv (b.mem.write a.toNat v) a v
           { b with devEnv := out.1, mem := (b.mem.write a.toNat v).pokes out.2 })))

/-- A byte written where no device and no active ROM window stands is read back at once, by a data read and by a fetch (R57,
R59); every other address is as it was; the write changes the memory array alone and the read nothing; the memory stays
canonical (the model's representation, log 1). -/
def Obligations.StoredByteReadsBack : Prop :=
  ∀ (s : State) (a : Addr) (v : Byte), s.bus.mem.wf = true → s.bus.devices.owner a = none → s.bus.rom.guards a = false →
    let t := memWrite a v s
    memFetch t a = v ∧ memRead a t = (v, t) ∧ (∀ b, b ≠ a → memFetch t b = memFetch s b) ∧ t.bus.mem.wf = true ∧
    t = { s with bus := { s.bus with mem := t.bus.mem } }

/-- In every device map no address has two owners (R48): two registrations that own one address are the same place of the
list. That an overlapping map cannot be built is log 5. -/
def Obligations.NoAddressHasTwoOwners : Prop :=
  ∀ (m : DeviceMap) (i j : Nat) (hi : i < m.regs.length) (hj : j < m.regs.length) (a : Addr),
    (m.regs[i]).owns a = true → (m.regs[j]).owns a = true → i = j

/-- With no device, no step of any kind (an instruction, a push, an interrupt entry, a countdown) changes a byte of the active
ROM window (R45, R60), and the next state is again one in which this holds. A device handler may poke memory, so the statement
is about states without one (log 6). -/
def Obligations.RomWindowIsNeverWritten : Prop :=
  ∀ (s t : State) (a : Addr), s.NoDevice → s.bus.rom.guards a = true → step s = .next t →
    memFetch t a = memFetch s a ∧ t.NoDevice ∧ t.bus.rom.guards a = true

/-! ## Invariants -/

/-- Every step, from every state that meets it, keeps the invariant: canonical memory and the countdown bound of R21.
Canonical memory is the model's representation (log 1). -/
def Obligations.StepKeepsInvariant : Prop :=
  ∀ s t : State, s.Inv → step s = .next t → t.Inv

/-- The machine after reset meets the invariant, and so does the machine after power-on. What an unlisted address reads as,
and no device at reset, are the model's choices (log 1, log 6). -/
def Obligations.ResetMeetsInvariant : Prop :=
  State.reset.Inv ∧ State.powerOn.Inv ∧ State.reset.NoDevice

/-- Nothing fails (R145, R252, R271): every step, every operation of the host and every run under a schedule ends in a state. -/
def Obligations.EveryOperationCompletes : Prop :=
  (∀ s : State, ∃ t, step s = .next t) ∧ (∀ (op : HostOp) (s : State), Completes (hostAct op s)) ∧
  (∀ (stop : State → Bool) (ops : List HostOp) (s : State), Completes (runSchedule stop ops s))

/-- The block never changes the ROM window (U7), the device registrations, or `ExitAtLastRTS` (R27). That the registrations
stay even when a device handler runs is the model's choice (log 10, DEDUCED; log 6, DESIGN CHOICE). -/
def Obligations.StepsKeepTheConfiguration : Prop :=
  ∀ s t : State, step s = .next t →
    t.bus.rom = s.bus.rom ∧ t.bus.devices = s.bus.devices ∧ t.exitAtLastRTS = s.exitAtLastRTS

/-- Software cannot observe `LastOpCode`, `LastAddrMode`, `LastArg`, `PageBoundary`, `SoftIrq` and `LastRTS` (R20, R22, R24,
R25): two runs of any length from states that differ in these alone differ in these alone. `CyclesLeft`, `IrqPending` and
`ExitAtLastRTS` do influence a run (R30), so the two states agree on them. -/
def Obligations.LastFieldsPageBoundarySoftIrqLastRTSNeverInfluenceExecution : Prop :=
  ∀ (k : Nat) (s s' : State), SameProgramView s s' →
    ∃ t t' : State, Host.Core.run Sys2Proof.core k s = .next t ∧ Host.Core.run Sys2Proof.core k s' = .next t' ∧
      SameProgramView t t'

/-- An instruction start overwrites all of the previous instruction's record: what it was makes no difference to the next
state (R132, R90, D17). -/
def Obligations.InstructionStartForgetsTheRecord : Prop :=
  ∀ (s : State) (op : Byte) (md : AddrMode) (w : Addr) (pb si lr : Bool), s.cyclesLeft = 0 →
    step { s with lastOpCode := op, lastAddrMode := md, lastArg := w, pageBoundary := pb, softIrq := si, lastRTS := lr } =
      step s

/-- A flag changes only in the instructions R16 lists as its writers; the storage bits B and U only in PLP and RTI (R17, R18).
Plain storage is the spec's own decision D13. -/
def Obligations.FlagsChangeOnlyInTheirWriters : Prop :=
  ∀ (f : Flag) (i : Instr) (s t : State), writesFlag f i = false → exec i s = .next t → t.p.getLsbD f.bit = s.p.getLsbD f.bit

/-- `A`, `X`, `Y` and `SP` change only in the instructions R11, R12 and R13 list as their writers; no instruction changes
`LastOpCode`, `IrqPending` or `ExitAtLastRTS`. -/
def Obligations.RegistersChangeOnlyInTheirWriters : Prop :=
  ∀ (i : Instr) (s t : State), exec i s = .next t →
    (writesA i = false → t.a = s.a) ∧ (writesX i = false → t.x = s.x) ∧ (writesY i = false → t.y = s.y) ∧
    (writesSP i = false → t.sp = s.sp) ∧ t.lastOpCode = s.lastOpCode ∧ t.irqPending = s.irqPending ∧
    t.exitAtLastRTS = s.exitAtLastRTS

/-- An instruction that is no branch, jump, call, return or BRK leaves `PC` just past its own bytes (R14, R90): the opcode byte
was passed by the fetch, the operand bytes are passed by the resolver. -/
def Obligations.PcPassesTheOperandBytes : Prop :=
  ∀ (i : Instr) (s t : State), writesPC i = false → exec i s = .next t → t.pc.toNat = (s.pc.toNat + (i.mode.length - 1)) % 65536

/-- With no device, every byte of memory reads as before except the bytes the instruction stores to: its effective address for
a store or a read-modify-write, the stack bytes for a push, JSR and BRK, none for every other form. A device handler may poke
memory (log 6). -/
def Obligations.MemoryChangesOnlyWhereStored : Prop :=
  ∀ (i : Instr) (s t : State), s.NoDevice → exec i s = .next t →
    ∀ a, a ∉ storedAddresses i s → memFetch t a = memFetch s a

/-! ## The step -/

/-- While `CyclesLeft` is greater than 0 a step decrements it and does nothing else, whatever else is pending (R21, R258). -/
def Obligations.CountdownOnlyDecrements : Prop :=
  ∀ (s : State) (n : Nat), s.cyclesLeft = n + 1 → step s = .next { s with cyclesLeft := n }

/-- A step runs the decoded instruction (R132): at an instruction boundary with no unmasked request, when the bytes at `PC`
decode to `i`, the step is `exec i` in the state with the three status flags cleared, `PC` past the opcode byte, `LastOpCode`
the opcode byte and `CyclesLeft` the base cost less 1. The clearing is the spec's own decision D17. -/
def Obligations.StepRunsTheDecodedInstruction : Prop :=
  ∀ (s : State) (i : Instr) (rest : List Byte), s.cyclesLeft = 0 → (s.irqPending = false ∨ s.p.getLsbD 2 = true) →
    decode [memFetch s s.pc, memFetch s (s.pc + 1), memFetch s (s.pc + 2)] = .ok (i, rest) →
    step s = exec i { s with
      softIrq := false
      lastRTS := false
      pageBoundary := false
      pc := s.pc + 1
      lastOpCode := memFetch s s.pc
      cyclesLeft := (opcodeEntry (memFetch s s.pc)).cycles - 1 }

/-- IRQ entry (R256): a pending request with `P.I` 0 is taken at the instruction boundary in place of the fetch: `PC`
unadvanced pushed high byte first, then the status with bit 4 clear, `P.I` set, `PC` from the vector at $FFFE, the latch
cleared, 7 Steps. The frame, the clear Break bit and the clearing of the latch are the spec's own decision D19 (log 11). -/
def Obligations.UnmaskedRequestIsTaken : Prop :=
  ∀ s : State, s.cyclesLeft = 0 → s.irqPending = true → s.p.getLsbD 2 = false →
    let b := ((s.bus.write (stackAt s.sp) (highOf s.pc)).write (stackAt (s.sp - 1)) (lowOf s.pc)).write
      (stackAt (s.sp - 2)) (s.p &&& 0xEF)
    ∃ p', Writes s.p p' [(2, true)] ∧
      step s = .next { s with
        sp := s.sp - 3
        p := p'
        pc := wordOf (b.mem.read 0xFFFE) (b.mem.read 0xFFFF)
        cyclesLeft := 6
        lastOpCode := 0x00
        lastAddrMode := .imp
        lastArg := 0
        pageBoundary := false
        softIrq := false
        lastRTS := false
        irqPending := false
        bus := b }

/-- While `P.I` is 1 a latched request stays latched and has no effect (R26, R254): the step is the one the machine without
the request makes. Holding it is the spec's own decision D18 (log 11). -/
def Obligations.MaskedRequestIsHeld : Prop :=
  ∀ s t : State, s.irqPending = true → s.p.getLsbD 2 = true → step { s with irqPending := false } = .next t →
    step s = .next { t with irqPending := true }

/-- An instruction occupies as many Steps as its first Step leaves in `CyclesLeft`, plus one (R137): the later Steps change
nothing but the countdown, and the state at which it ends is the one `InstrStep` gives (R146). -/
def Obligations.InstructionRunsInItsFirstStep : Prop :=
  ∀ s t : State, s.cyclesLeft = 0 → step s = .next t →
    (∀ k, k ≤ t.cyclesLeft → Host.Core.run Sys2Proof.core (k + 1) s = .next { t with cyclesLeft := t.cyclesLeft - k }) ∧
    instrStep s = .next { t with cyclesLeft := 0 }

/-- The cycles an instruction of the opcode table adds to its base cost (R135, R136): 1 for the nine reading mnemonics on a
page crossing, 1 or 2 for a taken branch, 0 for everything else, stores and read-modify-writes that cross a page among them;
and of the reading forms exactly those R135 lists by opcode value can pay, all in the modes ABX, ABY and IZY. Which reading
forms pay is the spec's own decision D8, and the count of that list is log 20. That a branch compares the opcode's page is
decision D7 (log 11). -/
def Obligations.PenaltiesAreExactlyThese : Prop :=
  (∀ (i : Instr) (s t : State), i.WellFormed → exec i s = .next t → t.cyclesLeft = s.cyclesLeft + penalty i s) ∧
  (∀ (i : Instr) (s : State), branchTaken i s = none → penalty i s ≠ 0 → i.mode = .abx ∨ i.mode = .aby ∨ i.mode = .izy) ∧
  ∀ op b1 b2 : Byte, op ∈ penaltyOpcodes ↔
    (penaltyOperand (decodeBytes op b1 b2)).isSome = true ∧ (opcodeEntry op).mode ∈ [AddrMode.abx, .aby, .izy]

/-- `pc_override` (R133, the spec's own decision D27): `PC` takes it first, on every Step; a countdown is not cut short; the
`PC` of the state itself changes nothing. -/
def Obligations.PcOverrideIsAppliedFirst : Prop :=
  ∀ (s : State) (a : Addr),
    stepWith (some a) s = step { s with pc := a } ∧
    stepWith (some s.pc) s = step s ∧
    (∀ n, s.cyclesLeft = n + 1 → stepWith (some a) s = .next { s with pc := a, cyclesLeft := n })

/-- The trap of an illegal opcode (R234, as 90_conflicts.md C1 resolves it): `SoftIrq` and the record of the opcode, `PC` past
the one byte, one Step; no other register, no flag, no memory, not `SP`. Flag only is the spec's own decision D14 (log 16,
DEDUCED; log 11). -/
def Obligations.IllegalOpcodeTraps : Prop :=
  (∀ (op : Byte) (s : State), exec (.ill op) s = .next { implied s with softIrq := true }) ∧
  (∀ s : State, s.cyclesLeft = 0 → (s.irqPending = false ∨ s.p.getLsbD 2 = true) → memFetch s s.pc ∈ illegalOpcodes →
    step s = .next { s with
      pc := s.pc + 1
      lastOpCode := memFetch s s.pc
      lastAddrMode := .imp
      lastArg := 0
      pageBoundary := false
      softIrq := true
      lastRTS := false
      cyclesLeft := 0 })

/-! ## Addressing -/

/-- The resolver computes the table of R105: effective address, `PageBoundary`, `LastArg`, `LastAddrMode`, `PC` past the
operand bytes, the pointer reads in order, and nothing else. And "addressing idempotence" (R104): with no device, resolving
again from the same `PC` and registers gives the same address and the same `PC`, and the bus is as it was. That the high byte
of a pointer at $FF comes from $0100 (IZX, IZY) is the spec's own decision D5, `ZP_POINTER_WRAP` false (log 11). -/
def Obligations.ResolverFollowsTheTable : Prop :=
  (∀ (m : MemOperand) (s : State), resolveMem m s = ((resolution m s).ea, resolvedState m s)) ∧
  ∀ (m : MemOperand) (s : State), s.NoDevice →
    let first := resolveMem m s
    let second := resolveMem m { first.2 with pc := s.pc }
    second.1 = first.1 ∧ second.2.pc = first.2.pc ∧ first.2.bus = s.bus

/-! ## Loads, stores, transfers -/

/-- LDA, LDX, LDY (R150 to R152): encodings, the register takes the operand byte, N and Z of it, nothing else. -/
def Obligations.LoadsLoad : Prop :=
  EncodesGroup1 .lda 0xA9 0xA5 0xB5 0xAD 0xBD 0xB9 0xA1 0xB1 ∧
  (∀ b w, encode (.ldx (.imm b)) = some [0xA2, b] ∧ encode (.ldx (.mem (.zpg b))) = some [0xA6, b] ∧
    encode (.ldx (.mem (.zpy b))) = some [0xB6, b] ∧ encode (.ldx (.mem (.abs w))) = some [0xAE, lowOf w, highOf w] ∧
    encode (.ldx (.mem (.aby w))) = some [0xBE, lowOf w, highOf w]) ∧
  (∀ b w, encode (.ldy (.imm b)) = some [0xA0, b] ∧ encode (.ldy (.mem (.zpg b))) = some [0xA4, b] ∧
    encode (.ldy (.mem (.zpx b))) = some [0xB4, b] ∧ encode (.ldy (.mem (.abs w))) = some [0xAC, lowOf w, highOf w] ∧
    encode (.ldy (.mem (.abx w))) = some [0xBC, lowOf w, highOf w]) ∧
  ∀ (o : ReadOperand) (s : State), ∃ p', Writes s.p p' (nz (operand o s).1) ∧
    exec (.lda o) s = .next { (operand o s).2 with a := (operand o s).1, p := p' } ∧
    exec (.ldx o) s = .next { (operand o s).2 with x := (operand o s).1, p := p' } ∧
    exec (.ldy o) s = .next { (operand o s).2 with y := (operand o s).1, p := p' }

/-- STA, STX, STY (R153 to R155): encodings, one data write of the register at the effective address, no flag, no penalty. -/
def Obligations.StoresStore : Prop :=
  (∀ b w, encode (.sta (.zpg b)) = some [0x85, b] ∧ encode (.sta (.zpx b)) = some [0x95, b] ∧
    encode (.sta (.abs w)) = some [0x8D, lowOf w, highOf w] ∧ encode (.sta (.abx w)) = some [0x9D, lowOf w, highOf w] ∧
    encode (.sta (.aby w)) = some [0x99, lowOf w, highOf w] ∧ encode (.sta (.izx b)) = some [0x81, b] ∧
    encode (.sta (.izy b)) = some [0x91, b]) ∧
  (∀ b w, encode (.stx (.zpg b)) = some [0x86, b] ∧ encode (.stx (.zpy b)) = some [0x96, b] ∧
    encode (.stx (.abs w)) = some [0x8E, lowOf w, highOf w]) ∧
  (∀ b w, encode (.sty (.zpg b)) = some [0x84, b] ∧ encode (.sty (.zpx b)) = some [0x94, b] ∧
    encode (.sty (.abs w)) = some [0x8C, lowOf w, highOf w]) ∧
  ((opcodeEntry 0x9D).cycles = 5 ∧ (opcodeEntry 0x99).cycles = 5 ∧ (opcodeEntry 0x91).cycles = 6) ∧
  ∀ (m : MemOperand) (s : State),
    exec (.sta m) s = .next { resolvedState m s with bus := (resolution m s).bus.write (resolution m s).ea s.a } ∧
    exec (.stx m) s = .next { resolvedState m s with bus := (resolution m s).bus.write (resolution m s).ea s.x } ∧
    exec (.sty m) s = .next { resolvedState m s with bus := (resolution m s).bus.write (resolution m s).ea s.y }

/-- TAX, TAY, TXA, TYA, TSX with N and Z of the byte moved, and TXS with no flag (R156 to R161). -/
def Obligations.TransfersTransfer : Prop :=
  (encode .tax = some [0xAA] ∧ encode .tay = some [0xA8] ∧ encode .txa = some [0x8A] ∧ encode .tya = some [0x98] ∧
    encode .tsx = some [0xBA] ∧ encode .txs = some [0x9A]) ∧
  ∀ s : State,
    (∃ p', Writes s.p p' (nz s.a) ∧ exec .tax s = .next { implied s with x := s.a, p := p' } ∧
      exec .tay s = .next { implied s with y := s.a, p := p' }) ∧
    (∃ p', Writes s.p p' (nz s.x) ∧ exec .txa s = .next { implied s with a := s.x, p := p' }) ∧
    (∃ p', Writes s.p p' (nz s.y) ∧ exec .tya s = .next { implied s with a := s.y, p := p' }) ∧
    (∃ p', Writes s.p p' (nz s.sp) ∧ exec .tsx s = .next { implied s with x := s.sp, p := p' }) ∧
    exec .txs s = .next { implied s with sp := s.x }

/-! ## Arithmetic and logic -/

/-- ADC (R170): the decimal algorithm when `P.D` is 1 and the binary one otherwise, on `A`, the operand byte and `P.C`; N, V, Z
and C of it. -/
def Obligations.AdcAdds : Prop :=
  EncodesGroup1 .adc 0x69 0x65 0x75 0x6D 0x7D 0x79 0x61 0x71 ∧
  ∀ (o : ReadOperand) (s : State),
    let m := operand o s
    let out := if s.p.getLsbD 3 then adcDec s.a m.1 (s.p.getLsbD 0) else adcBin s.a m.1 (s.p.getLsbD 0)
    ∃ p', Writes s.p p' [(7, out.n), (6, out.v), (1, out.z), (0, out.c)] ∧
      exec (.adc o) s = .next { m.2 with a := out.r, p := p' }

/-- SBC (R171): the decimal algorithm when `P.D` is 1 and the binary one otherwise; carry means no borrow. -/
def Obligations.SbcSubtracts : Prop :=
  EncodesGroup1 .sbc 0xE9 0xE5 0xF5 0xED 0xFD 0xF9 0xE1 0xF1 ∧
  ∀ (o : ReadOperand) (s : State),
    let m := operand o s
    let out := if s.p.getLsbD 3 then sbcDec s.a m.1 (s.p.getLsbD 0) else sbcBin s.a m.1 (s.p.getLsbD 0)
    ∃ p', Writes s.p p' [(7, out.n), (6, out.v), (1, out.z), (0, out.c)] ∧
      exec (.sbc o) s = .next { m.2 with a := out.r, p := p' }

/-- AND, ORA, EOR (R172 to R174): `A` takes the bitwise result, N and Z of it, nothing else. -/
def Obligations.LogicCombinesBitwise : Prop :=
  EncodesGroup1 .and 0x29 0x25 0x35 0x2D 0x3D 0x39 0x21 0x31 ∧ EncodesGroup1 .ora 0x09 0x05 0x15 0x0D 0x1D 0x19 0x01 0x11 ∧
  EncodesGroup1 .eor 0x49 0x45 0x55 0x4D 0x5D 0x59 0x41 0x51 ∧
  ∀ (o : ReadOperand) (s : State) (f : Bool → Bool → Bool) (i : Instr),
    (i = .and o ∧ f = and) ∨ (i = .ora o ∧ f = or) ∨ (i = .eor o ∧ f = xor) →
    ∃ r p', (∀ k < 8, r.getLsbD k = f (s.a.getLsbD k) ((operand o s).1.getLsbD k)) ∧ Writes s.p p' (nz r) ∧
      exec i s = .next { (operand o s).2 with a := r, p := p' }

/-- CMP, CPX, CPY (R175 to R177): C the unsigned comparison, Z equality, N bit 7 of the difference; no register, not V, whatever
`P.D` and the old `P.C`. -/
def Obligations.ComparesCompare : Prop :=
  EncodesGroup1 .cmp 0xC9 0xC5 0xD5 0xCD 0xDD 0xD9 0xC1 0xD1 ∧
  (∀ b w, encode (.cpx (.imm b)) = some [0xE0, b] ∧ encode (.cpx (.mem (.zpg b))) = some [0xE4, b] ∧
    encode (.cpx (.mem (.abs w))) = some [0xEC, lowOf w, highOf w]) ∧
  (∀ b w, encode (.cpy (.imm b)) = some [0xC0, b] ∧ encode (.cpy (.mem (.zpg b))) = some [0xC4, b] ∧
    encode (.cpy (.mem (.abs w))) = some [0xCC, lowOf w, highOf w]) ∧
  ∀ (o : ReadOperand) (s : State) (i : Instr) (reg : Byte),
    (i = .cmp o ∧ reg = s.a) ∨ (i = .cpx o ∧ reg = s.x) ∨ (i = .cpy o ∧ reg = s.y) →
    let m := (operand o s).1
    ∃ p', Writes s.p p' [(7, decide (128 ≤ (reg.toNat + 256 - m.toNat) % 256)), (1, decide (reg = m)),
        (0, decide (m.toNat ≤ reg.toNat))] ∧
      exec i s = .next { (operand o s).2 with p := p' }

/-- BIT (R178): Z of the AND, N and V copied from bits 7 and 6 of the operand; `A` and C unchanged. -/
def Obligations.BitTests : Prop :=
  (∀ b w, encode (.bit (.zpg b)) = some [0x24, b] ∧ encode (.bit (.abs w)) = some [0x2C, lowOf w, highOf w]) ∧
  ∀ (m : MemOperand) (s : State),
    let v := (operand (.mem m) s).1
    ∃ p', Writes s.p p' [(7, v.getLsbD 7), (6, v.getLsbD 6), (1, decide (s.a &&& v = 0))] ∧
      exec (.bit m) s = .next { (operand (.mem m) s).2 with p := p' }

/-- INC and DEC (R179, R180): one read and one write of the byte plus or minus 1 modulo 256, N and Z of the result (also where
the write is dropped), not C, not V. -/
def Obligations.MemoryIncrementAndDecrement : Prop :=
  EncodesModify .inc 0xE6 0xF6 0xEE 0xFE ∧ EncodesModify .dec 0xC6 0xD6 0xCE 0xDE ∧
  ∀ (m : MemOperand) (s : State) (i : Instr) (f : Byte → Byte),
    (i = .inc m ∧ f = fun v => BitVec.ofNat 8 (v.toNat + 1)) ∨ (i = .dec m ∧ f = fun v => BitVec.ofNat 8 (v.toNat + 255)) →
    let v := modified (.mem m) f s
    ∃ p', Writes s.p p' (nz (f v.1)) ∧ exec i s = .next { v.2 with p := p' }

/-- INX, INY, DEX, DEY (R181 to R184): the index register plus or minus 1 modulo 256, N and Z of it. -/
def Obligations.IndexIncrementAndDecrement : Prop :=
  (encode .inx = some [0xE8] ∧ encode .iny = some [0xC8] ∧ encode .dex = some [0xCA] ∧ encode .dey = some [0x88]) ∧
  ∀ s : State,
    (∃ p', Writes s.p p' (nz (BitVec.ofNat 8 (s.x.toNat + 1))) ∧
      exec .inx s = .next { implied s with x := BitVec.ofNat 8 (s.x.toNat + 1), p := p' }) ∧
    (∃ p', Writes s.p p' (nz (BitVec.ofNat 8 (s.y.toNat + 1))) ∧
      exec .iny s = .next { implied s with y := BitVec.ofNat 8 (s.y.toNat + 1), p := p' }) ∧
    (∃ p', Writes s.p p' (nz (BitVec.ofNat 8 (s.x.toNat + 255))) ∧
      exec .dex s = .next { implied s with x := BitVec.ofNat 8 (s.x.toNat + 255), p := p' }) ∧
    (∃ p', Writes s.p p' (nz (BitVec.ofNat 8 (s.y.toNat + 255))) ∧
      exec .dey s = .next { implied s with y := BitVec.ofNat 8 (s.y.toNat + 255), p := p' })

/-- ASL, LSR, ROL, ROR (R190 to R193) on the accumulator and on memory: the byte doubled or halved, the carry-in in the vacated
bit for the rotates and 0 for the shifts, C the bit moved out, N and Z of the result, nothing else; on memory one read and one
write at the same address (a dropped write leaves the flags those of the result: the spec's own decision D22). -/
def Obligations.ShiftsAndRotates : Prop :=
  (encode (.asl .acc) = some [0x0A] ∧ encode (.lsr .acc) = some [0x4A] ∧ encode (.rol .acc) = some [0x2A] ∧
    encode (.ror .acc) = some [0x6A]) ∧
  EncodesModify (.asl ∘ .mem) 0x06 0x16 0x0E 0x1E ∧ EncodesModify (.lsr ∘ .mem) 0x46 0x56 0x4E 0x5E ∧
  EncodesModify (.rol ∘ .mem) 0x26 0x36 0x2E 0x3E ∧ EncodesModify (.ror ∘ .mem) 0x66 0x76 0x6E 0x7E ∧
  (opcodeEntry 0x1E).cycles = 7 ∧
  ∀ (o : ModifyOperand) (s : State) (i : Instr) (f : Byte → Byte) (out : Byte → Bool),
    (i = .asl o ∧ f = (fun v => BitVec.ofNat 8 (2 * v.toNat)) ∧ out = fun v => decide (128 ≤ v.toNat)) ∨
    (i = .lsr o ∧ f = (fun v => BitVec.ofNat 8 (v.toNat / 2)) ∧ out = fun v => decide (v.toNat % 2 = 1)) ∨
    (i = .rol o ∧ f = (fun v => BitVec.ofNat 8 (2 * v.toNat + (s.p.getLsbD 0).toNat)) ∧ out = fun v => decide (128 ≤ v.toNat)) ∨
    (i = .ror o ∧ f = (fun v => BitVec.ofNat 8 (v.toNat / 2 + 128 * (s.p.getLsbD 0).toNat)) ∧
      out = fun v => decide (v.toNat % 2 = 1)) →
    let v := modified o f s
    ∃ p', Writes s.p p' ((0, out v.1) :: nz (f v.1)) ∧ exec i s = .next { v.2 with p := p' }

/-! ## Control flow -/

/-- The eight branches (R200 to R207, R211): the condition, the target counted from the following address, the penalty of a
taken branch, `PageBoundary` set whether or not the branch is taken, and nothing else. That the opcode's page is the one
compared is the spec's own decision D7, `BRANCH_PAGE_BASE` (log 11). -/
def Obligations.BranchesBranch : Prop :=
  (∀ d, encode (.bcc d) = some [0x90, d] ∧ encode (.bcs d) = some [0xB0, d] ∧ encode (.beq d) = some [0xF0, d] ∧
    encode (.bne d) = some [0xD0, d] ∧ encode (.bmi d) = some [0x30, d] ∧ encode (.bpl d) = some [0x10, d] ∧
    encode (.bvc d) = some [0x50, d] ∧ encode (.bvs d) = some [0x70, d]) ∧
  ∀ (i : Instr) (s : State) (d : Byte) (taken : Bool), branchTaken i s = some (d, taken) →
    exec i s = .next { s with
      pc := if taken then branchTarget d s.pc else s.pc + 1
      cyclesLeft := s.cyclesLeft + if taken then (if branchCrosses d s.pc then 2 else 1) else 0
      lastAddrMode := .rel
      lastArg := BitVec.ofNat 16 d.toNat
      pageBoundary := branchCrosses d s.pc }

/-- JMP (R208): absolute, and indirect through two Data reads at `w` and `w + 1` with no wrap inside the pointer's page. The
missing wrap is the spec's own decision D6, `JMP_IND_PAGE_BUG` false (log 11). -/
def Obligations.JmpJumps : Prop :=
  (∀ w, encode (.jmp (.abs w)) = some [0x4C, lowOf w, highOf w] ∧ encode (.jmp (.ind w)) = some [0x6C, lowOf w, highOf w]) ∧
  (opcodeEntry 0x4C).cycles = 3 ∧ (opcodeEntry 0x6C).cycles = 5 ∧
  ∀ (w : Addr) (s : State),
    exec (.jmp (.abs w)) s = .next { s with pc := w, lastAddrMode := .abs, lastArg := w, pageBoundary := false } ∧
    exec (.jmp (.ind w)) s = .next { s with
      pc := BitVec.ofNat 16 (pointerAt s.bus w.toNat).1
      lastAddrMode := .ind
      lastArg := w
      pageBoundary := false
      bus := (pointerAt s.bus w.toNat).2 }

/-- JSR (R209): the address of the instruction's last byte pushed high byte first, then the jump. On entry `PC` is the JSR's
address plus 1, so that address is `PC + 1`. -/
def Obligations.JsrCalls : Prop :=
  (∀ w, encode (.jsr w) = some [0x20, lowOf w, highOf w]) ∧ (opcodeEntry 0x20).cycles = 6 ∧
  ∀ (w : Addr) (s : State),
    exec (.jsr w) s = .next { s with
      pc := w
      sp := s.sp - 2
      lastAddrMode := .abs
      lastArg := w
      pageBoundary := false
      bus := (s.bus.write (stackAt s.sp) (highOf (s.pc + 1))).write (stackAt (s.sp - 1)) (lowOf (s.pc + 1)) }

/-- RTS (R210): at the empty stack in the mode that treats it as terminal, `LastRTS` and nothing popped; otherwise the popped word
plus 1. -/
def Obligations.RtsReturns : Prop :=
  encode .rts = some [0x60] ∧ (opcodeEntry 0x60).cycles = 6 ∧
  ∀ s : State,
    (s.exitAtLastRTS = true → s.sp = 0xFF → exec .rts s = .next { implied s with lastRTS := true }) ∧
    (¬(s.exitAtLastRTS = true ∧ s.sp = 0xFF) →
      let l := s.bus.read (stackAt (s.sp + 1))
      let h := l.2.read (stackAt (s.sp + 2))
      exec .rts s = .next { implied s with pc := wordOf l.1 h.1 + 1, sp := s.sp + 2, bus := h.2 })

/-- PHA and PLA (R220, R221), PHP and PLP (R222, R223; that PHP pushes bit 4 set and PLP loads all eight bits is the spec's own
decision D13). -/
def Obligations.StackInstructions : Prop :=
  (encode .pha = some [0x48] ∧ encode .pla = some [0x68] ∧ encode .php = some [0x08] ∧ encode .plp = some [0x28]) ∧
  ((opcodeEntry 0x48).cycles = 3 ∧ (opcodeEntry 0x68).cycles = 4 ∧ (opcodeEntry 0x08).cycles = 3 ∧ (opcodeEntry 0x28).cycles = 4) ∧
  ∀ s : State,
    let v := s.bus.read (stackAt (s.sp + 1))
    exec .pha s = .next { implied s with sp := s.sp - 1, bus := s.bus.write (stackAt s.sp) s.a } ∧
    exec .php s = .next { implied s with sp := s.sp - 1, bus := s.bus.write (stackAt s.sp) (s.p ||| 0x10) } ∧
    (∃ p', Writes s.p p' (nz v.1) ∧ exec .pla s = .next { implied s with a := v.1, p := p', sp := s.sp + 1, bus := v.2 }) ∧
    exec .plp s = .next { implied s with p := v.1, sp := s.sp + 1, bus := v.2 }

/-- CLC, SEC, CLI, SEI, CLD, SED, CLV write exactly one flag, NOP none (R224 to R231). -/
def Obligations.FlagInstructionsAndNop : Prop :=
  (encode .clc = some [0x18] ∧ encode .sec = some [0x38] ∧ encode .cli = some [0x58] ∧ encode .sei = some [0x78] ∧
    encode .cld = some [0xD8] ∧ encode .sed = some [0xF8] ∧ encode .clv = some [0xB8] ∧ encode .nop = some [0xEA]) ∧
  (opcodeEntry 0xEA).cycles = 2 ∧
  (∀ (i : Instr) (s : State) (k : Nat) (v : Bool),
    (i, k, v) ∈ [(Instr.clc, 0, false), (.sec, 0, true), (.cli, 2, false), (.sei, 2, true), (.cld, 3, false), (.sed, 3, true),
      (.clv, 6, false)] →
    ∃ p', Writes s.p p' [(k, v)] ∧ exec i s = .next { implied s with p := p' }) ∧
  ∀ s : State, exec .nop s = .next (implied s)

/-! ## Exceptions -/

/-- BRK (R232): the BRK's address plus 2 (which is `PC + 1` on entry) pushed high byte first, then the status with bit 4 set;
`P.I` set, no other live flag changed; `PC` from the vector at $FFFE read after the pushes; `SoftIrq`. Not maskable. The
return address is the one 90_conflicts.md C2 settles. It is the spec's own decision D20 (log 15, DEDUCED; log 11). -/
def Obligations.BrkTakesTheSoftwareInterrupt : Prop :=
  encode .brk = some [0x00] ∧ (opcodeEntry 0x00).cycles = 7 ∧
  ∀ s : State,
    let ret := s.pc + 1
    let b := ((s.bus.write (stackAt s.sp) (highOf ret)).write (stackAt (s.sp - 1)) (lowOf ret)).write
      (stackAt (s.sp - 2)) (s.p ||| 0x10)
    ∃ p', Writes s.p p' [(2, true)] ∧
      exec .brk s = .next { implied s with
        sp := s.sp - 3
        p := p'
        pc := wordOf (b.mem.read 0xFFFE) (b.mem.read 0xFFFF)
        softIrq := true
        bus := b }

/-- RTI (R233): all eight bits of the popped status with bit 2 then forced to 0, `PC` the popped word with no adjustment. -/
def Obligations.RtiReturnsFromInterrupt : Prop :=
  encode .rti = some [0x40] ∧ (opcodeEntry 0x40).cycles = 6 ∧
  ∀ s : State,
    let st := s.bus.read (stackAt (s.sp + 1))
    let l := st.2.read (stackAt (s.sp + 2))
    let h := l.2.read (stackAt (s.sp + 3))
    ∃ p', Writes st.1 p' [(2, false)] ∧
      exec .rti s = .next { implied s with sp := s.sp + 3, p := p', pc := wordOf l.1 h.1, bus := h.2 }

/-! ## Arithmetic laws -/

/-- Binary add (R112) is exact: the result modulo 256, C the carry out, V exactly when the signed sum does not fit, Z and N of the
result. -/
def Obligations.BinaryAddIsExact : Prop :=
  ∀ (a m : Byte) (c : Bool),
    let s := a.toNat + m.toNat + c.toNat
    let o := adcBin a m c
    o.r.toNat = s % 256 ∧ o.c = decide (255 < s) ∧ o.z = decide (o.r = 0) ∧ o.n = o.r.getLsbD 7 ∧
    o.v = decide (a.getLsbD 7 = m.getLsbD 7 ∧ o.r.getLsbD 7 ≠ a.getLsbD 7) ∧
    (o.v = true ↔ a.toInt + m.toInt + c.toNat < -128 ∨ 127 < a.toInt + m.toInt + c.toNat)

/-- Decimal add (R113, the spec's own decision D12): the algorithm written out, on every operand, and on valid BCD operands
the sum's two digits modulo 100 with C exactly when the sum reaches 100. -/
def Obligations.DecimalAddIsDecimal : Prop :=
  (∀ (a m : Byte) (c : Bool), adcDec a m c = decimalAdd a m c) ∧
  ∀ (x y : Nat) (c : Bool), x < 100 → y < 100 →
    (adcDec (bcd x) (bcd y) c).r = bcd ((x + y + c.toNat) % 100) ∧
    (adcDec (bcd x) (bcd y) c).c = decide (100 ≤ x + y + c.toNat)

/-- Binary subtract (R114): the form `adc_bin(a, m ^ 0xFF, c)` and the spelled-out form over the integers agree on every
input. -/
def Obligations.BinarySubtractFormsAgree : Prop :=
  ∀ (a m : Byte) (c : Bool),
    let d : Int := a.toNat - m.toNat - (1 - c.toNat)
    let o := sbcBin a m c
    o = adcBin a (m ^^^ 0xFF) c ∧ (o.r.toNat : Int) = d % 256 ∧ o.c = decide (0 ≤ d) ∧
    o.v = (((a ^^^ m) &&& (a ^^^ o.r) &&& 0x80) != 0) ∧ o.z = decide (o.r = 0) ∧ o.n = o.r.getLsbD 7

/-- Decimal subtract (R115, the spec's own decision D12): the four flags of the binary subtraction and the corrected result
byte written out, on every operand, and on valid BCD operands the difference's two digits modulo 100 with C exactly when there
is no borrow. -/
def Obligations.DecimalSubtractIsDecimal : Prop :=
  (∀ (a m : Byte) (c : Bool),
    (sbcDec a m c).r = decimalDifference a m c ∧
    (sbcDec a m c).c = (sbcBin a m c).c ∧ (sbcDec a m c).v = (sbcBin a m c).v ∧ (sbcDec a m c).z = (sbcBin a m c).z ∧
      (sbcDec a m c).n = (sbcBin a m c).n) ∧
  ∀ (x y : Nat) (c : Bool), x < 100 → y < 100 →
    (sbcDec (bcd x) (bcd y) c).r = bcd ((x + 100 - y - (1 - c.toNat)) % 100) ∧
    (sbcDec (bcd x) (bcd y) c).c = decide (y + (1 - c.toNat) ≤ x)

/-- "Nine rotates in one direction restore the byte and the carry" (R119), and each rotate is undone by the opposite one. -/
def Obligations.NineRotatesRestore : Prop :=
  ∀ (v : Byte) (c : Bool),
    ((fun q : ShiftResult => rolByte q.r q.c)^[9] ⟨v, c⟩ = ⟨v, c⟩) ∧
    ((fun q : ShiftResult => rorByte q.r q.c)^[9] ⟨v, c⟩ = ⟨v, c⟩) ∧
    rorByte (rolByte v c).r (rolByte v c).c = ⟨v, c⟩ ∧ rolByte (rorByte v c).r (rorByte v c).c = ⟨v, c⟩

/-! ## Round trips -/

/-- "Stack discipline" (R212): JSR and then RTS, from whatever address, come back to the JSR's address plus 3 (`PC + 2` on entry)
with the stack pointer as it was, for every starting stack pointer, unless `ExitAtLastRTS` is on and the stack pointer was 1, where
the RTS signals `LastRTS` and stays. The stack bytes are ordinary memory. -/
def Obligations.JsrThenRtsReturns : Prop :=
  ∀ (s t u : State) (w at' : Addr), s.bus.mem.wf = true → s.NoDevice →
    s.bus.rom.guards (stackAt s.sp) = false → s.bus.rom.guards (stackAt (s.sp - 1)) = false →
    exec (.jsr w) s = .next t → exec .rts { t with pc := at' } = .next u →
    (¬(s.exitAtLastRTS = true ∧ s.sp = 1) → u.pc = s.pc + 2 ∧ u.sp = s.sp ∧ u.lastRTS = s.lastRTS) ∧
    (s.exitAtLastRTS = true → s.sp = 1 → u.lastRTS = true ∧ u.pc = at' ∧ u.sp = 0xFF)

/-- BRK and then RTI (R232, R233, R263): back at the BRK's address plus 2 (`PC + 1` on entry), the stack pointer as it was,
the status as it was but for I 0 and B 1, `A`, `X` and `Y` untouched. The return address is the one 90_conflicts.md C2
settles, decision D20 (log 15, DEDUCED). -/
def Obligations.BrkThenRtiReturns : Prop :=
  ∀ (s t u : State) (at' : Addr), s.bus.mem.wf = true → s.NoDevice →
    s.bus.rom.guards (stackAt s.sp) = false → s.bus.rom.guards (stackAt (s.sp - 1)) = false →
    s.bus.rom.guards (stackAt (s.sp - 2)) = false →
    exec .brk s = .next t → exec .rti { t with pc := at' } = .next u →
    u.pc = s.pc + 1 ∧ u.sp = s.sp ∧ u.p = ((s.p ||| 0x10) &&& 0xFB) ∧ u.a = s.a ∧ u.x = s.x ∧ u.y = s.y

/-- A hardware interrupt and then RTI (R256, R263): the interrupted instruction is resumed at its own address with the stack
pointer as it was and the status as it was but for B, which is 0 (I was 0 before). The stacked frame is the spec's own
decision D19 (log 11). -/
def Obligations.InterruptThenRtiResumes : Prop :=
  ∀ (s t u : State) (at' : Addr), s.bus.mem.wf = true → s.NoDevice →
    s.bus.rom.guards (stackAt s.sp) = false → s.bus.rom.guards (stackAt (s.sp - 1)) = false →
    s.bus.rom.guards (stackAt (s.sp - 2)) = false →
    s.cyclesLeft = 0 → s.irqPending = true → s.p.getLsbD 2 = false →
    step s = .next t → exec .rti { t with pc := at' } = .next u →
    u.pc = s.pc ∧ u.sp = s.sp ∧ u.p = (s.p &&& 0xEF) ∧ u.a = s.a ∧ u.x = s.x ∧ u.y = s.y ∧ u.irqPending = false

/-! ## Host operations -/

/-- `reset()` (R281): `PC` the little-endian word at $FFFC, `P.I` 1, `ExitAtLastRTS` false, and nothing else (that the list of
three is complete is the spec's own decision D24). -/
def Obligations.ResetWritesThreeThings : Prop :=
  ∀ s : State, ∃ p', Writes s.p p' [(2, true)] ∧
    resetOp s = { s with
      pc := wordOf (s.bus.mem.read 0xFFFC) (s.bus.mem.read 0xFFFD)
      p := p'
      exitAtLastRTS := false }

/-- The values after power-on and then `reset()` (R31, R280). The register values at power-on are the spec's own decision D23,
and the stub address D25 (log 3). -/
def Obligations.PowerOnAndResetValues : Prop :=
  State.reset = resetOp State.powerOn ∧
  getRegisters State.powerOn =
    { a := 0, x := 0, y := 0, sp := 0xFF, pc := 0, p := 0, cyclesLeft := 0, lastOpCode := 0, lastAddrMode := .imp,
      lastArg := 0, pageBoundary := false, softIrq := false, lastRTS := false, irqPending := false } ∧
  State.powerOn.exitAtLastRTS = false ∧ State.reset.pc = 0x0200 ∧ State.reset.p = 0x04 ∧
  memFetch State.reset 0xFFFC = 0x00 ∧ memFetch State.reset 0xFFFD = 0x02 ∧ memFetch State.reset 0xFFFE = 0xF0 ∧
  memFetch State.reset 0xFFFF = 0xFF ∧ memFetch State.reset 0xFFF0 = 0x40

/-- The other operations on the register record: `set_registers` overwrites every register with the record's field of its name,
whatever its value, and leaves `ExitAtLastRTS` and everything behind the bus (R140); `get_registers` reads back what was written, and
a saved record restores the state (R139); `request_interrupt` sets the latch and nothing else, a second request is absorbed, and an
instruction in its countdown goes on counting (R141); `set_exit_at_last_rts(b)` writes its latch and nothing else (R142). These are
the spec's own decisions D26, D28 and D32. -/
def Obligations.RegisterRecordOperations : Prop :=
  (∀ (r : Snapshot) (s : State), getRegisters (setRegisters r s) = r ∧
    setRegisters r s =
      { a := r.a, x := r.x, y := r.y, sp := r.sp, pc := r.pc, p := r.p, cyclesLeft := r.cyclesLeft, lastOpCode := r.lastOpCode,
        lastAddrMode := r.lastAddrMode, lastArg := r.lastArg, pageBoundary := r.pageBoundary, softIrq := r.softIrq,
        lastRTS := r.lastRTS, irqPending := r.irqPending, exitAtLastRTS := s.exitAtLastRTS, bus := s.bus }) ∧
  (∀ s t : State, t.exitAtLastRTS = s.exitAtLastRTS → t.bus = s.bus → setRegisters (getRegisters s) t = s) ∧
  ∀ (s : State) (b : Bool), requestInterrupt s = { s with irqPending := true } ∧
    requestInterrupt (requestInterrupt s) = requestInterrupt s ∧
    setExitAtLastRts b s = { s with exitAtLastRTS := b } ∧
    (0 < s.cyclesLeft → step (requestInterrupt s) = .next { s with cyclesLeft := s.cyclesLeft - 1, irqPending := true })

/-- The disassembler uses the execution's own table (R81): its mode is that of the instruction a fetch at the address decodes to,
and its next address is past that instruction's bytes. -/
def Obligations.DisassemblyAgreesWithExecution : Prop :=
  ∀ (s : State) (a : Addr),
    let i := decodeBytes (memFetch s a) (memFetch s (a + 1)) (memFetch s (a + 2))
    (decodeAt s a).mode = i.mode ∧ (decodeAt s a).next = a + BitVec.ofNat 16 i.mode.length ∧
    (disassemble s a).2 = (decodeAt s a).next ∧
    (∀ d, branchTaken i s = some d → (decodeAt s a).target = some (branchTarget d.1 (a + 1)))
end

