-- ==== Sys2Proof/Laws/Memory.lean ====
section
/-! SUPPORT. The memory array: what a write changes and what it leaves, and that every memory and bus operation keeps the
canonical form. -/

namespace Sys2Proof.Machine

theorem Memory.cell_read_same (n : Nat) (v : Byte) (m : Memory) (h : m.read n = Memory.unlisted n) :
    Memory.read (Memory.cell n v ++ m) n = v := by
  unfold Memory.cell
  split
  · simp_all
  · simp [Memory.read]

theorem Memory.cell_read_other (n k : Nat) (v : Byte) (m : Memory) (h : k ≠ n) :
    Memory.read (Memory.cell n v ++ m) k = m.read k := by
  unfold Memory.cell
  split
  · rfl
  · simp [Memory.read, h.symm]

/-- Below the first listed address every address reads as unlisted. -/
theorem Memory.read_below (m : Memory) (lim n : Nat) (h : Memory.wfFrom lim m = true) (hn : n < lim) :
    m.read n = Memory.unlisted n := by
  induction m generalizing lim with
  | nil => rfl
  | cons c m ih =>
    obtain ⟨k, v⟩ := c
    simp only [Memory.wfFrom, Bool.and_eq_true, decide_eq_true_eq] at h
    have hk : k ≠ n := by omega
    simpa [Memory.read, hk] using ih (k + 1) h.2 (by omega)

/-- A write leaves every other address as it was. -/
theorem Memory.read_write_other (m : Memory) (n k : Nat) (v : Byte) (h : k ≠ n) : (m.write n v).read k = m.read k := by
  induction m with
  | nil => simpa [Memory.write] using Memory.cell_read_other n k v [] h
  | cons c m ih =>
    obtain ⟨j, w⟩ := c
    unfold Memory.write
    split
    · simp [Memory.read, ih]
    · split
      · next _ hj =>
        subst hj
        simpa [Memory.read, h.symm] using Memory.cell_read_other j k v m h
      · simpa using Memory.cell_read_other n k v ((j, w) :: m) h

/-- In a canonical memory a write is read back. -/
theorem Memory.read_write_same_from (m : Memory) (lim n : Nat) (v : Byte) (h : Memory.wfFrom lim m = true) :
    (m.write n v).read n = v := by
  induction m generalizing lim with
  | nil => simpa [Memory.write] using Memory.cell_read_same n v [] rfl
  | cons c m ih =>
    obtain ⟨j, w⟩ := c
    simp only [Memory.wfFrom, Bool.and_eq_true, decide_eq_true_eq] at h
    unfold Memory.write
    split
    · next hj => simpa [Memory.read, Nat.ne_of_lt hj] using ih (j + 1) h.2
    · split
      · next _ hj =>
        subst hj
        exact Memory.cell_read_same j v m (Memory.read_below m (j + 1) j h.2 (by omega))
      · next h1 h2 =>
        refine Memory.cell_read_same n v ((j, w) :: m) ?_
        have : j ≠ n := h2
        simpa [Memory.read, this] using Memory.read_below m (j + 1) n h.2 (by omega)

theorem Memory.read_write_same (m : Memory) (n : Nat) (v : Byte) (h : m.wf = true) : (m.write n v).read n = v :=
  Memory.read_write_same_from m 0 n v h

theorem Memory.wfFrom_mono (m : Memory) (lim lim' : Nat) (h : Memory.wfFrom lim m = true) (hl : lim' ≤ lim) :
    Memory.wfFrom lim' m = true := by
  cases m with
  | nil => rfl
  | cons c m =>
    obtain ⟨k, v⟩ := c
    simp only [Memory.wfFrom, Bool.and_eq_true, decide_eq_true_eq] at h ⊢
    exact ⟨⟨⟨by omega, h.1.1.2⟩, h.1.2⟩, h.2⟩

theorem Memory.cell_wfFrom (m : Memory) (lim n : Nat) (v : Byte) (hn : n < 65536) (hl : lim ≤ n)
    (h : Memory.wfFrom (n + 1) m = true) : Memory.wfFrom lim (Memory.cell n v ++ m) = true := by
  unfold Memory.cell
  split
  · exact Memory.wfFrom_mono m (n + 1) lim h (by omega)
  · next hv => simp [Memory.wfFrom, hl, hn, hv, h]

theorem Memory.write_wfFrom (m : Memory) (lim n : Nat) (v : Byte) (hn : n < 65536) (hl : lim ≤ n)
    (h : Memory.wfFrom lim m = true) : Memory.wfFrom lim (m.write n v) = true := by
  induction m generalizing lim with
  | nil => simpa [Memory.write] using Memory.cell_wfFrom [] lim n v hn hl rfl
  | cons c m ih =>
    obtain ⟨j, w⟩ := c
    have h' := h
    simp only [Memory.wfFrom, Bool.and_eq_true, decide_eq_true_eq] at h
    unfold Memory.write
    split
    · simp only [Memory.wfFrom, Bool.and_eq_true, decide_eq_true_eq]
      exact ⟨h.1, ih (j + 1) (by omega) h.2⟩
    · split
      · next _ hj =>
        subst hj
        exact Memory.cell_wfFrom m lim j v hn hl h.2
      · next h1 h2 =>
        refine Memory.cell_wfFrom _ lim n v hn hl ?_
        simp only [Memory.wfFrom, Bool.and_eq_true, decide_eq_true_eq]
        exact ⟨⟨⟨by omega, h.1.1.2⟩, h.1.2⟩, h.2⟩

/-- A write keeps the canonical form. -/
theorem Memory.write_wf (m : Memory) (n : Nat) (v : Byte) (hn : n < 65536) (h : m.wf = true) : (m.write n v).wf = true :=
  Memory.write_wfFrom m 0 n v hn (by omega) h

theorem Memory.poke_wf (m : Memory) (a : Addr) (v : Byte) (h : m.wf = true) : (m.poke a v).wf = true :=
  Memory.write_wf m a.toNat v a.isLt h

theorem Memory.pokes_wf (m : Memory) (ps : List (Addr × Byte)) (h : m.wf = true) : (m.pokes ps).wf = true := by
  induction ps generalizing m with
  | nil => exact h
  | cons q ps ih => exact ih _ (Memory.poke_wf m q.1 q.2 h)

theorem Memory.load_wf (m : Memory) (a : Addr) (vs : List Byte) (h : m.wf = true) : (m.load a vs).wf = true := by
  induction vs generalizing m a with
  | nil => exact h
  | cons v vs ih => exact ih _ (a + 1) (Memory.poke_wf m a v h)

theorem Memory.read_poke_same (m : Memory) (a : Addr) (v : Byte) (h : m.wf = true) : (m.poke a v).read a.toNat = v :=
  Memory.read_write_same m a.toNat v h

theorem Memory.read_poke_other (m : Memory) (a b : Addr) (v : Byte) (h : b ≠ a) :
    (m.poke a v).read b.toNat = m.read b.toNat :=
  Memory.read_write_other m a.toNat b.toNat v (fun e => h (BitVec.eq_of_toNat_eq e))

/-! ## The bus -/

theorem Bus.runReadHandler_wf (b : Bus) (a : Addr) (h : b.mem.wf = true) : (b.runReadHandler a).mem.wf = true := by
  unfold Bus.runReadHandler
  split
  · exact h
  · split
    · exact h
    · exact Memory.pokes_wf _ _ h

theorem Bus.runWriteHandler_wf (b : Bus) (a : Addr) (v : Byte) (h : b.mem.wf = true) :
    (b.runWriteHandler a v).mem.wf = true := by
  unfold Bus.runWriteHandler
  split
  · exact h
  · split
    · exact h
    · exact Memory.pokes_wf _ _ h

theorem Bus.read_wf (b : Bus) (a : Addr) (h : b.mem.wf = true) : (b.read a).2.mem.wf = true :=
  Bus.runReadHandler_wf b a h

theorem Bus.write_wf (b : Bus) (a : Addr) (v : Byte) (h : b.mem.wf = true) : (b.write a v).mem.wf = true := by
  unfold Bus.write
  split
  · exact h
  · exact Bus.runWriteHandler_wf _ a v (Memory.poke_wf b.mem a v h)

/-- No access changes the ROM window. -/
@[simp] theorem Bus.read_rom (b : Bus) (a : Addr) : (b.read a).2.rom = b.rom := by
  simp only [Bus.read, Bus.runReadHandler]
  split
  · rfl
  · split <;> rfl

/-- No access changes the device registrations. -/
@[simp] theorem Bus.read_devices (b : Bus) (a : Addr) : (b.read a).2.devices = b.devices := by
  simp only [Bus.read, Bus.runReadHandler]
  split
  · rfl
  · split <;> rfl

/-- No access changes the ROM window. -/
@[simp] theorem Bus.write_rom (b : Bus) (a : Addr) (v : Byte) : (b.write a v).rom = b.rom := by
  simp only [Bus.write, Bus.runWriteHandler]
  split
  · rfl
  · split
    · rfl
    · split <;> rfl

/-- No access changes the device registrations. -/
@[simp] theorem Bus.write_devices (b : Bus) (a : Addr) (v : Byte) : (b.write a v).devices = b.devices := by
  simp only [Bus.write, Bus.runWriteHandler]
  split
  · rfl
  · split
    · rfl
    · split <;> rfl

/-- Everything a Data read can do: with no owner, or an owner without a read handler, it answers the array's byte and changes
nothing; otherwise the handler runs first. -/
theorem Bus.read_cases (b : Bus) (a : Addr) :
    b.read a = (b.fetch a, b) ∨
    ∃ d h, b.devices.owner a = some d ∧ d.readHandler = some h ∧
      b.read a = ((b.afterHandler (Config.deviceRead h d.params b.devEnv b.mem a)).fetch a,
        b.afterHandler (Config.deviceRead h d.params b.devEnv b.mem a)) := by
  unfold Bus.read Bus.runReadHandler
  cases hd : b.devices.owner a with
  | none => exact .inl rfl
  | some d =>
    cases hh : d.readHandler with
    | none => left; simp [hh]
    | some h => right; exact ⟨d, h, rfl, hh, by simp [hh]⟩

theorem Bus.read_of_no_owner (b : Bus) (a : Addr) (h : b.devices.owner a = none) : b.read a = (b.fetch a, b) := by
  simp [Bus.read, Bus.runReadHandler, h]

theorem Bus.write_of_no_owner (b : Bus) (a : Addr) (v : Byte) (h : b.devices.owner a = none) :
    b.write a v = if b.rom.guards a then b else { b with mem := b.mem.poke a v } := by
  simp [Bus.write, Bus.runWriteHandler, h]

theorem Bus.write_guarded (b : Bus) (a : Addr) (v : Byte) (h : b.rom.guards a = true) : b.write a v = b := by
  simp [Bus.write, h]

end Sys2Proof.Machine
end

