-- ==== Sys2Proof/Laws/State.lean ====
section
/-! SUPPORT. One lemma per field per update of the state, so that no proof unfolds a record update. -/

namespace Sys2Proof.Machine

/-! A flag write changes `P` only. -/

@[simp] theorem State.setFlag_a (s : State) (f : Flag) (v : Bool) : (s.setFlag f v).a = s.a := rfl
@[simp] theorem State.setFlag_x (s : State) (f : Flag) (v : Bool) : (s.setFlag f v).x = s.x := rfl
@[simp] theorem State.setFlag_y (s : State) (f : Flag) (v : Bool) : (s.setFlag f v).y = s.y := rfl
@[simp] theorem State.setFlag_sp (s : State) (f : Flag) (v : Bool) : (s.setFlag f v).sp = s.sp := rfl
@[simp] theorem State.setFlag_pc (s : State) (f : Flag) (v : Bool) : (s.setFlag f v).pc = s.pc := rfl
@[simp] theorem State.setFlag_p (s : State) (f : Flag) (v : Bool) : (s.setFlag f v).p = putFlag s.p f v := rfl
@[simp] theorem State.setFlag_cyclesLeft (s : State) (f : Flag) (v : Bool) : (s.setFlag f v).cyclesLeft = s.cyclesLeft := rfl
@[simp] theorem State.setFlag_lastOpCode (s : State) (f : Flag) (v : Bool) : (s.setFlag f v).lastOpCode = s.lastOpCode := rfl
@[simp] theorem State.setFlag_lastAddrMode (s : State) (f : Flag) (v : Bool) : (s.setFlag f v).lastAddrMode = s.lastAddrMode := rfl
@[simp] theorem State.setFlag_lastArg (s : State) (f : Flag) (v : Bool) : (s.setFlag f v).lastArg = s.lastArg := rfl
@[simp] theorem State.setFlag_pageBoundary (s : State) (f : Flag) (v : Bool) : (s.setFlag f v).pageBoundary = s.pageBoundary := rfl
@[simp] theorem State.setFlag_softIrq (s : State) (f : Flag) (v : Bool) : (s.setFlag f v).softIrq = s.softIrq := rfl
@[simp] theorem State.setFlag_lastRTS (s : State) (f : Flag) (v : Bool) : (s.setFlag f v).lastRTS = s.lastRTS := rfl
@[simp] theorem State.setFlag_irqPending (s : State) (f : Flag) (v : Bool) : (s.setFlag f v).irqPending = s.irqPending := rfl
@[simp] theorem State.setFlag_exitAtLastRTS (s : State) (f : Flag) (v : Bool) : (s.setFlag f v).exitAtLastRTS = s.exitAtLastRTS := rfl
@[simp] theorem State.setFlag_bus (s : State) (f : Flag) (v : Bool) : (s.setFlag f v).bus = s.bus := rfl

/-! Recording a resolution changes the three fields that record it. -/

@[simp] theorem State.noteOperand_a (s : State) (md : AddrMode) (w : Addr) (c : Bool) : (s.noteOperand md w c).a = s.a := rfl
@[simp] theorem State.noteOperand_x (s : State) (md : AddrMode) (w : Addr) (c : Bool) : (s.noteOperand md w c).x = s.x := rfl
@[simp] theorem State.noteOperand_y (s : State) (md : AddrMode) (w : Addr) (c : Bool) : (s.noteOperand md w c).y = s.y := rfl
@[simp] theorem State.noteOperand_sp (s : State) (md : AddrMode) (w : Addr) (c : Bool) : (s.noteOperand md w c).sp = s.sp := rfl
@[simp] theorem State.noteOperand_pc (s : State) (md : AddrMode) (w : Addr) (c : Bool) : (s.noteOperand md w c).pc = s.pc := rfl
@[simp] theorem State.noteOperand_p (s : State) (md : AddrMode) (w : Addr) (c : Bool) : (s.noteOperand md w c).p = s.p := rfl
@[simp] theorem State.noteOperand_cyclesLeft (s : State) (md : AddrMode) (w : Addr) (c : Bool) : (s.noteOperand md w c).cyclesLeft = s.cyclesLeft := rfl
@[simp] theorem State.noteOperand_lastOpCode (s : State) (md : AddrMode) (w : Addr) (c : Bool) : (s.noteOperand md w c).lastOpCode = s.lastOpCode := rfl
@[simp] theorem State.noteOperand_lastAddrMode (s : State) (md : AddrMode) (w : Addr) (c : Bool) : (s.noteOperand md w c).lastAddrMode = md := rfl
@[simp] theorem State.noteOperand_lastArg (s : State) (md : AddrMode) (w : Addr) (c : Bool) : (s.noteOperand md w c).lastArg = w := rfl
@[simp] theorem State.noteOperand_pageBoundary (s : State) (md : AddrMode) (w : Addr) (c : Bool) : (s.noteOperand md w c).pageBoundary = c := rfl
@[simp] theorem State.noteOperand_softIrq (s : State) (md : AddrMode) (w : Addr) (c : Bool) : (s.noteOperand md w c).softIrq = s.softIrq := rfl
@[simp] theorem State.noteOperand_lastRTS (s : State) (md : AddrMode) (w : Addr) (c : Bool) : (s.noteOperand md w c).lastRTS = s.lastRTS := rfl
@[simp] theorem State.noteOperand_irqPending (s : State) (md : AddrMode) (w : Addr) (c : Bool) : (s.noteOperand md w c).irqPending = s.irqPending := rfl
@[simp] theorem State.noteOperand_exitAtLastRTS (s : State) (md : AddrMode) (w : Addr) (c : Bool) : (s.noteOperand md w c).exitAtLastRTS = s.exitAtLastRTS := rfl
@[simp] theorem State.noteOperand_bus (s : State) (md : AddrMode) (w : Addr) (c : Bool) : (s.noteOperand md w c).bus = s.bus := rfl

/-! A resolution records the operand and moves `PC` past the operand bytes. -/

@[simp] theorem State.resolved_a (s : State) (md : AddrMode) (w : Addr) (c : Bool) : (s.resolved md w c).a = s.a := rfl
@[simp] theorem State.resolved_x (s : State) (md : AddrMode) (w : Addr) (c : Bool) : (s.resolved md w c).x = s.x := rfl
@[simp] theorem State.resolved_y (s : State) (md : AddrMode) (w : Addr) (c : Bool) : (s.resolved md w c).y = s.y := rfl
@[simp] theorem State.resolved_sp (s : State) (md : AddrMode) (w : Addr) (c : Bool) : (s.resolved md w c).sp = s.sp := rfl
@[simp] theorem State.resolved_pc (s : State) (md : AddrMode) (w : Addr) (c : Bool) : (s.resolved md w c).pc = s.pc + BitVec.ofNat 16 (md.length - 1) := rfl
@[simp] theorem State.resolved_p (s : State) (md : AddrMode) (w : Addr) (c : Bool) : (s.resolved md w c).p = s.p := rfl
@[simp] theorem State.resolved_cyclesLeft (s : State) (md : AddrMode) (w : Addr) (c : Bool) : (s.resolved md w c).cyclesLeft = s.cyclesLeft := rfl
@[simp] theorem State.resolved_lastOpCode (s : State) (md : AddrMode) (w : Addr) (c : Bool) : (s.resolved md w c).lastOpCode = s.lastOpCode := rfl
@[simp] theorem State.resolved_lastAddrMode (s : State) (md : AddrMode) (w : Addr) (c : Bool) : (s.resolved md w c).lastAddrMode = md := rfl
@[simp] theorem State.resolved_lastArg (s : State) (md : AddrMode) (w : Addr) (c : Bool) : (s.resolved md w c).lastArg = w := rfl
@[simp] theorem State.resolved_pageBoundary (s : State) (md : AddrMode) (w : Addr) (c : Bool) : (s.resolved md w c).pageBoundary = c := rfl
@[simp] theorem State.resolved_softIrq (s : State) (md : AddrMode) (w : Addr) (c : Bool) : (s.resolved md w c).softIrq = s.softIrq := rfl
@[simp] theorem State.resolved_lastRTS (s : State) (md : AddrMode) (w : Addr) (c : Bool) : (s.resolved md w c).lastRTS = s.lastRTS := rfl
@[simp] theorem State.resolved_irqPending (s : State) (md : AddrMode) (w : Addr) (c : Bool) : (s.resolved md w c).irqPending = s.irqPending := rfl
@[simp] theorem State.resolved_exitAtLastRTS (s : State) (md : AddrMode) (w : Addr) (c : Bool) : (s.resolved md w c).exitAtLastRTS = s.exitAtLastRTS := rfl
@[simp] theorem State.resolved_bus (s : State) (md : AddrMode) (w : Addr) (c : Bool) : (s.resolved md w c).bus = s.bus := rfl

/-! `resolve(IMP)` advances nothing. -/

@[simp] theorem resolveImp_a (s : State) : (resolveImp s).a = s.a := rfl
@[simp] theorem resolveImp_x (s : State) : (resolveImp s).x = s.x := rfl
@[simp] theorem resolveImp_y (s : State) : (resolveImp s).y = s.y := rfl
@[simp] theorem resolveImp_sp (s : State) : (resolveImp s).sp = s.sp := rfl
@[simp] theorem resolveImp_pc (s : State) : (resolveImp s).pc = s.pc := by simp [resolveImp, AddrMode.length]
@[simp] theorem resolveImp_p (s : State) : (resolveImp s).p = s.p := rfl
@[simp] theorem resolveImp_cyclesLeft (s : State) : (resolveImp s).cyclesLeft = s.cyclesLeft := rfl
@[simp] theorem resolveImp_lastOpCode (s : State) : (resolveImp s).lastOpCode = s.lastOpCode := rfl
@[simp] theorem resolveImp_lastAddrMode (s : State) : (resolveImp s).lastAddrMode = .imp := rfl
@[simp] theorem resolveImp_lastArg (s : State) : (resolveImp s).lastArg = 0 := rfl
@[simp] theorem resolveImp_pageBoundary (s : State) : (resolveImp s).pageBoundary = false := rfl
@[simp] theorem resolveImp_softIrq (s : State) : (resolveImp s).softIrq = s.softIrq := rfl
@[simp] theorem resolveImp_lastRTS (s : State) : (resolveImp s).lastRTS = s.lastRTS := rfl
@[simp] theorem resolveImp_irqPending (s : State) : (resolveImp s).irqPending = s.irqPending := rfl
@[simp] theorem resolveImp_exitAtLastRTS (s : State) : (resolveImp s).exitAtLastRTS = s.exitAtLastRTS := rfl
@[simp] theorem resolveImp_bus (s : State) : (resolveImp s).bus = s.bus := rfl

/-! `resolve(ACC)` advances nothing. -/

@[simp] theorem resolveAcc_a (s : State) : (resolveAcc s).a = s.a := rfl
@[simp] theorem resolveAcc_x (s : State) : (resolveAcc s).x = s.x := rfl
@[simp] theorem resolveAcc_y (s : State) : (resolveAcc s).y = s.y := rfl
@[simp] theorem resolveAcc_sp (s : State) : (resolveAcc s).sp = s.sp := rfl
@[simp] theorem resolveAcc_pc (s : State) : (resolveAcc s).pc = s.pc := by simp [resolveAcc, AddrMode.length]
@[simp] theorem resolveAcc_p (s : State) : (resolveAcc s).p = s.p := rfl
@[simp] theorem resolveAcc_cyclesLeft (s : State) : (resolveAcc s).cyclesLeft = s.cyclesLeft := rfl
@[simp] theorem resolveAcc_lastOpCode (s : State) : (resolveAcc s).lastOpCode = s.lastOpCode := rfl
@[simp] theorem resolveAcc_lastAddrMode (s : State) : (resolveAcc s).lastAddrMode = .acc := rfl
@[simp] theorem resolveAcc_lastArg (s : State) : (resolveAcc s).lastArg = 0 := rfl
@[simp] theorem resolveAcc_pageBoundary (s : State) : (resolveAcc s).pageBoundary = false := rfl
@[simp] theorem resolveAcc_softIrq (s : State) : (resolveAcc s).softIrq = s.softIrq := rfl
@[simp] theorem resolveAcc_lastRTS (s : State) : (resolveAcc s).lastRTS = s.lastRTS := rfl
@[simp] theorem resolveAcc_irqPending (s : State) : (resolveAcc s).irqPending = s.irqPending := rfl
@[simp] theorem resolveAcc_exitAtLastRTS (s : State) : (resolveAcc s).exitAtLastRTS = s.exitAtLastRTS := rfl
@[simp] theorem resolveAcc_bus (s : State) : (resolveAcc s).bus = s.bus := rfl

/-! The start of an instruction clears three status flags. -/

@[simp] theorem State.clearStatus_a (s : State) : (s.clearStatus).a = s.a := rfl
@[simp] theorem State.clearStatus_x (s : State) : (s.clearStatus).x = s.x := rfl
@[simp] theorem State.clearStatus_y (s : State) : (s.clearStatus).y = s.y := rfl
@[simp] theorem State.clearStatus_sp (s : State) : (s.clearStatus).sp = s.sp := rfl
@[simp] theorem State.clearStatus_pc (s : State) : (s.clearStatus).pc = s.pc := rfl
@[simp] theorem State.clearStatus_p (s : State) : (s.clearStatus).p = s.p := rfl
@[simp] theorem State.clearStatus_cyclesLeft (s : State) : (s.clearStatus).cyclesLeft = s.cyclesLeft := rfl
@[simp] theorem State.clearStatus_lastOpCode (s : State) : (s.clearStatus).lastOpCode = s.lastOpCode := rfl
@[simp] theorem State.clearStatus_lastAddrMode (s : State) : (s.clearStatus).lastAddrMode = s.lastAddrMode := rfl
@[simp] theorem State.clearStatus_lastArg (s : State) : (s.clearStatus).lastArg = s.lastArg := rfl
@[simp] theorem State.clearStatus_pageBoundary (s : State) : (s.clearStatus).pageBoundary = false := rfl
@[simp] theorem State.clearStatus_softIrq (s : State) : (s.clearStatus).softIrq = false := rfl
@[simp] theorem State.clearStatus_lastRTS (s : State) : (s.clearStatus).lastRTS = false := rfl
@[simp] theorem State.clearStatus_irqPending (s : State) : (s.clearStatus).irqPending = s.irqPending := rfl
@[simp] theorem State.clearStatus_exitAtLastRTS (s : State) : (s.clearStatus).exitAtLastRTS = s.exitAtLastRTS := rfl
@[simp] theorem State.clearStatus_bus (s : State) : (s.clearStatus).bus = s.bus := rfl

/-! The bookkeeping of a fetched opcode. -/

@[simp] theorem State.beginInstr_a (s : State) (op : Byte) (n : Nat) : (s.beginInstr op n).a = s.a := rfl
@[simp] theorem State.beginInstr_x (s : State) (op : Byte) (n : Nat) : (s.beginInstr op n).x = s.x := rfl
@[simp] theorem State.beginInstr_y (s : State) (op : Byte) (n : Nat) : (s.beginInstr op n).y = s.y := rfl
@[simp] theorem State.beginInstr_sp (s : State) (op : Byte) (n : Nat) : (s.beginInstr op n).sp = s.sp := rfl
@[simp] theorem State.beginInstr_pc (s : State) (op : Byte) (n : Nat) : (s.beginInstr op n).pc = s.pc + 1 := rfl
@[simp] theorem State.beginInstr_p (s : State) (op : Byte) (n : Nat) : (s.beginInstr op n).p = s.p := rfl
@[simp] theorem State.beginInstr_cyclesLeft (s : State) (op : Byte) (n : Nat) : (s.beginInstr op n).cyclesLeft = n - 1 := rfl
@[simp] theorem State.beginInstr_lastOpCode (s : State) (op : Byte) (n : Nat) : (s.beginInstr op n).lastOpCode = op := rfl
@[simp] theorem State.beginInstr_lastAddrMode (s : State) (op : Byte) (n : Nat) : (s.beginInstr op n).lastAddrMode = s.lastAddrMode := rfl
@[simp] theorem State.beginInstr_lastArg (s : State) (op : Byte) (n : Nat) : (s.beginInstr op n).lastArg = s.lastArg := rfl
@[simp] theorem State.beginInstr_pageBoundary (s : State) (op : Byte) (n : Nat) : (s.beginInstr op n).pageBoundary = s.pageBoundary := rfl
@[simp] theorem State.beginInstr_softIrq (s : State) (op : Byte) (n : Nat) : (s.beginInstr op n).softIrq = s.softIrq := rfl
@[simp] theorem State.beginInstr_lastRTS (s : State) (op : Byte) (n : Nat) : (s.beginInstr op n).lastRTS = s.lastRTS := rfl
@[simp] theorem State.beginInstr_irqPending (s : State) (op : Byte) (n : Nat) : (s.beginInstr op n).irqPending = s.irqPending := rfl
@[simp] theorem State.beginInstr_exitAtLastRTS (s : State) (op : Byte) (n : Nat) : (s.beginInstr op n).exitAtLastRTS = s.exitAtLastRTS := rfl
@[simp] theorem State.beginInstr_bus (s : State) (op : Byte) (n : Nat) : (s.beginInstr op n).bus = s.bus := rfl

/-! The page-crossing penalty changes `CyclesLeft` only. -/

@[simp] theorem State.readPenalty_a (s : State) : (s.readPenalty).a = s.a := rfl
@[simp] theorem State.readPenalty_x (s : State) : (s.readPenalty).x = s.x := rfl
@[simp] theorem State.readPenalty_y (s : State) : (s.readPenalty).y = s.y := rfl
@[simp] theorem State.readPenalty_sp (s : State) : (s.readPenalty).sp = s.sp := rfl
@[simp] theorem State.readPenalty_pc (s : State) : (s.readPenalty).pc = s.pc := rfl
@[simp] theorem State.readPenalty_p (s : State) : (s.readPenalty).p = s.p := rfl
@[simp] theorem State.readPenalty_cyclesLeft (s : State) : (s.readPenalty).cyclesLeft = s.cyclesLeft + s.pageBoundary.toNat := rfl
@[simp] theorem State.readPenalty_lastOpCode (s : State) : (s.readPenalty).lastOpCode = s.lastOpCode := rfl
@[simp] theorem State.readPenalty_lastAddrMode (s : State) : (s.readPenalty).lastAddrMode = s.lastAddrMode := rfl
@[simp] theorem State.readPenalty_lastArg (s : State) : (s.readPenalty).lastArg = s.lastArg := rfl
@[simp] theorem State.readPenalty_pageBoundary (s : State) : (s.readPenalty).pageBoundary = s.pageBoundary := rfl
@[simp] theorem State.readPenalty_softIrq (s : State) : (s.readPenalty).softIrq = s.softIrq := rfl
@[simp] theorem State.readPenalty_lastRTS (s : State) : (s.readPenalty).lastRTS = s.lastRTS := rfl
@[simp] theorem State.readPenalty_irqPending (s : State) : (s.readPenalty).irqPending = s.irqPending := rfl
@[simp] theorem State.readPenalty_exitAtLastRTS (s : State) : (s.readPenalty).exitAtLastRTS = s.exitAtLastRTS := rfl
@[simp] theorem State.readPenalty_bus (s : State) : (s.readPenalty).bus = s.bus := rfl

/-! A logic result changes `A` and `P`. -/

@[simp] theorem State.setAccNZ_a (s : State) (r : Byte) : (s.setAccNZ r).a = r := rfl
@[simp] theorem State.setAccNZ_x (s : State) (r : Byte) : (s.setAccNZ r).x = s.x := rfl
@[simp] theorem State.setAccNZ_y (s : State) (r : Byte) : (s.setAccNZ r).y = s.y := rfl
@[simp] theorem State.setAccNZ_sp (s : State) (r : Byte) : (s.setAccNZ r).sp = s.sp := rfl
@[simp] theorem State.setAccNZ_pc (s : State) (r : Byte) : (s.setAccNZ r).pc = s.pc := rfl
@[simp] theorem State.setAccNZ_p (s : State) (r : Byte) : (s.setAccNZ r).p = setNZ r s.p := rfl
@[simp] theorem State.setAccNZ_cyclesLeft (s : State) (r : Byte) : (s.setAccNZ r).cyclesLeft = s.cyclesLeft := rfl
@[simp] theorem State.setAccNZ_lastOpCode (s : State) (r : Byte) : (s.setAccNZ r).lastOpCode = s.lastOpCode := rfl
@[simp] theorem State.setAccNZ_lastAddrMode (s : State) (r : Byte) : (s.setAccNZ r).lastAddrMode = s.lastAddrMode := rfl
@[simp] theorem State.setAccNZ_lastArg (s : State) (r : Byte) : (s.setAccNZ r).lastArg = s.lastArg := rfl
@[simp] theorem State.setAccNZ_pageBoundary (s : State) (r : Byte) : (s.setAccNZ r).pageBoundary = s.pageBoundary := rfl
@[simp] theorem State.setAccNZ_softIrq (s : State) (r : Byte) : (s.setAccNZ r).softIrq = s.softIrq := rfl
@[simp] theorem State.setAccNZ_lastRTS (s : State) (r : Byte) : (s.setAccNZ r).lastRTS = s.lastRTS := rfl
@[simp] theorem State.setAccNZ_irqPending (s : State) (r : Byte) : (s.setAccNZ r).irqPending = s.irqPending := rfl
@[simp] theorem State.setAccNZ_exitAtLastRTS (s : State) (r : Byte) : (s.setAccNZ r).exitAtLastRTS = s.exitAtLastRTS := rfl
@[simp] theorem State.setAccNZ_bus (s : State) (r : Byte) : (s.setAccNZ r).bus = s.bus := rfl

/-! `raise SoftTrap` changes `SoftIrq` only. -/

@[simp] theorem raiseSoftTrap_a (s : State) : (raiseSoftTrap s).a = s.a := rfl
@[simp] theorem raiseSoftTrap_x (s : State) : (raiseSoftTrap s).x = s.x := rfl
@[simp] theorem raiseSoftTrap_y (s : State) : (raiseSoftTrap s).y = s.y := rfl
@[simp] theorem raiseSoftTrap_sp (s : State) : (raiseSoftTrap s).sp = s.sp := rfl
@[simp] theorem raiseSoftTrap_pc (s : State) : (raiseSoftTrap s).pc = s.pc := rfl
@[simp] theorem raiseSoftTrap_p (s : State) : (raiseSoftTrap s).p = s.p := rfl
@[simp] theorem raiseSoftTrap_cyclesLeft (s : State) : (raiseSoftTrap s).cyclesLeft = s.cyclesLeft := rfl
@[simp] theorem raiseSoftTrap_lastOpCode (s : State) : (raiseSoftTrap s).lastOpCode = s.lastOpCode := rfl
@[simp] theorem raiseSoftTrap_lastAddrMode (s : State) : (raiseSoftTrap s).lastAddrMode = s.lastAddrMode := rfl
@[simp] theorem raiseSoftTrap_lastArg (s : State) : (raiseSoftTrap s).lastArg = s.lastArg := rfl
@[simp] theorem raiseSoftTrap_pageBoundary (s : State) : (raiseSoftTrap s).pageBoundary = s.pageBoundary := rfl
@[simp] theorem raiseSoftTrap_softIrq (s : State) : (raiseSoftTrap s).softIrq = true := rfl
@[simp] theorem raiseSoftTrap_lastRTS (s : State) : (raiseSoftTrap s).lastRTS = s.lastRTS := rfl
@[simp] theorem raiseSoftTrap_irqPending (s : State) : (raiseSoftTrap s).irqPending = s.irqPending := rfl
@[simp] theorem raiseSoftTrap_exitAtLastRTS (s : State) : (raiseSoftTrap s).exitAtLastRTS = s.exitAtLastRTS := rfl
@[simp] theorem raiseSoftTrap_bus (s : State) : (raiseSoftTrap s).bus = s.bus := rfl

/-! A Data read changes what is behind the bus only. -/

@[simp] theorem memRead_a (w : Addr) (s : State) : ((memRead w s).2).a = s.a := rfl
@[simp] theorem memRead_x (w : Addr) (s : State) : ((memRead w s).2).x = s.x := rfl
@[simp] theorem memRead_y (w : Addr) (s : State) : ((memRead w s).2).y = s.y := rfl
@[simp] theorem memRead_sp (w : Addr) (s : State) : ((memRead w s).2).sp = s.sp := rfl
@[simp] theorem memRead_pc (w : Addr) (s : State) : ((memRead w s).2).pc = s.pc := rfl
@[simp] theorem memRead_p (w : Addr) (s : State) : ((memRead w s).2).p = s.p := rfl
@[simp] theorem memRead_cyclesLeft (w : Addr) (s : State) : ((memRead w s).2).cyclesLeft = s.cyclesLeft := rfl
@[simp] theorem memRead_lastOpCode (w : Addr) (s : State) : ((memRead w s).2).lastOpCode = s.lastOpCode := rfl
@[simp] theorem memRead_lastAddrMode (w : Addr) (s : State) : ((memRead w s).2).lastAddrMode = s.lastAddrMode := rfl
@[simp] theorem memRead_lastArg (w : Addr) (s : State) : ((memRead w s).2).lastArg = s.lastArg := rfl
@[simp] theorem memRead_pageBoundary (w : Addr) (s : State) : ((memRead w s).2).pageBoundary = s.pageBoundary := rfl
@[simp] theorem memRead_softIrq (w : Addr) (s : State) : ((memRead w s).2).softIrq = s.softIrq := rfl
@[simp] theorem memRead_lastRTS (w : Addr) (s : State) : ((memRead w s).2).lastRTS = s.lastRTS := rfl
@[simp] theorem memRead_irqPending (w : Addr) (s : State) : ((memRead w s).2).irqPending = s.irqPending := rfl
@[simp] theorem memRead_exitAtLastRTS (w : Addr) (s : State) : ((memRead w s).2).exitAtLastRTS = s.exitAtLastRTS := rfl
@[simp] theorem memRead_bus (w : Addr) (s : State) : ((memRead w s).2).bus = (s.bus.read w).2 := rfl

/-! A Data write changes what is behind the bus only. -/

@[simp] theorem memWrite_a (w : Addr) (v : Byte) (s : State) : (memWrite w v s).a = s.a := rfl
@[simp] theorem memWrite_x (w : Addr) (v : Byte) (s : State) : (memWrite w v s).x = s.x := rfl
@[simp] theorem memWrite_y (w : Addr) (v : Byte) (s : State) : (memWrite w v s).y = s.y := rfl
@[simp] theorem memWrite_sp (w : Addr) (v : Byte) (s : State) : (memWrite w v s).sp = s.sp := rfl
@[simp] theorem memWrite_pc (w : Addr) (v : Byte) (s : State) : (memWrite w v s).pc = s.pc := rfl
@[simp] theorem memWrite_p (w : Addr) (v : Byte) (s : State) : (memWrite w v s).p = s.p := rfl
@[simp] theorem memWrite_cyclesLeft (w : Addr) (v : Byte) (s : State) : (memWrite w v s).cyclesLeft = s.cyclesLeft := rfl
@[simp] theorem memWrite_lastOpCode (w : Addr) (v : Byte) (s : State) : (memWrite w v s).lastOpCode = s.lastOpCode := rfl
@[simp] theorem memWrite_lastAddrMode (w : Addr) (v : Byte) (s : State) : (memWrite w v s).lastAddrMode = s.lastAddrMode := rfl
@[simp] theorem memWrite_lastArg (w : Addr) (v : Byte) (s : State) : (memWrite w v s).lastArg = s.lastArg := rfl
@[simp] theorem memWrite_pageBoundary (w : Addr) (v : Byte) (s : State) : (memWrite w v s).pageBoundary = s.pageBoundary := rfl
@[simp] theorem memWrite_softIrq (w : Addr) (v : Byte) (s : State) : (memWrite w v s).softIrq = s.softIrq := rfl
@[simp] theorem memWrite_lastRTS (w : Addr) (v : Byte) (s : State) : (memWrite w v s).lastRTS = s.lastRTS := rfl
@[simp] theorem memWrite_irqPending (w : Addr) (v : Byte) (s : State) : (memWrite w v s).irqPending = s.irqPending := rfl
@[simp] theorem memWrite_exitAtLastRTS (w : Addr) (v : Byte) (s : State) : (memWrite w v s).exitAtLastRTS = s.exitAtLastRTS := rfl
@[simp] theorem memWrite_bus (w : Addr) (v : Byte) (s : State) : (memWrite w v s).bus = s.bus.write w v := rfl

/-! A push moves `SP` and writes one byte. -/

@[simp] theorem push_a (v : Byte) (s : State) : (push v s).a = s.a := rfl
@[simp] theorem push_x (v : Byte) (s : State) : (push v s).x = s.x := rfl
@[simp] theorem push_y (v : Byte) (s : State) : (push v s).y = s.y := rfl
@[simp] theorem push_sp (v : Byte) (s : State) : (push v s).sp = s.sp - 1 := rfl
@[simp] theorem push_pc (v : Byte) (s : State) : (push v s).pc = s.pc := rfl
@[simp] theorem push_p (v : Byte) (s : State) : (push v s).p = s.p := rfl
@[simp] theorem push_cyclesLeft (v : Byte) (s : State) : (push v s).cyclesLeft = s.cyclesLeft := rfl
@[simp] theorem push_lastOpCode (v : Byte) (s : State) : (push v s).lastOpCode = s.lastOpCode := rfl
@[simp] theorem push_lastAddrMode (v : Byte) (s : State) : (push v s).lastAddrMode = s.lastAddrMode := rfl
@[simp] theorem push_lastArg (v : Byte) (s : State) : (push v s).lastArg = s.lastArg := rfl
@[simp] theorem push_pageBoundary (v : Byte) (s : State) : (push v s).pageBoundary = s.pageBoundary := rfl
@[simp] theorem push_softIrq (v : Byte) (s : State) : (push v s).softIrq = s.softIrq := rfl
@[simp] theorem push_lastRTS (v : Byte) (s : State) : (push v s).lastRTS = s.lastRTS := rfl
@[simp] theorem push_irqPending (v : Byte) (s : State) : (push v s).irqPending = s.irqPending := rfl
@[simp] theorem push_exitAtLastRTS (v : Byte) (s : State) : (push v s).exitAtLastRTS = s.exitAtLastRTS := rfl
@[simp] theorem push_bus (v : Byte) (s : State) : (push v s).bus = s.bus.write (stackAddr s.sp) v := rfl

/-! A pop moves `SP` and reads one byte. -/

@[simp] theorem pop_a (s : State) : ((pop s).2).a = s.a := rfl
@[simp] theorem pop_x (s : State) : ((pop s).2).x = s.x := rfl
@[simp] theorem pop_y (s : State) : ((pop s).2).y = s.y := rfl
@[simp] theorem pop_sp (s : State) : ((pop s).2).sp = s.sp + 1 := rfl
@[simp] theorem pop_pc (s : State) : ((pop s).2).pc = s.pc := rfl
@[simp] theorem pop_p (s : State) : ((pop s).2).p = s.p := rfl
@[simp] theorem pop_cyclesLeft (s : State) : ((pop s).2).cyclesLeft = s.cyclesLeft := rfl
@[simp] theorem pop_lastOpCode (s : State) : ((pop s).2).lastOpCode = s.lastOpCode := rfl
@[simp] theorem pop_lastAddrMode (s : State) : ((pop s).2).lastAddrMode = s.lastAddrMode := rfl
@[simp] theorem pop_lastArg (s : State) : ((pop s).2).lastArg = s.lastArg := rfl
@[simp] theorem pop_pageBoundary (s : State) : ((pop s).2).pageBoundary = s.pageBoundary := rfl
@[simp] theorem pop_softIrq (s : State) : ((pop s).2).softIrq = s.softIrq := rfl
@[simp] theorem pop_lastRTS (s : State) : ((pop s).2).lastRTS = s.lastRTS := rfl
@[simp] theorem pop_irqPending (s : State) : ((pop s).2).irqPending = s.irqPending := rfl
@[simp] theorem pop_exitAtLastRTS (s : State) : ((pop s).2).exitAtLastRTS = s.exitAtLastRTS := rfl
@[simp] theorem pop_bus (s : State) : ((pop s).2).bus = (s.bus.read (stackAddr (s.sp + 1))).2 := rfl

@[simp] theorem memRead_val (w : Addr) (s : State) : (memRead w s).1 = (s.bus.read w).1 := rfl
@[simp] theorem pop_val (s : State) : (pop s).1 = (s.bus.read (stackAddr (s.sp + 1))).1 := rfl

end Sys2Proof.Machine
end

