-- ==== Sys2Proof/Laws/Ops.lean ====
section
/-! SUPPORT. Once for each shared operation: everything it can do. The shape lemmas write the state after an operation as a
record update of the state before, so that its frame is read off. -/

namespace Sys2Proof.Machine

/-! ## Bits -/

theorem getLsbD_join (h l : Byte) (k : Nat) :
    (join h l).getLsbD k = if k < 8 then l.getLsbD k else h.getLsbD (k - 8) := by
  have key : (join h l).getLsbD k = _ := BitVec.getLsbD_append (x := h) (y := l) (i := k)
  rw [key]

@[simp] theorem lo_join (h l : Byte) : lo (join h l) = l := by
  apply BitVec.eq_of_getLsbD_eq
  intro k hk
  rw [lo, BitVec.getLsbD_extractLsb', getLsbD_join]
  simp [hk]

@[simp] theorem hi_join (h l : Byte) : hi (join h l) = h := by
  apply BitVec.eq_of_getLsbD_eq
  intro k hk
  rw [hi, BitVec.getLsbD_extractLsb', getLsbD_join]
  simp [hk]

@[simp] theorem join_hi_lo (w : Addr) : join (hi w) (lo w) = w := by
  apply BitVec.eq_of_getLsbD_eq
  intro k hk
  rw [getLsbD_join, hi, lo, BitVec.getLsbD_extractLsb', BitVec.getLsbD_extractLsb']
  by_cases h : k < 8
  · simp [h]
  · simp [h, show k - 8 < 8 by omega, show 8 + (k - 8) = k by omega]

/-- `{h, l}` is `h * 256 + l` (R5). -/
theorem toNat_join (h l : Byte) : (join h l).toNat = h.toNat * 256 + l.toNat := by
  have := BitVec.toNat_append h l
  rw [join, this, ← Nat.shiftLeft_add_eq_or_of_lt l.isLt, Nat.shiftLeft_eq]

/-! ## The stack -/

/-- A return address is pushed high byte first. -/
theorem pushWord_eq (w : Addr) (s : State) :
    pushWord w s = { s with
      sp := s.sp - 1 - 1
      bus := (s.bus.write (stackAddr s.sp) (hi w)).write (stackAddr (s.sp - 1)) (lo w) } := rfl

/-- A return address is popped low byte first. -/
theorem popWord_eq (s : State) :
    popWord s =
      (join ((s.bus.read (stackAddr (s.sp + 1))).2.read (stackAddr (s.sp + 1 + 1))).1 (s.bus.read (stackAddr (s.sp + 1))).1,
       { s with
         sp := s.sp + 1 + 1
         bus := ((s.bus.read (stackAddr (s.sp + 1))).2.read (stackAddr (s.sp + 1 + 1))).2 }) := rfl

/-! ## Exceptions -/

/-- Everything taking an exception does (R259). -/
theorem takeException_eq (ret : Addr) (status : Byte) (s : State) :
    takeException ret status s =
      let b := ((s.bus.write (stackAddr s.sp) (hi ret)).write (stackAddr (s.sp - 1)) (lo ret)).write
        (stackAddr (s.sp - 1 - 1)) status
      { s with
        sp := s.sp - 1 - 1 - 1
        p := putFlag s.p .i true
        pc := join (b.fetch (Config.vecIrq + 1)) (b.fetch Config.vecIrq)
        bus := b } := by
  simp only [takeException, pushWord, push, memWrite, memFetch16, memFetch]

/-- Everything returning from one does (R260). -/
theorem returnFromException_eq (s : State) :
    returnFromException s =
      let b0 := s.bus.read (stackAddr (s.sp + 1))
      let b1 := b0.2.read (stackAddr (s.sp + 1 + 1))
      let b2 := b1.2.read (stackAddr (s.sp + 1 + 1 + 1))
      { s with
        sp := s.sp + 1 + 1 + 1
        p := putFlag b0.1 .i false
        pc := join b2.1 b1.1
        bus := b2.2 } := rfl

theorem takeException_wf (ret : Addr) (status : Byte) (s : State) (h : s.bus.mem.wf = true) :
    (takeException ret status s).bus.mem.wf = true :=
  Bus.write_wf _ _ _ (Bus.write_wf _ _ _ (Bus.write_wf _ _ _ h))

theorem returnFromException_wf (s : State) (h : s.bus.mem.wf = true) : (returnFromException s).bus.mem.wf = true :=
  Bus.read_wf _ _ (Bus.read_wf _ _ (Bus.read_wf _ _ h))

theorem pushWord_wf (w : Addr) (s : State) (h : s.bus.mem.wf = true) : (pushWord w s).bus.mem.wf = true :=
  Bus.write_wf _ _ _ (Bus.write_wf _ _ _ h)

theorem popWord_wf (s : State) (h : s.bus.mem.wf = true) : (popWord s).2.bus.mem.wf = true :=
  Bus.read_wf _ _ (Bus.read_wf _ _ h)

/-- The BRK sequence is taking an exception with the address of the second byte after the opcode and bit 4 of the stacked
status set, and `SoftIrq` (R232). -/
theorem brkSequence_eq (s : State) :
    brkSequence s = { takeException (s.pc + 1) (statusWithBreak s.p) s with softIrq := true } := by
  have : s.pc - 1 + Config.brkReturnOffset = s.pc + 1 := by simp only [Config.brkReturnOffset]; bv_omega
  simp only [brkSequence, raiseSoftTrap, this]

/-- IRQ entry is taking an exception with `PC` itself and bit 4 of the stacked status clear, and the latch cleared (R256). -/
theorem irqEntry_eq (s : State) :
    irqEntry s = { takeException s.pc (statusWithoutBreak s.p) s with irqPending := false } := by
  simp [irqEntry, Config.irqReturnOffset]

/-! ## The start of an instruction -/

/-- A masked request is held (D18). -/
@[simp] theorem State.maskedIrq_eq (s : State) : s.maskedIrq = s := rfl

end Sys2Proof.Machine
end

