-- ==== Sys2Proof/Laws/Decode.lean ====
section
/-! SUPPORT. The opcode table's shape, and reading the bytes of the instruction at `PC`. -/

namespace Sys2Proof

theorem opcodeRow0_length : opcodeRow0.length = 16 := rfl
theorem opcodeRow1_length : opcodeRow1.length = 16 := rfl
theorem opcodeRow2_length : opcodeRow2.length = 16 := rfl
theorem opcodeRow3_length : opcodeRow3.length = 16 := rfl
theorem opcodeRow4_length : opcodeRow4.length = 16 := rfl
theorem opcodeRow5_length : opcodeRow5.length = 16 := rfl
theorem opcodeRow6_length : opcodeRow6.length = 16 := rfl
theorem opcodeRow7_length : opcodeRow7.length = 16 := rfl
theorem opcodeRow8_length : opcodeRow8.length = 16 := rfl
theorem opcodeRow9_length : opcodeRow9.length = 16 := rfl
theorem opcodeRowA_length : opcodeRowA.length = 16 := rfl
theorem opcodeRowB_length : opcodeRowB.length = 16 := rfl
theorem opcodeRowC_length : opcodeRowC.length = 16 := rfl
theorem opcodeRowD_length : opcodeRowD.length = 16 := rfl
theorem opcodeRowE_length : opcodeRowE.length = 16 := rfl
theorem opcodeRowF_length : opcodeRowF.length = 16 := rfl

/-- The table has one entry for each of the 256 opcode values (R74). -/
theorem opcodeTable_length : opcodeTable.length = 256 := by
  simp only [opcodeTable, List.length_append, opcodeRow0_length, opcodeRow1_length, opcodeRow2_length, opcodeRow3_length, opcodeRow4_length, opcodeRow5_length,
    opcodeRow6_length, opcodeRow7_length, opcodeRow8_length, opcodeRow9_length, opcodeRowA_length, opcodeRowB_length,
    opcodeRowC_length, opcodeRowD_length, opcodeRowE_length, opcodeRowF_length]

/-- The default of the table look-up is never used (R75). -/
theorem opcodeEntry_eq (op : Byte) :
    opcodeEntry op = opcodeTable[op.toNat]'(by rw [opcodeTable_length]; exact op.isLt) := by
  unfold opcodeEntry
  rw [List.getD_eq_getElem]

/-- Every entry of the table has a property that 256 checks establish. -/
theorem opcodeEntry_forall (P : Entry → Prop) (h : ∀ e ∈ opcodeTable, P e) (op : Byte) : P (opcodeEntry op) := by
  rw [opcodeEntry_eq]
  exact h _ (List.getElem_mem _)

/-- A list that starts with the instruction's bytes decodes to it, whatever follows: the decoder of three bytes and the
decoder of a list agree. -/
theorem decode_cons (b0 : Byte) (rest : List Byte) :
    decode (b0 :: rest) =
      match (opcodeEntry b0).mode.length, rest with
      | 1, rest => .ok (decodeBytes b0 0 0, rest)
      | 2, b1 :: rest => .ok (decodeBytes b0 b1 0, rest)
      | 3, b1 :: b2 :: rest => .ok (decodeBytes b0 b1 b2, rest)
      | _, _ => .error (.operandBytesMissing b0) := rfl

/-! ## The table against the encoder's tables

The 256 entries were written row by row by opcode value, the encoder's opcodes column by column by mnemonic and mode. -/

/-- The instruction the decoder reads behind an opcode byte is well-formed, has that opcode by the encoder's tables, has the
entry's mode, and depends on no byte past its length. -/
def DecodesTo (op : Byte) : Prop :=
  ∀ b1 b2 : Byte, (decodeBytes op b1 b2).WellFormed ∧ (decodeBytes op b1 b2).opcode = some op ∧
    (decodeBytes op b1 b2).mode = (opcodeEntry op).mode ∧
    decodeBytes op b1 b2 =
      match (opcodeEntry op).mode.length with
      | 1 => decodeBytes op 0 0
      | 2 => decodeBytes op b1 0
      | _ => decodeBytes op b1 b2

theorem AddrMode.length_cases (m : AddrMode) : m.length = 1 ∨ m.length = 2 ∨ m.length = 3 := by
  cases m <;> simp [AddrMode.length]

theorem decodesTo_row0 : ∀ k < 16, DecodesTo (BitVec.ofNat 8 (0 + k)) := by
  intro k hk
  interval_cases k <;> exact fun _ _ => ⟨rfl, rfl, rfl, rfl⟩

theorem decodesTo_row1 : ∀ k < 16, DecodesTo (BitVec.ofNat 8 (16 + k)) := by
  intro k hk
  interval_cases k <;> exact fun _ _ => ⟨rfl, rfl, rfl, rfl⟩

theorem decodesTo_row2 : ∀ k < 16, DecodesTo (BitVec.ofNat 8 (32 + k)) := by
  intro k hk
  interval_cases k <;> exact fun _ _ => ⟨rfl, rfl, rfl, rfl⟩

theorem decodesTo_row3 : ∀ k < 16, DecodesTo (BitVec.ofNat 8 (48 + k)) := by
  intro k hk
  interval_cases k <;> exact fun _ _ => ⟨rfl, rfl, rfl, rfl⟩

theorem decodesTo_row4 : ∀ k < 16, DecodesTo (BitVec.ofNat 8 (64 + k)) := by
  intro k hk
  interval_cases k <;> exact fun _ _ => ⟨rfl, rfl, rfl, rfl⟩

theorem decodesTo_row5 : ∀ k < 16, DecodesTo (BitVec.ofNat 8 (80 + k)) := by
  intro k hk
  interval_cases k <;> exact fun _ _ => ⟨rfl, rfl, rfl, rfl⟩

theorem decodesTo_row6 : ∀ k < 16, DecodesTo (BitVec.ofNat 8 (96 + k)) := by
  intro k hk
  interval_cases k <;> exact fun _ _ => ⟨rfl, rfl, rfl, rfl⟩

theorem decodesTo_row7 : ∀ k < 16, DecodesTo (BitVec.ofNat 8 (112 + k)) := by
  intro k hk
  interval_cases k <;> exact fun _ _ => ⟨rfl, rfl, rfl, rfl⟩

theorem decodesTo_row8 : ∀ k < 16, DecodesTo (BitVec.ofNat 8 (128 + k)) := by
  intro k hk
  interval_cases k <;> exact fun _ _ => ⟨rfl, rfl, rfl, rfl⟩

theorem decodesTo_row9 : ∀ k < 16, DecodesTo (BitVec.ofNat 8 (144 + k)) := by
  intro k hk
  interval_cases k <;> exact fun _ _ => ⟨rfl, rfl, rfl, rfl⟩

theorem decodesTo_rowA : ∀ k < 16, DecodesTo (BitVec.ofNat 8 (160 + k)) := by
  intro k hk
  interval_cases k <;> exact fun _ _ => ⟨rfl, rfl, rfl, rfl⟩

theorem decodesTo_rowB : ∀ k < 16, DecodesTo (BitVec.ofNat 8 (176 + k)) := by
  intro k hk
  interval_cases k <;> exact fun _ _ => ⟨rfl, rfl, rfl, rfl⟩

theorem decodesTo_rowC : ∀ k < 16, DecodesTo (BitVec.ofNat 8 (192 + k)) := by
  intro k hk
  interval_cases k <;> exact fun _ _ => ⟨rfl, rfl, rfl, rfl⟩

theorem decodesTo_rowD : ∀ k < 16, DecodesTo (BitVec.ofNat 8 (208 + k)) := by
  intro k hk
  interval_cases k <;> exact fun _ _ => ⟨rfl, rfl, rfl, rfl⟩

theorem decodesTo_rowE : ∀ k < 16, DecodesTo (BitVec.ofNat 8 (224 + k)) := by
  intro k hk
  interval_cases k <;> exact fun _ _ => ⟨rfl, rfl, rfl, rfl⟩

theorem decodesTo_rowF : ∀ k < 16, DecodesTo (BitVec.ofNat 8 (240 + k)) := by
  intro k hk
  interval_cases k <;> exact fun _ _ => ⟨rfl, rfl, rfl, rfl⟩

theorem decodesTo (op : Byte) : DecodesTo op := by
  have key : ∀ r < 16, ∀ k < 16, DecodesTo (BitVec.ofNat 8 (16 * r + k)) := by
    intro r hr
    interval_cases r
    · exact decodesTo_row0
    · exact decodesTo_row1
    · exact decodesTo_row2
    · exact decodesTo_row3
    · exact decodesTo_row4
    · exact decodesTo_row5
    · exact decodesTo_row6
    · exact decodesTo_row7
    · exact decodesTo_row8
    · exact decodesTo_row9
    · exact decodesTo_rowA
    · exact decodesTo_rowB
    · exact decodesTo_rowC
    · exact decodesTo_rowD
    · exact decodesTo_rowE
    · exact decodesTo_rowF
  have := key (op.toNat / 16) (by have := op.isLt; omega) (op.toNat % 16) (by omega)
  rwa [show 16 * (op.toNat / 16) + op.toNat % 16 = op.toNat by omega, BitVec.ofNat_toNat, BitVec.setWidth_eq] at this

theorem decodeBytes_wellFormed (op b1 b2 : Byte) : (decodeBytes op b1 b2).WellFormed := (decodesTo op b1 b2).1

theorem decodeBytes_opcode (op b1 b2 : Byte) : (decodeBytes op b1 b2).opcode = some op := (decodesTo op b1 b2).2.1

theorem decodeBytes_mode (op b1 b2 : Byte) : (decodeBytes op b1 b2).mode = (opcodeEntry op).mode := (decodesTo op b1 b2).2.2.1

/-- The three-byte window and the list decoder read the same instruction. -/
theorem decodeBytes_of_decode (b0 b1 b2 : Byte) (i : Instr) (rest : List Byte)
    (h : decode [b0, b1, b2] = .ok (i, rest)) : decodeBytes b0 b1 b2 = i := by
  have hd := (decodesTo b0 b1 b2).2.2.2
  rw [decode_cons] at h
  rcases AddrMode.length_cases (opcodeEntry b0).mode with h1 | h1 | h1 <;> rw [h1] at h hd <;>
    simp only [Except.ok.injEq, Prod.mk.injEq] at h hd
  · exact hd.trans h.1
  · exact hd.trans h.1
  · exact h.1

end Sys2Proof
end

