-- ==== Sys2Proof/Laws/Operands.lean ====
section
/-! SUPPORT. Once for the resolver and each operand helper: what it changes and what it leaves. -/

namespace Sys2Proof.Machine

/-! The resolver of a memory operand: registers and flags as before, `PC` past the operand bytes. -/

@[simp] theorem resolveMem_a (m : MemOperand) (s : State) : ((resolveMem m s).2).a = s.a := by cases m <;> rfl
@[simp] theorem resolveMem_x (m : MemOperand) (s : State) : ((resolveMem m s).2).x = s.x := by cases m <;> rfl
@[simp] theorem resolveMem_y (m : MemOperand) (s : State) : ((resolveMem m s).2).y = s.y := by cases m <;> rfl
@[simp] theorem resolveMem_sp (m : MemOperand) (s : State) : ((resolveMem m s).2).sp = s.sp := by cases m <;> rfl
@[simp] theorem resolveMem_p (m : MemOperand) (s : State) : ((resolveMem m s).2).p = s.p := by cases m <;> rfl
@[simp] theorem resolveMem_cyclesLeft (m : MemOperand) (s : State) : ((resolveMem m s).2).cyclesLeft = s.cyclesLeft := by cases m <;> rfl
@[simp] theorem resolveMem_lastOpCode (m : MemOperand) (s : State) : ((resolveMem m s).2).lastOpCode = s.lastOpCode := by cases m <;> rfl
@[simp] theorem resolveMem_softIrq (m : MemOperand) (s : State) : ((resolveMem m s).2).softIrq = s.softIrq := by cases m <;> rfl
@[simp] theorem resolveMem_lastRTS (m : MemOperand) (s : State) : ((resolveMem m s).2).lastRTS = s.lastRTS := by cases m <;> rfl
@[simp] theorem resolveMem_irqPending (m : MemOperand) (s : State) : ((resolveMem m s).2).irqPending = s.irqPending := by cases m <;> rfl
@[simp] theorem resolveMem_exitAtLastRTS (m : MemOperand) (s : State) : ((resolveMem m s).2).exitAtLastRTS = s.exitAtLastRTS := by cases m <;> rfl
@[simp] theorem resolveMem_pc (m : MemOperand) (s : State) : ((resolveMem m s).2).pc = s.pc + BitVec.ofNat 16 (m.mode.length - 1) := by cases m <;> rfl
@[simp] theorem resolveMem_lastAddrMode (m : MemOperand) (s : State) : ((resolveMem m s).2).lastAddrMode = m.mode := by cases m <;> rfl

/-! The resolver of JMP's operand. -/

@[simp] theorem resolveJump_a (o : JumpOperand) (s : State) : ((resolveJump o s).2).a = s.a := by cases o <;> rfl
@[simp] theorem resolveJump_x (o : JumpOperand) (s : State) : ((resolveJump o s).2).x = s.x := by cases o <;> rfl
@[simp] theorem resolveJump_y (o : JumpOperand) (s : State) : ((resolveJump o s).2).y = s.y := by cases o <;> rfl
@[simp] theorem resolveJump_sp (o : JumpOperand) (s : State) : ((resolveJump o s).2).sp = s.sp := by cases o <;> rfl
@[simp] theorem resolveJump_p (o : JumpOperand) (s : State) : ((resolveJump o s).2).p = s.p := by cases o <;> rfl
@[simp] theorem resolveJump_cyclesLeft (o : JumpOperand) (s : State) : ((resolveJump o s).2).cyclesLeft = s.cyclesLeft := by cases o <;> rfl
@[simp] theorem resolveJump_lastOpCode (o : JumpOperand) (s : State) : ((resolveJump o s).2).lastOpCode = s.lastOpCode := by cases o <;> rfl
@[simp] theorem resolveJump_softIrq (o : JumpOperand) (s : State) : ((resolveJump o s).2).softIrq = s.softIrq := by cases o <;> rfl
@[simp] theorem resolveJump_lastRTS (o : JumpOperand) (s : State) : ((resolveJump o s).2).lastRTS = s.lastRTS := by cases o <;> rfl
@[simp] theorem resolveJump_irqPending (o : JumpOperand) (s : State) : ((resolveJump o s).2).irqPending = s.irqPending := by cases o <;> rfl
@[simp] theorem resolveJump_exitAtLastRTS (o : JumpOperand) (s : State) : ((resolveJump o s).2).exitAtLastRTS = s.exitAtLastRTS := by cases o <;> rfl
@[simp] theorem resolveJump_pc (o : JumpOperand) (s : State) : ((resolveJump o s).2).pc = s.pc + BitVec.ofNat 16 (o.mode.length - 1) := by cases o <;> rfl
@[simp] theorem resolveJump_lastAddrMode (o : JumpOperand) (s : State) : ((resolveJump o s).2).lastAddrMode = o.mode := by cases o <;> rfl

/-! `ReadOperand`: only the penalty beside what the resolver does. -/

@[simp] theorem readOperand_a (o : ReadOperand) (s : State) : ((readOperand o s).2).a = s.a := by rcases o with b | m <;> simp [readOperand]
@[simp] theorem readOperand_x (o : ReadOperand) (s : State) : ((readOperand o s).2).x = s.x := by rcases o with b | m <;> simp [readOperand]
@[simp] theorem readOperand_y (o : ReadOperand) (s : State) : ((readOperand o s).2).y = s.y := by rcases o with b | m <;> simp [readOperand]
@[simp] theorem readOperand_sp (o : ReadOperand) (s : State) : ((readOperand o s).2).sp = s.sp := by rcases o with b | m <;> simp [readOperand]
@[simp] theorem readOperand_p (o : ReadOperand) (s : State) : ((readOperand o s).2).p = s.p := by rcases o with b | m <;> simp [readOperand]
@[simp] theorem readOperand_lastOpCode (o : ReadOperand) (s : State) : ((readOperand o s).2).lastOpCode = s.lastOpCode := by rcases o with b | m <;> simp [readOperand]
@[simp] theorem readOperand_softIrq (o : ReadOperand) (s : State) : ((readOperand o s).2).softIrq = s.softIrq := by rcases o with b | m <;> simp [readOperand]
@[simp] theorem readOperand_lastRTS (o : ReadOperand) (s : State) : ((readOperand o s).2).lastRTS = s.lastRTS := by rcases o with b | m <;> simp [readOperand]
@[simp] theorem readOperand_irqPending (o : ReadOperand) (s : State) : ((readOperand o s).2).irqPending = s.irqPending := by rcases o with b | m <;> simp [readOperand]
@[simp] theorem readOperand_exitAtLastRTS (o : ReadOperand) (s : State) : ((readOperand o s).2).exitAtLastRTS = s.exitAtLastRTS := by rcases o with b | m <;> simp [readOperand]
@[simp] theorem readOperand_pc (o : ReadOperand) (s : State) : ((readOperand o s).2).pc = s.pc + BitVec.ofNat 16 (o.mode.length - 1) := by
  rcases o with b | m <;> simp [readOperand, ReadOperand.mode]
@[simp] theorem readOperand_lastAddrMode (o : ReadOperand) (s : State) : ((readOperand o s).2).lastAddrMode = o.mode := by
  rcases o with b | m <;> simp [readOperand, ReadOperand.mode]

/-! A store: only the byte written beside what the resolver does. -/

@[simp] theorem storeOperand_a (m : MemOperand) (v : Byte) (s : State) : (storeOperand m v s).a = s.a := by simp [storeOperand]
@[simp] theorem storeOperand_x (m : MemOperand) (v : Byte) (s : State) : (storeOperand m v s).x = s.x := by simp [storeOperand]
@[simp] theorem storeOperand_y (m : MemOperand) (v : Byte) (s : State) : (storeOperand m v s).y = s.y := by simp [storeOperand]
@[simp] theorem storeOperand_sp (m : MemOperand) (v : Byte) (s : State) : (storeOperand m v s).sp = s.sp := by simp [storeOperand]
@[simp] theorem storeOperand_p (m : MemOperand) (v : Byte) (s : State) : (storeOperand m v s).p = s.p := by simp [storeOperand]
@[simp] theorem storeOperand_cyclesLeft (m : MemOperand) (v : Byte) (s : State) : (storeOperand m v s).cyclesLeft = s.cyclesLeft := by simp [storeOperand]
@[simp] theorem storeOperand_lastOpCode (m : MemOperand) (v : Byte) (s : State) : (storeOperand m v s).lastOpCode = s.lastOpCode := by simp [storeOperand]
@[simp] theorem storeOperand_softIrq (m : MemOperand) (v : Byte) (s : State) : (storeOperand m v s).softIrq = s.softIrq := by simp [storeOperand]
@[simp] theorem storeOperand_lastRTS (m : MemOperand) (v : Byte) (s : State) : (storeOperand m v s).lastRTS = s.lastRTS := by simp [storeOperand]
@[simp] theorem storeOperand_irqPending (m : MemOperand) (v : Byte) (s : State) : (storeOperand m v s).irqPending = s.irqPending := by simp [storeOperand]
@[simp] theorem storeOperand_exitAtLastRTS (m : MemOperand) (v : Byte) (s : State) : (storeOperand m v s).exitAtLastRTS = s.exitAtLastRTS := by simp [storeOperand]
@[simp] theorem storeOperand_pc (m : MemOperand) (v : Byte) (s : State) : (storeOperand m v s).pc = s.pc + BitVec.ofNat 16 (m.mode.length - 1) := by
  simp [storeOperand]
@[simp] theorem storeOperand_lastAddrMode (m : MemOperand) (v : Byte) (s : State) : (storeOperand m v s).lastAddrMode = m.mode := by
  simp [storeOperand]

/-! `Modify`: in mode ACC the accumulator, else one read and one write. -/

@[simp] theorem modifyOperand_x (o : ModifyOperand) (f : Byte → Byte) (s : State) : ((modifyOperand o f s).2).x = s.x := by rcases o with _ | m <;> simp [modifyOperand]
@[simp] theorem modifyOperand_y (o : ModifyOperand) (f : Byte → Byte) (s : State) : ((modifyOperand o f s).2).y = s.y := by rcases o with _ | m <;> simp [modifyOperand]
@[simp] theorem modifyOperand_sp (o : ModifyOperand) (f : Byte → Byte) (s : State) : ((modifyOperand o f s).2).sp = s.sp := by rcases o with _ | m <;> simp [modifyOperand]
@[simp] theorem modifyOperand_p (o : ModifyOperand) (f : Byte → Byte) (s : State) : ((modifyOperand o f s).2).p = s.p := by rcases o with _ | m <;> simp [modifyOperand]
@[simp] theorem modifyOperand_cyclesLeft (o : ModifyOperand) (f : Byte → Byte) (s : State) : ((modifyOperand o f s).2).cyclesLeft = s.cyclesLeft := by rcases o with _ | m <;> simp [modifyOperand]
@[simp] theorem modifyOperand_lastOpCode (o : ModifyOperand) (f : Byte → Byte) (s : State) : ((modifyOperand o f s).2).lastOpCode = s.lastOpCode := by rcases o with _ | m <;> simp [modifyOperand]
@[simp] theorem modifyOperand_softIrq (o : ModifyOperand) (f : Byte → Byte) (s : State) : ((modifyOperand o f s).2).softIrq = s.softIrq := by rcases o with _ | m <;> simp [modifyOperand]
@[simp] theorem modifyOperand_lastRTS (o : ModifyOperand) (f : Byte → Byte) (s : State) : ((modifyOperand o f s).2).lastRTS = s.lastRTS := by rcases o with _ | m <;> simp [modifyOperand]
@[simp] theorem modifyOperand_irqPending (o : ModifyOperand) (f : Byte → Byte) (s : State) : ((modifyOperand o f s).2).irqPending = s.irqPending := by rcases o with _ | m <;> simp [modifyOperand]
@[simp] theorem modifyOperand_exitAtLastRTS (o : ModifyOperand) (f : Byte → Byte) (s : State) : ((modifyOperand o f s).2).exitAtLastRTS = s.exitAtLastRTS := by rcases o with _ | m <;> simp [modifyOperand]
@[simp] theorem modifyOperand_pc (o : ModifyOperand) (f : Byte → Byte) (s : State) : ((modifyOperand o f s).2).pc = s.pc + BitVec.ofNat 16 (o.mode.length - 1) := by
  rcases o with _ | m <;> simp [modifyOperand, ModifyOperand.mode, AddrMode.length]
@[simp] theorem modifyOperand_lastAddrMode (o : ModifyOperand) (f : Byte → Byte) (s : State) : ((modifyOperand o f s).2).lastAddrMode = o.mode := by
  rcases o with _ | m <;> simp [modifyOperand, ModifyOperand.mode]
@[simp] theorem modifyOperand_a (o : ModifyOperand) (f : Byte → Byte) (s : State) : ((modifyOperand o f s).2).a = (match o with | .acc => f s.a | .mem _ => s.a) := by
  rcases o with _ | m <;> simp [modifyOperand]

/-! A branch changes `PC`, `CyclesLeft` and the record of the resolution. -/

@[simp] theorem branch_a (c : Bool) (d : Byte) (s : State) : (branch c d s).a = s.a := by cases c <;> rfl
@[simp] theorem branch_x (c : Bool) (d : Byte) (s : State) : (branch c d s).x = s.x := by cases c <;> rfl
@[simp] theorem branch_y (c : Bool) (d : Byte) (s : State) : (branch c d s).y = s.y := by cases c <;> rfl
@[simp] theorem branch_sp (c : Bool) (d : Byte) (s : State) : (branch c d s).sp = s.sp := by cases c <;> rfl
@[simp] theorem branch_p (c : Bool) (d : Byte) (s : State) : (branch c d s).p = s.p := by cases c <;> rfl
@[simp] theorem branch_lastOpCode (c : Bool) (d : Byte) (s : State) : (branch c d s).lastOpCode = s.lastOpCode := by cases c <;> rfl
@[simp] theorem branch_softIrq (c : Bool) (d : Byte) (s : State) : (branch c d s).softIrq = s.softIrq := by cases c <;> rfl
@[simp] theorem branch_lastRTS (c : Bool) (d : Byte) (s : State) : (branch c d s).lastRTS = s.lastRTS := by cases c <;> rfl
@[simp] theorem branch_irqPending (c : Bool) (d : Byte) (s : State) : (branch c d s).irqPending = s.irqPending := by cases c <;> rfl
@[simp] theorem branch_exitAtLastRTS (c : Bool) (d : Byte) (s : State) : (branch c d s).exitAtLastRTS = s.exitAtLastRTS := by cases c <;> rfl
@[simp] theorem branch_bus (c : Bool) (d : Byte) (s : State) : (branch c d s).bus = s.bus := by cases c <;> rfl
@[simp] theorem branch_lastAddrMode (c : Bool) (d : Byte) (s : State) : (branch c d s).lastAddrMode = .rel := by cases c <;> rfl

/-! The canonical form of memory is kept. -/

theorem readPointer_wf (low high : Addr) (s : State) (h : s.bus.mem.wf = true) :
    (readPointer low high s).2.bus.mem.wf = true :=
  Bus.read_wf _ _ (Bus.read_wf _ _ h)

theorem resolveMem_wf (m : MemOperand) (s : State) (h : s.bus.mem.wf = true) : (resolveMem m s).2.bus.mem.wf = true := by
  cases m with
  | izx b => exact readPointer_wf _ _ s h
  | izy b => exact readPointer_wf _ _ s h
  | _ => exact h

theorem resolveJump_wf (o : JumpOperand) (s : State) (h : s.bus.mem.wf = true) :
    (resolveJump o s).2.bus.mem.wf = true := by
  cases o with
  | abs w => exact h
  | ind w => exact readPointer_wf _ _ s h

theorem readOperand_wf (o : ReadOperand) (s : State) (h : s.bus.mem.wf = true) : (readOperand o s).2.bus.mem.wf = true := by
  cases o with
  | imm b => exact h
  | mem m => exact Bus.read_wf _ _ (resolveMem_wf m s h)

theorem storeOperand_wf (m : MemOperand) (v : Byte) (s : State) (h : s.bus.mem.wf = true) :
    (storeOperand m v s).bus.mem.wf = true :=
  Bus.write_wf _ _ _ (resolveMem_wf m s h)

theorem modifyOperand_wf (o : ModifyOperand) (f : Byte → Byte) (s : State) (h : s.bus.mem.wf = true) :
    (modifyOperand o f s).2.bus.mem.wf = true := by
  cases o with
  | acc => exact h
  | mem m => exact Bus.write_wf _ _ _ (Bus.read_wf _ _ (resolveMem_wf m s h))

/-! The penalties (R135, R136). -/

theorem readOperand_cyclesLeft (o : ReadOperand) (s : State) :
    (readOperand o s).2.cyclesLeft = s.cyclesLeft + (readOperand o s).2.pageBoundary.toNat := by
  rcases o with b | m <;> simp [readOperand]

theorem branch_cyclesLeft (c : Bool) (d : Byte) (s : State) :
    (branch c d s).cyclesLeft = s.cyclesLeft + if c then branchPenalty (branch c d s).pageBoundary else 0 := by
  cases c <;> simp [branch, resolveRel]

/-- A page boundary can be crossed by the modes ABX, ABY and IZY only (R135). -/
theorem resolveMem_pageBoundary (m : MemOperand) (s : State) (h : (resolveMem m s).2.pageBoundary = true) :
    m.mode = .abx ∨ m.mode = .aby ∨ m.mode = .izy := by
  cases m <;> simp_all [resolveMem, MemOperand.mode]

end Sys2Proof.Machine
end

