-- ==== Sys2Proof/Laws/Flags.lean ====
section
/-! SUPPORT. Reading a flag after writing one, and what the flag-writing functions leave alone. -/

namespace Sys2Proof.Machine

theorem Flag.bit_lt (f : Flag) : f.bit < 8 := by cases f <;> decide

theorem Flag.bit_injective {f g : Flag} (h : f.bit = g.bit) : f = g := by
  cases f <;> cases g <;> first | rfl | exact absurd h (by decide)

theorem Flag.getLsbD_mask (f : Flag) (k : Nat) : f.mask.getLsbD k = decide (k = f.bit) := by
  by_cases h : k < 8
  · cases f <;> interval_cases k <;> decide
  · rw [BitVec.getLsbD_of_ge _ _ (by omega)]
    have hk : k ≠ f.bit := fun e => h (e ▸ f.bit_lt)
    simp [hk]

/-- Bit by bit: a flag write replaces the flag's bit and keeps the others. -/
theorem getLsbD_putFlag (p : Byte) (f : Flag) (v : Bool) (k : Nat) :
    (putFlag p f v).getLsbD k = if k = f.bit then v else p.getLsbD k := by
  have hf := f.bit_lt
  by_cases hk : k = f.bit
  · cases v <;> simp only [putFlag, Bool.false_eq_true, if_true, if_false, BitVec.getLsbD_or, BitVec.getLsbD_and,
      BitVec.getLsbD_not, Flag.getLsbD_mask, hk] <;> simp
  · cases v <;> simp only [putFlag, Bool.false_eq_true, if_true, if_false, BitVec.getLsbD_or, BitVec.getLsbD_and,
      BitVec.getLsbD_not, Flag.getLsbD_mask, hk] <;> simp
    exact fun h => BitVec.lt_of_getLsbD h

@[simp] theorem getFlag_putFlag_same (p : Byte) (f : Flag) (v : Bool) : getFlag (putFlag p f v) f = v := by
  simp [getFlag, getLsbD_putFlag]

theorem getFlag_putFlag (p : Byte) (f g : Flag) (v : Bool) :
    getFlag (putFlag p f v) g = if g = f then v else getFlag p g := by
  unfold getFlag
  rw [getLsbD_putFlag]
  by_cases h : g = f
  · simp [h]
  · have : g.bit ≠ f.bit := fun e => h (Flag.bit_injective e)
    simp [h, this]

theorem getFlag_setNZ (v p : Byte) (g : Flag) :
    getFlag (setNZ v p) g = if g = .n then v.msb else if g = .z then v == 0 else getFlag p g := by
  simp only [setNZ, getFlag_putFlag]

theorem getFlag_setCNZ (c : Bool) (r p : Byte) (g : Flag) :
    getFlag (setCNZ c r p) g =
      if g = .n then r.msb else if g = .z then r == 0 else if g = .c then c else getFlag p g := by
  simp only [setCNZ, getFlag_setNZ, getFlag_putFlag]

theorem getFlag_setFlags (o : AddResult) (p : Byte) (g : Flag) :
    getFlag (o.setFlags p) g =
      if g = .n then o.n else if g = .z then o.z else if g = .v then o.v else if g = .c then o.c else getFlag p g := by
  simp only [AddResult.setFlags, getFlag_putFlag]

theorem getFlag_bitFlags (a m p : Byte) (g : Flag) :
    getFlag (bitFlags a m p) g =
      if g = .v then m.getLsbD 6 else if g = .n then m.getLsbD 7 else if g = .z then (a &&& m) == 0 else getFlag p g := by
  simp only [bitFlags, getFlag_putFlag]

/-- Two status bytes with the same flags are the same byte. -/
theorem eq_of_getFlag {p q : Byte} (h : ∀ f, getFlag p f = getFlag q f) : p = q := by
  apply BitVec.eq_of_getLsbD_eq
  intro k hk
  have hn := h .n; have hv := h .v; have hu := h .u; have hb := h .b
  have hd := h .d; have hi := h .i; have hz := h .z; have hc := h .c
  simp only [getFlag, Flag.bit] at hn hv hu hb hd hi hz hc
  interval_cases k <;> assumption

end Sys2Proof.Machine
end

