-- ==== Sys2Proof/Laws/Step.lean ====
section
/-! SUPPORT. What one step can do: count down, take an interrupt, or run the instruction at `PC`. -/

namespace Sys2Proof.Machine

theorem step_eq_tick (s : State) : step s = tick s := rfl

/-- The state in which the instruction at `PC` is executed. -/
def State.fetched (s : State) : State :=
  let op := memFetch s s.pc
  s.clearStatus.beginInstr op (opcodeEntry op).cycles

/-- Everything a step can do (R132, R258). -/
theorem step_cases (s : State) :
    (s.cyclesLeft ≠ 0 ∧ step s = .next { s with cyclesLeft := s.cyclesLeft - 1 }) ∨
    (s.cyclesLeft = 0 ∧ s.irqPending = true ∧ s.flag .i = false ∧ step s = .next (startIrq s.clearStatus)) ∨
    (s.cyclesLeft = 0 ∧ (s.irqPending = false ∨ s.flag .i = true) ∧ step s = exec (fetchInstr s) s.fetched) := by
  by_cases hc : s.cyclesLeft = 0
  · right
    rcases hp : s.irqPending with _ | _
    · exact .inr ⟨hc, .inl rfl, by simp [step, stepWith, State.overridePC, tick, hc, startInstr, hp]; rfl⟩
    · rcases hi : s.flag .i with _ | _
      · left
        have hi' : s.clearStatus.flag .i = false := hi
        exact ⟨hc, rfl, rfl, by simp [step, stepWith, State.overridePC, tick, hc, startInstr, hp, hi']⟩
      · right
        have hi' : s.clearStatus.flag .i = true := hi
        exact ⟨hc, .inr rfl, by simp [step, stepWith, State.overridePC, tick, hc, startInstr, hi']; rfl⟩
  · exact .inl ⟨hc, by simp [step, stepWith, State.overridePC, tick, hc]⟩

/-! ## Runs -/

theorem run_zero (M : Host.Core) (s : M.State) : M.run 0 s = .next s := rfl

theorem run_succ (M : Host.Core) (k : Nat) (s t : M.State) (h : M.step s = .next t) : M.run (k + 1) s = M.run k t := by
  simp [Host.Core.run, h]

/-- A run no longer than the countdown only counts down (R131). -/
theorem run_countdown (k : Nat) (s : State) (h : k ≤ s.cyclesLeft) :
    Host.Core.run Sys2Proof.core k s = .next { s with cyclesLeft := s.cyclesLeft - k } := by
  induction k generalizing s with
  | zero => rfl
  | succ k ih =>
    have hs : step s = .next { s with cyclesLeft := s.cyclesLeft - 1 } := by
      rcases step_cases s with h' | h' | h'
      · exact h'.2
      · omega
      · omega
    have hk := ih { s with cyclesLeft := s.cyclesLeft - 1 } (show k ≤ s.cyclesLeft - 1 by omega)
    rw [show s.cyclesLeft - (k + 1) = s.cyclesLeft - 1 - k by omega]
    exact (run_succ Sys2Proof.core k s _ hs).trans hk

end Sys2Proof.Machine
end

