-- ==== Sys2Proof/Laws/Exec.lean ====
section
/-! SUPPORT. What every instruction and every step can do to the bus: a sequence of Data reads and writes, so that whatever those
keep is kept; and that every instruction ends in a next state. -/

namespace Sys2Proof.Machine

/-! ## Sequences of accesses -/

/-- The bus `c` is reached from `b` by Data reads, and by Data writes at addresses that meet `P`. -/
inductive BusPath (P : Addr → Prop) (b : Bus) : Bus → Prop
  | refl : BusPath P b b
  | read (c : Bus) (a : Addr) : BusPath P b c → BusPath P b (c.read a).2
  | write (c : Bus) (a : Addr) (v : Byte) : P a → BusPath P b c → BusPath P b (c.write a v)

variable {P Q : Addr → Prop} {b c : Bus}

theorem busPath_of_eq (h : c = b) : BusPath P b c := h ▸ .refl

theorem BusPath.mono (hPQ : ∀ a, P a → Q a) (h : BusPath P b c) : BusPath Q b c := by
  induction h with
  | refl => exact .refl
  | read c a _ ih => exact .read c a ih
  | write c a v hp _ ih => exact .write c a v (hPQ a hp) ih

theorem BusPath.rom_eq (h : BusPath P b c) : c.rom = b.rom := by
  induction h with
  | refl => rfl
  | read c a _ ih => simpa using ih
  | write c a v _ _ ih => simpa using ih

theorem BusPath.devices_eq (h : BusPath P b c) : c.devices = b.devices := by
  induction h with
  | refl => rfl
  | read c a _ ih => simpa using ih
  | write c a v _ _ ih => simpa using ih

theorem BusPath.wf (h : BusPath P b c) (hb : b.mem.wf = true) : c.mem.wf = true := by
  induction h with
  | refl => exact hb
  | read c a _ ih => exact Bus.read_wf c a ih
  | write c a v _ _ ih => exact Bus.write_wf c a v ih

/-- With no device, a byte that is never written to, or that the ROM guard protects, reads as before. -/
theorem BusPath.fetch_eq (h : BusPath P b c) (hb : ∀ a, b.devices.owner a = none) (a : Addr)
    (ha : ¬P a ∨ b.rom.guards a = true) : c.fetch a = b.fetch a := by
  induction h with
  | refl => rfl
  | read c x hc ih =>
    rw [Bus.read_of_no_owner c x (by rw [hc.devices_eq]; exact hb x)]
    exact ih
  | write c x v hp hc ih =>
    rw [Bus.write_of_no_owner c x v (by rw [hc.devices_eq]; exact hb x)]
    split
    · exact ih
    · next hg =>
      rw [← ih]
      refine Memory.read_poke_other c.mem x a v ?_
      rintro rfl
      rcases ha with ha | ha
      · exact ha hp
      · rw [hc.rom_eq] at hg
        exact hg ha

/-! ## The operations -/

theorem resolveMem_path (m : MemOperand) (s : State) : BusPath P s.bus (resolveMem m s).2.bus := by
  cases m with
  | izx b => exact .read _ _ (.read _ _ .refl)
  | izy b => exact .read _ _ (.read _ _ .refl)
  | _ => exact .refl

theorem resolveJump_path (o : JumpOperand) (s : State) : BusPath P s.bus (resolveJump o s).2.bus := by
  cases o with
  | abs w => exact .refl
  | ind w => exact .read _ _ (.read _ _ .refl)

theorem readOperand_path (o : ReadOperand) (s : State) : BusPath P s.bus (readOperand o s).2.bus := by
  cases o with
  | imm b => exact .refl
  | mem m => exact .read _ _ (resolveMem_path m s)

theorem storeOperand_path (m : MemOperand) (v : Byte) (s : State) (h : P (resolveMem m s).1) :
    BusPath P s.bus (storeOperand m v s).bus :=
  .write _ _ _ h (resolveMem_path m s)

theorem modifyOperand_path (o : ModifyOperand) (f : Byte → Byte) (s : State) (h : ∀ m, o = .mem m → P (resolveMem m s).1) :
    BusPath P s.bus (modifyOperand o f s).2.bus := by
  cases o with
  | acc => exact .refl
  | mem m => exact .write _ _ _ (h m rfl) (.read _ _ (resolveMem_path m s))

theorem push_path (v : Byte) (s : State) (h : P (stackAddr s.sp)) : BusPath P s.bus (push v s).bus := .write _ _ _ h .refl

theorem pop_path (s : State) : BusPath P s.bus (pop s).2.bus := .read _ _ .refl

theorem pushWord_path (w : Addr) (s : State) (h : P (stackAddr s.sp)) (h' : P (stackAddr (s.sp - 1))) :
    BusPath P s.bus (pushWord w s).bus :=
  .write _ _ _ h' (.write _ _ _ h .refl)

theorem popWord_path (s : State) : BusPath P s.bus (popWord s).2.bus := .read _ _ (.read _ _ .refl)

theorem takeException_path (ret : Addr) (status : Byte) (s : State) (h : P (stackAddr s.sp)) (h' : P (stackAddr (s.sp - 1)))
    (h'' : P (stackAddr (s.sp - 1 - 1))) : BusPath P s.bus (takeException ret status s).bus :=
  .write _ _ _ h'' (.write _ _ _ h' (.write _ _ _ h .refl))

theorem brkSequence_path (s : State) : BusPath (fun _ => True) s.bus (brkSequence s).bus := by
  have h := takeException_path (P := fun _ => True) (s.pc - 1 + Config.brkReturnOffset) (statusWithBreak s.p) s
    trivial trivial trivial
  simpa only [brkSequence, raiseSoftTrap] using h

theorem startIrq_path (s : State) : BusPath (fun _ => True) s.bus (startIrq s).bus := by
  have h := takeException_path (P := fun _ => True) (s.pc + Config.irqReturnOffset) (statusWithoutBreak s.p)
    { s.noteOperand .imp 0 false with lastOpCode := 0x00, cyclesLeft := 7 - 1 } trivial trivial trivial
  simpa only [startIrq, irqEntry, State.noteOperand] using h

theorem returnFromException_path (s : State) : BusPath P s.bus (returnFromException s).bus :=
  .read _ _ (.read _ _ (.read _ _ .refl))

/-! ## Instructions -/

/-- No instruction faults and none is refused (R145). -/
theorem exec_next (i : Instr) (s : State) : ∃ t, exec i s = .next t := by
  cases i
  case rts =>
    simp only [exec, execRts]
    split <;> exact ⟨_, rfl⟩
  all_goals exact ⟨_, rfl⟩

/-- The state an instruction leaves, of one whose meaning is `.next` of an expression. -/
theorem eq_of_next {t u : State} (h : (.next u : Result) = .next t) : t = u := by
  cases h
  rfl

/-- Every instruction reaches its bus by Data reads and writes. -/
theorem exec_path (i : Instr) (s t : State) (h : exec i s = .next t) : BusPath (fun _ => True) s.bus t.bus := by
  cases i with
  | lda o => rw [eq_of_next h]; exact readOperand_path o s
  | ldx o => rw [eq_of_next h]; exact readOperand_path o s
  | ldy o => rw [eq_of_next h]; exact readOperand_path o s
  | sta m => rw [eq_of_next h]; exact storeOperand_path m _ s trivial
  | stx m => rw [eq_of_next h]; exact storeOperand_path m _ s trivial
  | sty m => rw [eq_of_next h]; exact storeOperand_path m _ s trivial
  | adc o => rw [eq_of_next h]; exact readOperand_path o s
  | sbc o => rw [eq_of_next h]; exact readOperand_path o s
  | and o => rw [eq_of_next h]; exact readOperand_path o s
  | ora o => rw [eq_of_next h]; exact readOperand_path o s
  | eor o => rw [eq_of_next h]; exact readOperand_path o s
  | cmp o => rw [eq_of_next h]; exact readOperand_path o s
  | cpx o => rw [eq_of_next h]; exact readOperand_path o s
  | cpy o => rw [eq_of_next h]; exact readOperand_path o s
  | bit m => rw [eq_of_next h]; exact readOperand_path (.mem m) s
  | inc m => rw [eq_of_next h]; exact modifyOperand_path (.mem m) _ s fun _ _ => trivial
  | dec m => rw [eq_of_next h]; exact modifyOperand_path (.mem m) _ s fun _ _ => trivial
  | asl o => rw [eq_of_next h]; exact modifyOperand_path o _ s fun _ _ => trivial
  | lsr o => rw [eq_of_next h]; exact modifyOperand_path o _ s fun _ _ => trivial
  | rol o => rw [eq_of_next h]; exact modifyOperand_path o _ s fun _ _ => trivial
  | ror o => rw [eq_of_next h]; exact modifyOperand_path o _ s fun _ _ => trivial
  | bcc d => rw [eq_of_next h, branch_bus]; exact .refl
  | bcs d => rw [eq_of_next h, branch_bus]; exact .refl
  | beq d => rw [eq_of_next h, branch_bus]; exact .refl
  | bne d => rw [eq_of_next h, branch_bus]; exact .refl
  | bmi d => rw [eq_of_next h, branch_bus]; exact .refl
  | bpl d => rw [eq_of_next h, branch_bus]; exact .refl
  | bvc d => rw [eq_of_next h, branch_bus]; exact .refl
  | bvs d => rw [eq_of_next h, branch_bus]; exact .refl
  | jmp o => rw [eq_of_next h]; exact resolveJump_path o s
  | jsr w => rw [eq_of_next h]; exact pushWord_path _ (s.resolved .abs w false) trivial trivial
  | rts =>
    simp only [exec, execRts] at h
    split at h
    · rw [eq_of_next h]; exact .refl
    · rw [eq_of_next h]; exact popWord_path (resolveImp s)
  | pha => rw [eq_of_next h]; exact push_path _ (resolveImp s) trivial
  | pla => rw [eq_of_next h]; exact pop_path (resolveImp s)
  | php => rw [eq_of_next h]; exact push_path _ (resolveImp s) trivial
  | plp => rw [eq_of_next h]; exact pop_path (resolveImp s)
  | brk => rw [eq_of_next h]; exact brkSequence_path (resolveImp s)
  | rti => rw [eq_of_next h]; exact returnFromException_path (resolveImp s)
  | tax => exact busPath_of_eq (eq_of_next h ▸ rfl)
  | tay => exact busPath_of_eq (eq_of_next h ▸ rfl)
  | txa => exact busPath_of_eq (eq_of_next h ▸ rfl)
  | tya => exact busPath_of_eq (eq_of_next h ▸ rfl)
  | tsx => exact busPath_of_eq (eq_of_next h ▸ rfl)
  | txs => exact busPath_of_eq (eq_of_next h ▸ rfl)
  | inx => exact busPath_of_eq (eq_of_next h ▸ rfl)
  | iny => exact busPath_of_eq (eq_of_next h ▸ rfl)
  | dex => exact busPath_of_eq (eq_of_next h ▸ rfl)
  | dey => exact busPath_of_eq (eq_of_next h ▸ rfl)
  | clc => exact busPath_of_eq (eq_of_next h ▸ rfl)
  | sec => exact busPath_of_eq (eq_of_next h ▸ rfl)
  | cli => exact busPath_of_eq (eq_of_next h ▸ rfl)
  | sei => exact busPath_of_eq (eq_of_next h ▸ rfl)
  | cld => exact busPath_of_eq (eq_of_next h ▸ rfl)
  | sed => exact busPath_of_eq (eq_of_next h ▸ rfl)
  | clv => exact busPath_of_eq (eq_of_next h ▸ rfl)
  | nop => exact busPath_of_eq (eq_of_next h ▸ rfl)
  | ill op => exact busPath_of_eq (eq_of_next h ▸ rfl)

/-- What no instruction changes beside the configuration of the bus: `LastOpCode`, `IrqPending`, `ExitAtLastRTS`. -/
structure SameLatches (s t : State) : Prop where
  lastOpCode : t.lastOpCode = s.lastOpCode
  irqPending : t.irqPending = s.irqPending
  exitAtLastRTS : t.exitAtLastRTS = s.exitAtLastRTS

theorem exec_latches (i : Instr) (s t : State) (h : exec i s = .next t) : SameLatches s t := by
  cases i with
  | lda x => rw [eq_of_next h]; exact ⟨readOperand_lastOpCode x s, readOperand_irqPending x s, readOperand_exitAtLastRTS x s⟩
  | ldx x => rw [eq_of_next h]; exact ⟨readOperand_lastOpCode x s, readOperand_irqPending x s, readOperand_exitAtLastRTS x s⟩
  | ldy x => rw [eq_of_next h]; exact ⟨readOperand_lastOpCode x s, readOperand_irqPending x s, readOperand_exitAtLastRTS x s⟩
  | sta x => rw [eq_of_next h]; exact ⟨storeOperand_lastOpCode x s.a s, storeOperand_irqPending x s.a s, storeOperand_exitAtLastRTS x s.a s⟩
  | stx x => rw [eq_of_next h]; exact ⟨storeOperand_lastOpCode x s.x s, storeOperand_irqPending x s.x s, storeOperand_exitAtLastRTS x s.x s⟩
  | sty x => rw [eq_of_next h]; exact ⟨storeOperand_lastOpCode x s.y s, storeOperand_irqPending x s.y s, storeOperand_exitAtLastRTS x s.y s⟩
  | tax => rw [eq_of_next h]; exact ⟨rfl, rfl, rfl⟩
  | tay => rw [eq_of_next h]; exact ⟨rfl, rfl, rfl⟩
  | txa => rw [eq_of_next h]; exact ⟨rfl, rfl, rfl⟩
  | tya => rw [eq_of_next h]; exact ⟨rfl, rfl, rfl⟩
  | tsx => rw [eq_of_next h]; exact ⟨rfl, rfl, rfl⟩
  | txs => rw [eq_of_next h]; exact ⟨rfl, rfl, rfl⟩
  | adc x => rw [eq_of_next h]; exact ⟨readOperand_lastOpCode x s, readOperand_irqPending x s, readOperand_exitAtLastRTS x s⟩
  | sbc x => rw [eq_of_next h]; exact ⟨readOperand_lastOpCode x s, readOperand_irqPending x s, readOperand_exitAtLastRTS x s⟩
  | and x => rw [eq_of_next h]; exact ⟨readOperand_lastOpCode x s, readOperand_irqPending x s, readOperand_exitAtLastRTS x s⟩
  | ora x => rw [eq_of_next h]; exact ⟨readOperand_lastOpCode x s, readOperand_irqPending x s, readOperand_exitAtLastRTS x s⟩
  | eor x => rw [eq_of_next h]; exact ⟨readOperand_lastOpCode x s, readOperand_irqPending x s, readOperand_exitAtLastRTS x s⟩
  | cmp x => rw [eq_of_next h]; exact ⟨readOperand_lastOpCode x s, readOperand_irqPending x s, readOperand_exitAtLastRTS x s⟩
  | cpx x => rw [eq_of_next h]; exact ⟨readOperand_lastOpCode x s, readOperand_irqPending x s, readOperand_exitAtLastRTS x s⟩
  | cpy x => rw [eq_of_next h]; exact ⟨readOperand_lastOpCode x s, readOperand_irqPending x s, readOperand_exitAtLastRTS x s⟩
  | bit x => rw [eq_of_next h]; exact ⟨readOperand_lastOpCode (.mem x) s, readOperand_irqPending (.mem x) s, readOperand_exitAtLastRTS (.mem x) s⟩
  | inc x => rw [eq_of_next h]; exact ⟨modifyOperand_lastOpCode (.mem x) incByte s, modifyOperand_irqPending (.mem x) incByte s, modifyOperand_exitAtLastRTS (.mem x) incByte s⟩
  | dec x => rw [eq_of_next h]; exact ⟨modifyOperand_lastOpCode (.mem x) decByte s, modifyOperand_irqPending (.mem x) decByte s, modifyOperand_exitAtLastRTS (.mem x) decByte s⟩
  | inx => rw [eq_of_next h]; exact ⟨rfl, rfl, rfl⟩
  | iny => rw [eq_of_next h]; exact ⟨rfl, rfl, rfl⟩
  | dex => rw [eq_of_next h]; exact ⟨rfl, rfl, rfl⟩
  | dey => rw [eq_of_next h]; exact ⟨rfl, rfl, rfl⟩
  | asl x => rw [eq_of_next h]; exact ⟨modifyOperand_lastOpCode x (fun b => (aslByte b).r) s, modifyOperand_irqPending x (fun b => (aslByte b).r) s, modifyOperand_exitAtLastRTS x (fun b => (aslByte b).r) s⟩
  | lsr x => rw [eq_of_next h]; exact ⟨modifyOperand_lastOpCode x (fun b => (lsrByte b).r) s, modifyOperand_irqPending x (fun b => (lsrByte b).r) s, modifyOperand_exitAtLastRTS x (fun b => (lsrByte b).r) s⟩
  | rol x => rw [eq_of_next h]; exact ⟨modifyOperand_lastOpCode x (fun b => (rolByte b (s.flag .c)).r) s, modifyOperand_irqPending x (fun b => (rolByte b (s.flag .c)).r) s, modifyOperand_exitAtLastRTS x (fun b => (rolByte b (s.flag .c)).r) s⟩
  | ror x => rw [eq_of_next h]; exact ⟨modifyOperand_lastOpCode x (fun b => (rorByte b (s.flag .c)).r) s, modifyOperand_irqPending x (fun b => (rorByte b (s.flag .c)).r) s, modifyOperand_exitAtLastRTS x (fun b => (rorByte b (s.flag .c)).r) s⟩
  | bcc x => rw [eq_of_next h]; exact ⟨branch_lastOpCode _ x s, branch_irqPending _ x s, branch_exitAtLastRTS _ x s⟩
  | bcs x => rw [eq_of_next h]; exact ⟨branch_lastOpCode _ x s, branch_irqPending _ x s, branch_exitAtLastRTS _ x s⟩
  | beq x => rw [eq_of_next h]; exact ⟨branch_lastOpCode _ x s, branch_irqPending _ x s, branch_exitAtLastRTS _ x s⟩
  | bne x => rw [eq_of_next h]; exact ⟨branch_lastOpCode _ x s, branch_irqPending _ x s, branch_exitAtLastRTS _ x s⟩
  | bmi x => rw [eq_of_next h]; exact ⟨branch_lastOpCode _ x s, branch_irqPending _ x s, branch_exitAtLastRTS _ x s⟩
  | bpl x => rw [eq_of_next h]; exact ⟨branch_lastOpCode _ x s, branch_irqPending _ x s, branch_exitAtLastRTS _ x s⟩
  | bvc x => rw [eq_of_next h]; exact ⟨branch_lastOpCode _ x s, branch_irqPending _ x s, branch_exitAtLastRTS _ x s⟩
  | bvs x => rw [eq_of_next h]; exact ⟨branch_lastOpCode _ x s, branch_irqPending _ x s, branch_exitAtLastRTS _ x s⟩
  | jmp x => rw [eq_of_next h]; exact ⟨resolveJump_lastOpCode x s, resolveJump_irqPending x s, resolveJump_exitAtLastRTS x s⟩
  | jsr x => rw [eq_of_next h]; exact ⟨rfl, rfl, rfl⟩
  | rts =>
    simp only [exec, execRts] at h
    split at h <;> (rw [eq_of_next h]; exact ⟨rfl, rfl, rfl⟩)
  | pha => rw [eq_of_next h]; exact ⟨rfl, rfl, rfl⟩
  | pla => rw [eq_of_next h]; exact ⟨rfl, rfl, rfl⟩
  | php => rw [eq_of_next h]; exact ⟨rfl, rfl, rfl⟩
  | plp => rw [eq_of_next h]; exact ⟨rfl, rfl, rfl⟩
  | clc => rw [eq_of_next h]; exact ⟨rfl, rfl, rfl⟩
  | sec => rw [eq_of_next h]; exact ⟨rfl, rfl, rfl⟩
  | cli => rw [eq_of_next h]; exact ⟨rfl, rfl, rfl⟩
  | sei => rw [eq_of_next h]; exact ⟨rfl, rfl, rfl⟩
  | cld => rw [eq_of_next h]; exact ⟨rfl, rfl, rfl⟩
  | sed => rw [eq_of_next h]; exact ⟨rfl, rfl, rfl⟩
  | clv => rw [eq_of_next h]; exact ⟨rfl, rfl, rfl⟩
  | nop => rw [eq_of_next h]; exact ⟨rfl, rfl, rfl⟩
  | brk => rw [eq_of_next h, brkSequence_eq, takeException_eq]; exact ⟨rfl, rfl, rfl⟩
  | rti => rw [eq_of_next h, returnFromException_eq]; exact ⟨rfl, rfl, rfl⟩
  | ill x => rw [eq_of_next h]; exact ⟨rfl, rfl, rfl⟩

/-- Every step reaches its bus by Data reads and writes. -/
theorem step_path (s t : State) (h : step s = .next t) : BusPath (fun _ => True) s.bus t.bus := by
  rcases step_cases s with ⟨_, h'⟩ | ⟨_, _, _, h'⟩ | ⟨_, _, h'⟩
  · rw [h'] at h
    rw [eq_of_next h]
    exact .refl
  · rw [h'] at h
    rw [eq_of_next h]
    exact startIrq_path s.clearStatus
  · exact exec_path (fetchInstr s) s.fetched t (h'.symm.trans h)

end Sys2Proof.Machine
end

