-- ==== Sys2Proof/Laws/PerInstr.lean ====
section
/-! SUPPORT. Facts about instructions as syntax, one lemma per constructor. -/

namespace Sys2Proof.Laws.Width

/-- The encoding of an instruction has the length of its mode (spec/30_encoding.md R71). -/
def Statement (i : Instr) : Prop := ∀ bytes, encode i = some bytes → bytes.length = i.mode.length

theorem of_bytes (i : Instr) (h : i.operandBytes.length + 1 = i.mode.length) : Statement i := by
  intro bytes hb
  unfold encode at hb
  split at hb
  · cases hb
    simpa using h
  · cases hb

theorem MemOperand.length_bytes (m : MemOperand) : m.bytes.length + 1 = m.mode.length := by cases m <;> rfl

theorem ReadOperand.length_bytes (o : ReadOperand) : o.bytes.length + 1 = o.mode.length := by
  cases o with
  | imm b => rfl
  | mem m => exact MemOperand.length_bytes m

theorem ModifyOperand.length_bytes (o : ModifyOperand) : o.bytes.length + 1 = o.mode.length := by
  cases o with
  | acc => rfl
  | mem m => exact MemOperand.length_bytes m

theorem lda (o : ReadOperand) : Statement (.lda o) := of_bytes _ (ReadOperand.length_bytes o)
theorem ldx (o : ReadOperand) : Statement (.ldx o) := of_bytes _ (ReadOperand.length_bytes o)
theorem ldy (o : ReadOperand) : Statement (.ldy o) := of_bytes _ (ReadOperand.length_bytes o)
theorem sta (m : MemOperand) : Statement (.sta m) := of_bytes _ (MemOperand.length_bytes m)
theorem stx (m : MemOperand) : Statement (.stx m) := of_bytes _ (MemOperand.length_bytes m)
theorem sty (m : MemOperand) : Statement (.sty m) := of_bytes _ (MemOperand.length_bytes m)
theorem tax : Statement .tax := of_bytes _ rfl
theorem tay : Statement .tay := of_bytes _ rfl
theorem txa : Statement .txa := of_bytes _ rfl
theorem tya : Statement .tya := of_bytes _ rfl
theorem tsx : Statement .tsx := of_bytes _ rfl
theorem txs : Statement .txs := of_bytes _ rfl
theorem adc (o : ReadOperand) : Statement (.adc o) := of_bytes _ (ReadOperand.length_bytes o)
theorem sbc (o : ReadOperand) : Statement (.sbc o) := of_bytes _ (ReadOperand.length_bytes o)
theorem and (o : ReadOperand) : Statement (.and o) := of_bytes _ (ReadOperand.length_bytes o)
theorem ora (o : ReadOperand) : Statement (.ora o) := of_bytes _ (ReadOperand.length_bytes o)
theorem eor (o : ReadOperand) : Statement (.eor o) := of_bytes _ (ReadOperand.length_bytes o)
theorem cmp (o : ReadOperand) : Statement (.cmp o) := of_bytes _ (ReadOperand.length_bytes o)
theorem cpx (o : ReadOperand) : Statement (.cpx o) := of_bytes _ (ReadOperand.length_bytes o)
theorem cpy (o : ReadOperand) : Statement (.cpy o) := of_bytes _ (ReadOperand.length_bytes o)
theorem bit (m : MemOperand) : Statement (.bit m) := of_bytes _ (MemOperand.length_bytes m)
theorem inc (m : MemOperand) : Statement (.inc m) := of_bytes _ (MemOperand.length_bytes m)
theorem dec (m : MemOperand) : Statement (.dec m) := of_bytes _ (MemOperand.length_bytes m)
theorem inx : Statement .inx := of_bytes _ rfl
theorem iny : Statement .iny := of_bytes _ rfl
theorem dex : Statement .dex := of_bytes _ rfl
theorem dey : Statement .dey := of_bytes _ rfl
theorem asl (o : ModifyOperand) : Statement (.asl o) := of_bytes _ (ModifyOperand.length_bytes o)
theorem lsr (o : ModifyOperand) : Statement (.lsr o) := of_bytes _ (ModifyOperand.length_bytes o)
theorem rol (o : ModifyOperand) : Statement (.rol o) := of_bytes _ (ModifyOperand.length_bytes o)
theorem ror (o : ModifyOperand) : Statement (.ror o) := of_bytes _ (ModifyOperand.length_bytes o)
theorem bcc (d : Byte) : Statement (.bcc d) := of_bytes _ rfl
theorem bcs (d : Byte) : Statement (.bcs d) := of_bytes _ rfl
theorem beq (d : Byte) : Statement (.beq d) := of_bytes _ rfl
theorem bne (d : Byte) : Statement (.bne d) := of_bytes _ rfl
theorem bmi (d : Byte) : Statement (.bmi d) := of_bytes _ rfl
theorem bpl (d : Byte) : Statement (.bpl d) := of_bytes _ rfl
theorem bvc (d : Byte) : Statement (.bvc d) := of_bytes _ rfl
theorem bvs (d : Byte) : Statement (.bvs d) := of_bytes _ rfl
theorem jmp (o : JumpOperand) : Statement (.jmp o) := of_bytes _ (by cases o <;> rfl)
theorem jsr (w : Addr) : Statement (.jsr w) := of_bytes _ rfl
theorem rts : Statement .rts := of_bytes _ rfl
theorem pha : Statement .pha := of_bytes _ rfl
theorem pla : Statement .pla := of_bytes _ rfl
theorem php : Statement .php := of_bytes _ rfl
theorem plp : Statement .plp := of_bytes _ rfl
theorem clc : Statement .clc := of_bytes _ rfl
theorem sec : Statement .sec := of_bytes _ rfl
theorem cli : Statement .cli := of_bytes _ rfl
theorem sei : Statement .sei := of_bytes _ rfl
theorem cld : Statement .cld := of_bytes _ rfl
theorem sed : Statement .sed := of_bytes _ rfl
theorem clv : Statement .clv := of_bytes _ rfl
theorem nop : Statement .nop := of_bytes _ rfl
theorem brk : Statement .brk := of_bytes _ rfl
theorem rti : Statement .rti := of_bytes _ rfl
theorem ill (op : Byte) : Statement (.ill op) := of_bytes _ rfl

end Sys2Proof.Laws.Width
end

