-- ==== Sys2Proof/Tests/Slice0.lean ====
section
/-! SUPPORT. The model's own tests: ill-formed terms refused, words written out from the spec's encodings decoded, one step of
each instruction with the values of spec/95_test_vectors.md (each docstring names the vector, or the rules a value was worked
out from by hand), and a witness for the hypotheses of every statement. -/

namespace Sys2Proof.Tests

open Sys2Proof.Machine Sys2Proof.Claims

/-! ## Helpers -/

/-- The start state of the test vectors: power-on with `PC` at $0200. -/
def boot : State := { State.powerOn with pc := 0x0200 }

/-- The state with an image in memory and code at `PC`. -/
def loaded (s : State) (image : List (Addr × Byte)) (code : List Byte) : State :=
  { s with bus := { s.bus with mem := (s.bus.mem.pokes image).load s.pc code } }

/-- The state an outcome holds, or the given one. -/
def stateOf (s : State) : Result → State
  | .next t => t
  | .fault _ => s
  | .refused _ => s

/-- The state after one step from the loaded state. -/
def stepOf (s : State) (image : List (Addr × Byte)) (code : List Byte) : State :=
  stateOf s (step (loaded s image code))

/-- `A`, `X`, `Y`, `SP`, `P`, `PC`, `CyclesLeft`. -/
def registers (s : State) : Byte × Byte × Byte × Byte × Byte × Addr × Nat := (s.a, s.x, s.y, s.sp, s.p, s.pc, s.cyclesLeft)

/-! ## One step of each instruction -/

/-- S6. -/
theorem test_lda_immediate :
    registers (stepOf boot [] [0xA9, 0x42]) =
      (0x42, 0x00, 0x00, 0xFF, 0x00, 0x0202, 1) ∧
    (stepOf boot [] [0xA9, 0x42]).lastOpCode = 0xA9 ∧
    (stepOf boot [] [0xA9, 0x42]).lastAddrMode = .imm ∧
    (stepOf boot [] [0xA9, 0x42]).lastArg = 0x0042 := by
  decide

/-- AM3. -/
theorem test_lda_absolute_x_wraps_the_address_space :
    registers (stepOf { boot with x := 0x02 } [(0x0001, 0x77)] [0xBD, 0xFF, 0xFF]) =
      (0x77, 0x02, 0x00, 0xFF, 0x00, 0x0203, 4) ∧
    (stepOf { boot with x := 0x02 } [(0x0001, 0x77)] [0xBD, 0xFF, 0xFF]).pageBoundary = true := by
  decide

/-- AM2. -/
theorem test_ldx_zero_page_y_wraps :
    registers (stepOf { boot with y := 0x20 } [(0x0010, 0xAA)] [0xB6, 0xF0]) =
      (0x00, 0xAA, 0x20, 0xFF, 0x80, 0x0202, 3) := by
  decide

/-- LS10. -/
theorem test_ldy_zero :
    registers (stepOf { boot with p := 0x80 } [] [0xA4, 0x10]) =
      (0x00, 0x00, 0x00, 0xFF, 0x02, 0x0202, 2) := by
  decide

/-- AM4 with ORA, A 0 before (R102, R173). -/
theorem test_ora_indirect_y_pointer_at_ff :
    registers (stepOf boot [(0x00FF, 0x00), (0x0100, 0x04), (0x0000, 0x03), (0x0400, 0x5A), (0x0300, 0xA5)] [0x11, 0xFF]) =
      (0x5A, 0x00, 0x00, 0xFF, 0x00, 0x0202, 4) := by
  decide

/-- AM12 with EOR, A 0 before (R101, R174). -/
theorem test_eor_indexed_indirect :
    registers (stepOf { boot with x := 0x04 } [(0x0024, 0x00), (0x0025, 0x30), (0x3000, 0x69)] [0x41, 0x20]) =
      (0x69, 0x04, 0x00, 0xFF, 0x00, 0x0202, 5) := by
  decide

/-- AM10 with LDX (R52, R93, R151). -/
theorem test_ldx_operand_byte_wraps :
    registers (stepOf { boot with pc := 0xFFFF } [] [0xA2, 0x42]) =
      (0x00, 0x42, 0x00, 0xFF, 0x00, 0x0001, 1) := by
  decide

/-- AM7. -/
theorem test_sta_absolute_x_no_penalty :
    registers (stepOf { boot with x := 0x01, a := 0x99 } [] [0x9D, 0xFF, 0x12]) =
      (0x99, 0x01, 0x00, 0xFF, 0x00, 0x0203, 4) ∧
    memFetch (stepOf { boot with x := 0x01, a := 0x99 } [] [0x9D, 0xFF, 0x12]) 0x1300 = 0x99 ∧
    (stepOf { boot with x := 0x01, a := 0x99 } [] [0x9D, 0xFF, 0x12]).pageBoundary = true := by
  decide

/-- LS7. -/
theorem test_sta_indirect_y :
    registers (stepOf { boot with a := 0x3C, y := 0x10 } [(0x0020, 0xF8), (0x0021, 0x30)] [0x91, 0x20]) =
      (0x3C, 0x00, 0x10, 0xFF, 0x00, 0x0202, 5) ∧
    memFetch (stepOf { boot with a := 0x3C, y := 0x10 } [(0x0020, 0xF8), (0x0021, 0x30)] [0x91, 0x20]) 0x3108 = 0x3C ∧
    (stepOf { boot with a := 0x3C, y := 0x10 } [(0x0020, 0xF8), (0x0021, 0x30)] [0x91, 0x20]).pageBoundary = true := by
  decide

/-- LS6. -/
theorem test_stx_zero_page_y :
    registers (stepOf { boot with x := 0x5A, y := 0x20 } [] [0x96, 0xF0]) =
      (0x00, 0x5A, 0x20, 0xFF, 0x00, 0x0202, 3) ∧
    memFetch (stepOf { boot with x := 0x5A, y := 0x20 } [] [0x96, 0xF0]) 0x0010 = 0x5A := by
  decide

/-- R95, R155. -/
theorem test_sty_zero_page_x :
    registers (stepOf { boot with x := 0x20, y := 0x5A } [] [0x94, 0xF0]) =
      (0x00, 0x20, 0x5A, 0xFF, 0x00, 0x0202, 3) ∧
    memFetch (stepOf { boot with x := 0x20, y := 0x5A } [] [0x94, 0xF0]) 0x0010 = 0x5A := by
  decide

/-- LS8. -/
theorem test_tax :
    registers (stepOf { boot with p := 0x80 } [] [0xAA]) =
      (0x00, 0x00, 0x00, 0xFF, 0x02, 0x0201, 1) := by
  decide

/-- R157. -/
theorem test_tay :
    registers (stepOf { boot with a := 0x80, p := 0x02 } [] [0xA8]) =
      (0x80, 0x00, 0x80, 0xFF, 0x80, 0x0201, 1) := by
  decide

/-- R158. -/
theorem test_txa :
    registers (stepOf { boot with a := 0x01, x := 0x00, p := 0x80 } [] [0x8A]) =
      (0x00, 0x00, 0x00, 0xFF, 0x02, 0x0201, 1) := by
  decide

/-- LS9. -/
theorem test_tya :
    registers (stepOf { boot with y := 0xFF, p := 0x02 } [] [0x98]) =
      (0xFF, 0x00, 0xFF, 0xFF, 0x80, 0x0201, 1) := by
  decide

/-- LS5. -/
theorem test_tsx :
    registers (stepOf { boot with sp := 0x00, p := 0x80 } [] [0xBA]) =
      (0x00, 0x00, 0x00, 0x00, 0x02, 0x0201, 1) := by
  decide

/-- LS4. -/
theorem test_txs_no_flags :
    registers (stepOf { boot with x := 0x80 } [] [0x9A]) =
      (0x00, 0x80, 0x00, 0x80, 0x00, 0x0201, 1) := by
  decide

/-- AL3. -/
theorem test_adc_overflow :
    registers (stepOf { boot with a := 0x7F, p := 0x01 } [] [0x69, 0x7F]) =
      (0xFF, 0x00, 0x00, 0xFF, 0xC0, 0x0202, 1) := by
  decide

/-- AL10. -/
theorem test_adc_decimal_zero_flag :
    registers (stepOf { boot with a := 0x99, p := 0x08 } [] [0x69, 0x01]) =
      (0x00, 0x00, 0x00, 0xFF, 0x89, 0x0202, 1) := by
  decide

/-- AL6. -/
theorem test_sbc_overflow :
    registers (stepOf { boot with a := 0x80, p := 0x01 } [] [0xE9, 0x01]) =
      (0x7F, 0x00, 0x00, 0xFF, 0x41, 0x0202, 1) := by
  decide

/-- AL14. -/
theorem test_sbc_decimal_borrow :
    registers (stepOf { boot with a := 0x00, p := 0x09 } [] [0xE9, 0x01]) =
      (0x99, 0x00, 0x00, 0xFF, 0x88, 0x0202, 1) := by
  decide

/-- AL27. -/
theorem test_and :
    registers (stepOf { boot with a := 0xF0 } [] [0x29, 0x0F]) =
      (0x00, 0x00, 0x00, 0xFF, 0x02, 0x0202, 1) := by
  decide

/-- AL28. -/
theorem test_ora :
    registers (stepOf { boot with a := 0x01 } [] [0x09, 0x80]) =
      (0x81, 0x00, 0x00, 0xFF, 0x80, 0x0202, 1) := by
  decide

/-- AL29. -/
theorem test_eor :
    registers (stepOf { boot with a := 0xFF } [] [0x49, 0xFF]) =
      (0x00, 0x00, 0x00, 0xFF, 0x02, 0x0202, 1) := by
  decide

/-- AL16. -/
theorem test_cmp_keeps_v :
    registers (stepOf { boot with a := 0x40, p := 0x40 } [] [0xC9, 0x41]) =
      (0x40, 0x00, 0x00, 0xFF, 0xC0, 0x0202, 1) := by
  decide

/-- AL18. -/
theorem test_cmp_unsigned :
    registers (stepOf { boot with a := 0x80 } [] [0xC9, 0x01]) =
      (0x80, 0x00, 0x00, 0xFF, 0x01, 0x0202, 1) := by
  decide

/-- AL19. -/
theorem test_cpx :
    registers (stepOf { boot with x := 0x10 } [] [0xE0, 0x10]) =
      (0x00, 0x10, 0x00, 0xFF, 0x03, 0x0202, 1) := by
  decide

/-- AL20. -/
theorem test_cpy :
    registers (stepOf boot [] [0xC0, 0x80]) =
      (0x00, 0x00, 0x00, 0xFF, 0x80, 0x0202, 1) := by
  decide

/-- AL21. -/
theorem test_bit :
    registers (stepOf { boot with a := 0x0F } [(0x0010, 0xC0)] [0x24, 0x10]) =
      (0x0F, 0x00, 0x00, 0xFF, 0xC2, 0x0202, 2) := by
  decide

/-- AL23. -/
theorem test_inc_keeps_carry :
    registers (stepOf { boot with p := 0x01 } [(0x0010, 0xFF)] [0xE6, 0x10]) =
      (0x00, 0x00, 0x00, 0xFF, 0x03, 0x0202, 4) ∧
    memFetch (stepOf { boot with p := 0x01 } [(0x0010, 0xFF)] [0xE6, 0x10]) 0x0010 = 0x00 := by
  decide

/-- AL24. -/
theorem test_dec :
    registers (stepOf boot [] [0xC6, 0x10]) =
      (0x00, 0x00, 0x00, 0xFF, 0x80, 0x0202, 4) ∧
    memFetch (stepOf boot [] [0xC6, 0x10]) 0x0010 = 0xFF := by
  decide

/-- AL25. -/
theorem test_inx :
    registers (stepOf { boot with x := 0xFF } [] [0xE8]) =
      (0x00, 0x00, 0x00, 0xFF, 0x02, 0x0201, 1) := by
  decide

/-- R182. -/
theorem test_iny :
    registers (stepOf { boot with y := 0x7F } [] [0xC8]) =
      (0x00, 0x00, 0x80, 0xFF, 0x80, 0x0201, 1) := by
  decide

/-- R183. -/
theorem test_dex :
    registers (stepOf { boot with x := 0x01, p := 0x80 } [] [0xCA]) =
      (0x00, 0x00, 0x00, 0xFF, 0x02, 0x0201, 1) := by
  decide

/-- AL26. -/
theorem test_dey :
    registers (stepOf boot [] [0x88]) =
      (0x00, 0x00, 0xFF, 0xFF, 0x80, 0x0201, 1) := by
  decide

/-- SR3. -/
theorem test_asl_drops_old_carry :
    registers (stepOf { boot with a := 0x40, p := 0x01 } [] [0x0A]) =
      (0x80, 0x00, 0x00, 0xFF, 0x80, 0x0201, 1) := by
  decide

/-- SR4. -/
theorem test_lsr_clears_n :
    registers (stepOf { boot with p := 0x80 } [(0x0010, 0x01)] [0x46, 0x10]) =
      (0x00, 0x00, 0x00, 0xFF, 0x03, 0x0202, 4) ∧
    memFetch (stepOf { boot with p := 0x80 } [(0x0010, 0x01)] [0x46, 0x10]) 0x0010 = 0x00 := by
  decide

/-- SR11. -/
theorem test_rol_zero_page_x :
    registers (stepOf { boot with x := 0x02, p := 0x01 } [(0x0001, 0x55)] [0x36, 0xFF]) =
      (0x00, 0x02, 0x00, 0xFF, 0x80, 0x0202, 5) ∧
    memFetch (stepOf { boot with x := 0x02, p := 0x01 } [(0x0001, 0x55)] [0x36, 0xFF]) 0x0001 = 0xAB := by
  decide

/-- SR7. -/
theorem test_ror_carry_in :
    registers (stepOf { boot with a := 0x01, p := 0x01 } [] [0x6A]) =
      (0x80, 0x00, 0x00, 0xFF, 0x81, 0x0201, 1) := by
  decide

/-- SR9. -/
theorem test_ror_absolute_x_no_penalty :
    registers (stepOf { boot with x := 0x01, p := 0x01 } [(0x1300, 0x02)] [0x7E, 0xFF, 0x12]) =
      (0x00, 0x01, 0x00, 0xFF, 0x80, 0x0203, 6) ∧
    memFetch (stepOf { boot with x := 0x01, p := 0x01 } [(0x1300, 0x02)] [0x7E, 0xFF, 0x12]) 0x1300 = 0x81 ∧
    (stepOf { boot with x := 0x01, p := 0x01 } [(0x1300, 0x02)] [0x7E, 0xFF, 0x12]).pageBoundary = true := by
  decide

/-- S8. -/
theorem test_bne_page_cross :
    registers (stepOf { boot with pc := 0x12FE } [] [0xD0, 0x05]) =
      (0x00, 0x00, 0x00, 0xFF, 0x00, 0x1305, 3) ∧
    (stepOf { boot with pc := 0x12FE } [] [0xD0, 0x05]).pageBoundary = true := by
  decide

/-- BJ4. -/
theorem test_bpl_backward :
    registers (stepOf boot [] [0x10, 0x80]) =
      (0x00, 0x00, 0x00, 0xFF, 0x00, 0x0182, 3) := by
  decide

/-- BJ6b. -/
theorem test_bcc_not_taken_sets_page_boundary :
    registers (stepOf { boot with pc := 0x02FE, p := 0x01 } [] [0x90, 0x00]) =
      (0x00, 0x00, 0x00, 0xFF, 0x01, 0x0300, 1) ∧
    (stepOf { boot with pc := 0x02FE, p := 0x01 } [] [0x90, 0x00]).pageBoundary = true := by
  decide

/-- BJ12. -/
theorem test_bcs_wraps_the_address_space :
    registers (stepOf { boot with pc := 0xFFF0, p := 0x01 } [] [0xB0, 0x7F]) =
      (0x00, 0x00, 0x00, 0xFF, 0x01, 0x0071, 3) := by
  decide

/-- BJ8. -/
theorem test_beq :
    registers (stepOf { boot with pc := 0x0210, p := 0x02 } [] [0xF0, 0xFC]) =
      (0x00, 0x00, 0x00, 0xFF, 0x02, 0x020E, 2) := by
  decide

/-- BJ9. -/
theorem test_bmi :
    registers (stepOf { boot with p := 0x80 } [] [0x30, 0x7F]) =
      (0x00, 0x00, 0x00, 0xFF, 0x80, 0x0281, 2) := by
  decide

/-- BJ10. -/
theorem test_bvc_not_taken :
    registers (stepOf { boot with p := 0x40 } [] [0x50, 0x10]) =
      (0x00, 0x00, 0x00, 0xFF, 0x40, 0x0202, 1) := by
  decide

/-- BJ11. -/
theorem test_bvs :
    registers (stepOf { boot with p := 0x40 } [] [0x70, 0x10]) =
      (0x00, 0x00, 0x00, 0xFF, 0x40, 0x0212, 2) := by
  decide

/-- BJ13. -/
theorem test_jmp_absolute :
    registers (stepOf boot [] [0x4C, 0x00, 0x03]) =
      (0x00, 0x00, 0x00, 0xFF, 0x00, 0x0300, 2) := by
  decide

/-- AM6. -/
theorem test_jmp_indirect_no_page_wrap :
    registers (stepOf boot [(0x12FF, 0x34), (0x1300, 0x12), (0x1200, 0x56)] [0x6C, 0xFF, 0x12]) =
      (0x00, 0x00, 0x00, 0xFF, 0x00, 0x1234, 4) ∧
    (stepOf boot [(0x12FF, 0x34), (0x1300, 0x12), (0x1200, 0x56)] [0x6C, 0xFF, 0x12]).lastArg = 0x12FF := by
  decide

/-- BJ15. -/
theorem test_jsr_stack_wrap :
    registers (stepOf { boot with sp := 0x00 } [] [0x20, 0x00, 0x03]) =
      (0x00, 0x00, 0x00, 0xFE, 0x00, 0x0300, 5) ∧
    memFetch (stepOf { boot with sp := 0x00 } [] [0x20, 0x00, 0x03]) 0x0100 = 0x02 ∧
    memFetch (stepOf { boot with sp := 0x00 } [] [0x20, 0x00, 0x03]) 0x01FF = 0x02 := by
  decide

/-- BJ16. -/
theorem test_rts_at_empty_stack :
    registers (stepOf { boot with exitAtLastRTS := true } [] [0x60]) =
      (0x00, 0x00, 0x00, 0xFF, 0x00, 0x0201, 5) ∧
    (stepOf { boot with exitAtLastRTS := true } [] [0x60]).lastRTS = true := by
  decide

/-- BJ18. -/
theorem test_rts :
    registers (stepOf { boot with sp := 0xFD, exitAtLastRTS := true } [(0x01FE, 0x02), (0x01FF, 0x02)] [0x60]) =
      (0x00, 0x00, 0x00, 0xFF, 0x00, 0x0203, 5) := by
  decide

/-- SS6. -/
theorem test_pha_wrap :
    registers (stepOf { boot with a := 0x42, sp := 0x00 } [] [0x48]) =
      (0x42, 0x00, 0x00, 0xFF, 0x00, 0x0201, 2) ∧
    memFetch (stepOf { boot with a := 0x42, sp := 0x00 } [] [0x48]) 0x0100 = 0x42 := by
  decide

/-- SS7. -/
theorem test_pla_wrap :
    registers (stepOf boot [(0x0100, 0x80)] [0x68]) =
      (0x80, 0x00, 0x00, 0x00, 0x80, 0x0201, 3) := by
  decide

/-- SS3. -/
theorem test_php_sets_break_in_the_copy :
    registers (stepOf { boot with p := 0x81 } [] [0x08]) =
      (0x00, 0x00, 0x00, 0xFE, 0x81, 0x0201, 2) ∧
    memFetch (stepOf { boot with p := 0x81 } [] [0x08]) 0x01FF = 0x91 := by
  decide

/-- SS4. -/
theorem test_plp_loads_all_bits :
    registers (stepOf { boot with sp := 0xFE } [(0x01FF, 0xFF)] [0x28]) =
      (0x00, 0x00, 0x00, 0xFF, 0xFF, 0x0201, 3) := by
  decide

/-- SS15. -/
theorem test_clc :
    registers (stepOf { boot with p := 0xFF } [] [0x18]) =
      (0x00, 0x00, 0x00, 0xFF, 0xFE, 0x0201, 1) := by
  decide

/-- SS15. -/
theorem test_cli :
    registers (stepOf { boot with p := 0xFF } [] [0x58]) =
      (0x00, 0x00, 0x00, 0xFF, 0xFB, 0x0201, 1) := by
  decide

/-- SS15. -/
theorem test_cld :
    registers (stepOf { boot with p := 0xFF } [] [0xD8]) =
      (0x00, 0x00, 0x00, 0xFF, 0xF7, 0x0201, 1) := by
  decide

/-- SS15. -/
theorem test_clv :
    registers (stepOf { boot with p := 0xFF } [] [0xB8]) =
      (0x00, 0x00, 0x00, 0xFF, 0xBF, 0x0201, 1) := by
  decide

/-- SS16. -/
theorem test_sec :
    registers (stepOf boot [] [0x38]) =
      (0x00, 0x00, 0x00, 0xFF, 0x01, 0x0201, 1) := by
  decide

/-- SS16. -/
theorem test_sei :
    registers (stepOf boot [] [0x78]) =
      (0x00, 0x00, 0x00, 0xFF, 0x04, 0x0201, 1) := by
  decide

/-- SS16. -/
theorem test_sed :
    registers (stepOf boot [] [0xF8]) =
      (0x00, 0x00, 0x00, 0xFF, 0x08, 0x0201, 1) := by
  decide

/-- SS14. -/
theorem test_nop :
    registers (stepOf { boot with p := 0xFF } [] [0xEA]) =
      (0x00, 0x00, 0x00, 0xFF, 0xFF, 0x0201, 1) := by
  decide

/-- SS8. -/
theorem test_brk :
    registers (stepOf { boot with pc := 0x0300 } [] [0x00]) =
      (0x00, 0x00, 0x00, 0xFC, 0x04, 0xFFF0, 6) ∧
    memFetch (stepOf { boot with pc := 0x0300 } [] [0x00]) 0x01FF = 0x03 ∧
    memFetch (stepOf { boot with pc := 0x0300 } [] [0x00]) 0x01FE = 0x02 ∧
    memFetch (stepOf { boot with pc := 0x0300 } [] [0x00]) 0x01FD = 0x10 ∧
    (stepOf { boot with pc := 0x0300 } [] [0x00]).softIrq = true := by
  decide

/-- SS9. -/
theorem test_brk_keeps_decimal :
    registers (stepOf { boot with pc := 0x0300, p := 0xCB, sp := 0x01 } [] [0x00]) =
      (0x00, 0x00, 0x00, 0xFE, 0xCF, 0xFFF0, 6) ∧
    memFetch (stepOf { boot with pc := 0x0300, p := 0xCB, sp := 0x01 } [] [0x00]) 0x0101 = 0x03 ∧
    memFetch (stepOf { boot with pc := 0x0300, p := 0xCB, sp := 0x01 } [] [0x00]) 0x0100 = 0x02 ∧
    memFetch (stepOf { boot with pc := 0x0300, p := 0xCB, sp := 0x01 } [] [0x00]) 0x01FF = 0xDB := by
  decide

/-- SS11. -/
theorem test_rti_forces_i_clear :
    registers (stepOf { boot with pc := 0x0400, sp := 0xFC } [(0x01FD, 0xFF), (0x01FE, 0x34), (0x01FF, 0x12)] [0x40]) =
      (0x00, 0x00, 0x00, 0xFF, 0xFB, 0x1234, 5) := by
  decide

/-- SS13. -/
theorem test_ill :
    registers (stepOf { boot with a := 0x01, x := 0x02, y := 0x03, p := 0xFF, sp := 0x80 } [] [0xFF]) =
      (0x01, 0x02, 0x03, 0x80, 0xFF, 0x0201, 0) ∧
    (stepOf { boot with a := 0x01, x := 0x02, y := 0x03, p := 0xFF, sp := 0x80 } [] [0xFF]).softIrq = true := by
  decide

/-! ## Ill-formed terms are refused (blank cells of R77, and an ILL value outside R78) -/

theorem test_illformed_lda_zero_page_y : Instr.wellFormed (.lda (.mem (.zpy 0x10))) = false := by decide
theorem test_illformed_ldx_zero_page_x : Instr.wellFormed (.ldx (.mem (.zpx 0x10))) = false := by decide
theorem test_illformed_ldx_absolute_x : Instr.wellFormed (.ldx (.mem (.abx 0x1234))) = false := by decide
theorem test_illformed_ldy_zero_page_y : Instr.wellFormed (.ldy (.mem (.zpy 0x10))) = false := by decide
theorem test_illformed_ldy_indirect_y : Instr.wellFormed (.ldy (.mem (.izy 0x10))) = false := by decide
theorem test_illformed_sta_zero_page_y : Instr.wellFormed (.sta (.zpy 0x10)) = false := by decide
theorem test_illformed_stx_zero_page_x : Instr.wellFormed (.stx (.zpx 0x10)) = false := by decide
theorem test_illformed_stx_absolute_y : Instr.wellFormed (.stx (.aby 0x1234)) = false := by decide
theorem test_illformed_sty_absolute_x : Instr.wellFormed (.sty (.abx 0x1234)) = false := by decide
theorem test_illformed_adc_zero_page_y : Instr.wellFormed (.adc (.mem (.zpy 0x10))) = false := by decide
theorem test_illformed_sbc_zero_page_y : Instr.wellFormed (.sbc (.mem (.zpy 0x10))) = false := by decide
theorem test_illformed_and_zero_page_y : Instr.wellFormed (.and (.mem (.zpy 0x10))) = false := by decide
theorem test_illformed_ora_zero_page_y : Instr.wellFormed (.ora (.mem (.zpy 0x10))) = false := by decide
theorem test_illformed_eor_zero_page_y : Instr.wellFormed (.eor (.mem (.zpy 0x10))) = false := by decide
theorem test_illformed_cmp_zero_page_y : Instr.wellFormed (.cmp (.mem (.zpy 0x10))) = false := by decide
theorem test_illformed_cpx_zero_page_x : Instr.wellFormed (.cpx (.mem (.zpx 0x10))) = false := by decide
theorem test_illformed_cpy_absolute_x : Instr.wellFormed (.cpy (.mem (.abx 0x1234))) = false := by decide
theorem test_illformed_bit_zero_page_x : Instr.wellFormed (.bit (.zpx 0x10)) = false := by decide
theorem test_illformed_inc_absolute_y : Instr.wellFormed (.inc (.aby 0x1234)) = false := by decide
theorem test_illformed_dec_indirect_y : Instr.wellFormed (.dec (.izy 0x10)) = false := by decide
theorem test_illformed_asl_absolute_y : Instr.wellFormed (.asl (.mem (.aby 0x1234))) = false := by decide
theorem test_illformed_lsr_zero_page_y : Instr.wellFormed (.lsr (.mem (.zpy 0x10))) = false := by decide
theorem test_illformed_rol_indexed_indirect : Instr.wellFormed (.rol (.mem (.izx 0x10))) = false := by decide
theorem test_illformed_ror_indirect_y : Instr.wellFormed (.ror (.mem (.izy 0x10))) = false := by decide
theorem test_illformed_ill_legal_opcode : Instr.wellFormed (.ill 0xA9) = false := by decide

/-- A blank cell has no encoding. -/
theorem test_illformed_encode : encode (.ldx (.mem (.zpx 0x10))) = none := by decide

/-! ## Words written out from the spec's encodings

The opcode byte bit by bit (spec/30_encoding.md R77), then the operand bytes in memory order (R70). One family a line, every mode
among them. -/

theorem test_decode_load_immediate : decode [0b10101001, 0b01000010] = .ok (.lda (.imm 0x42), []) := by decide
theorem test_decode_load_zero_page_y : decode [0b10110110, 0b11110000] = .ok (.ldx (.mem (.zpy 0xF0)), []) := by decide
theorem test_decode_load_absolute_x : decode [0b10111100, 0b11111111, 0b00010010] = .ok (.ldy (.mem (.abx 0x12FF)), []) := by decide
theorem test_decode_store_indirect_y : decode [0b10010001, 0b00100000] = .ok (.sta (.izy 0x20), []) := by decide
theorem test_decode_store_zero_page_x : decode [0b10010100, 0b11110000] = .ok (.sty (.zpx 0xF0), []) := by decide
theorem test_decode_transfer : decode [0b10111010] = .ok (.tsx, []) := by decide
theorem test_decode_add_indexed_indirect : decode [0b01100001, 0b00100000] = .ok (.adc (.mem (.izx 0x20)), []) := by decide
theorem test_decode_logic_absolute_y : decode [0b00111001, 0b10000000, 0b00010010] = .ok (.and (.mem (.aby 0x1280)), []) := by decide
theorem test_decode_compare : decode [0b11000000, 0b10000000] = .ok (.cpy (.imm 0x80), []) := by decide
theorem test_decode_bit_test : decode [0b00101100, 0b00000000, 0b00000011] = .ok (.bit (.abs 0x0300), []) := by decide
theorem test_decode_increment : decode [0b11101110, 0b01010000, 0b11010000] = .ok (.inc (.abs 0xD050), []) := by decide
theorem test_decode_index_decrement : decode [0b11001010] = .ok (.dex, []) := by decide
theorem test_decode_shift_accumulator : decode [0b01001010] = .ok (.lsr .acc, []) := by decide
theorem test_decode_rotate_zero_page : decode [0b01100110, 0b00010000] = .ok (.ror (.mem (.zpg 0x10)), []) := by decide
theorem test_decode_branch : decode [0b01110000, 0b10000000] = .ok (.bvs 0x80, []) := by decide
theorem test_decode_jump_indirect : decode [0b01101100, 0b11111111, 0b00010010] = .ok (.jmp (.ind 0x12FF), []) := by decide
theorem test_decode_call : decode [0b00100000, 0b00000000, 0b00000011] = .ok (.jsr 0x0300, []) := by decide
theorem test_decode_stack : decode [0b00101000] = .ok (.plp, []) := by decide
theorem test_decode_flag : decode [0b10111000] = .ok (.clv, []) := by decide
theorem test_decode_brk : decode [0b00000000] = .ok (.brk, []) := by decide
theorem test_decode_rti : decode [0b01000000] = .ok (.rti, []) := by decide
theorem test_decode_illegal : decode [0b11111111] = .ok (.ill 0xFF, []) := by decide

/-- The decoder rejects by name what holds no instruction. -/
theorem test_decode_nothing : decode [] = .error .noOpcodeByte := by decide
theorem test_decode_cut_short : decode [0x4C, 0x00] = .error (.operandBytesMissing 0x4C) := by decide

/-- A table word: bit 0 is the least significant bit of the first byte. -/
theorem test_table_word : decodeTableWord 24 0x0300AD = some (.lda (.mem (.abs 0x0300))) := by decide
theorem test_table_word_short : decodeTableWord 8 0xAD = some (.lda (.mem (.abs 0x0000))) := by decide

/-- The very next step runs the placed word. -/
theorem test_with_fetch_word :
    registers (stateOf State.reset (step (State.reset.withFetchWord 16 0x42A9))) = (0x42, 0x00, 0x00, 0xFF, 0x04, 0x0202, 1) := by
  decide

/-! ## Interrupts, reset, host operations -/

/-- IQ1. -/
theorem test_irq_entry :
    registers (stepOf { boot with pc := 0x0204, p := 0x21, irqPending := true } [] [0xA9, 0x01]) =
      (0x00, 0x00, 0x00, 0xFC, 0x25, 0xFFF0, 6) ∧
    memFetch (stepOf { boot with pc := 0x0204, p := 0x21, irqPending := true } [] [0xA9, 0x01]) 0x01FD = 0x21 := by
  decide

/-- IQ2. -/
theorem test_irq_masked :
    registers (stepOf { boot with pc := 0x0204, p := 0x04, irqPending := true } [] [0xA9, 0x01]) =
      (0x01, 0x00, 0x00, 0xFF, 0x04, 0x0206, 1) ∧
    (stepOf { boot with pc := 0x0204, p := 0x04, irqPending := true } [] [0xA9, 0x01]).irqPending = true := by
  decide

/-- LS2: a store into the active ROM window is dropped. -/
theorem test_rom_guard :
    memFetch (stepOf { boot with a := 0x99, bus := { boot.bus with rom := ⟨true, 0xD000, 0xDFFF⟩ } } [(0xD050, 0x11)]
      [0x8D, 0x50, 0xD0]) 0xD050 = 0x11 := by
  decide

/-- RS1. -/
theorem test_reset_after_power_on : resetOp State.powerOn = State.reset ∧ State.reset.pc = 0x0200 ∧ State.reset.p = 0x04 := by decide

/-- RS2. -/
theorem test_reset_keeps :
    registers (resetOp (loaded { boot with a := 0x11, sp := 0x80, p := 0xCB, cyclesLeft := 3, exitAtLastRTS := true }
      [(0xFFFC, 0x00), (0xFFFD, 0xC0)] [])) = (0x11, 0x00, 0x00, 0x80, 0xCF, 0xC000, 3) := by
  decide

/-- RS3, tick 2: the override is applied on a countdown step and does not cut it short. -/
theorem test_pc_override :
    registers (stateOf boot (stepWith (some 0x0400) { boot with cyclesLeft := 3 })) =
      (0x00, 0x00, 0x00, 0xFF, 0x00, 0x0400, 2) := by
  decide

/-- R80, R81: the text of a relative branch shows its target. -/
theorem test_disassemble : disassemble (loaded boot [] [0xD0, 0xFE]) 0x0200 = ("BNE $0200", 0x0202) := by decide

/-- R48, U1: overlapping active ranges are refused. -/
theorem test_overlapping_devices_refused :
    DeviceMap.ofList [⟨1, "a", [⟨0xE000, 0xE0FF⟩], true, none, none, []⟩, ⟨2, "b", [⟨0xE0FF, 0xE100⟩], true, none, none, []⟩] =
      none := by
  decide

/-! ## Witnesses: the hypotheses of every statement that has some are met together -/

/-- A device map with one device that has a read handler and a write handler, and one that has neither. -/
def twoDevices : DeviceMap :=
  ⟨[⟨1, "io", [⟨0xE000, 0xE0FF⟩], true, some 0, some 0, []⟩, ⟨2, "stub", [⟨0xE100, 0xE100⟩], true, none, none, []⟩], by decide⟩

/-- A bus with these devices and an active ROM window from $D000 to $DFFF. -/
def deviceBus : Bus := { mem := [], rom := ⟨true, 0xD000, 0xDFFF⟩, devices := twoDevices, devEnv := [] }

/-- A state with the ROM window and no device. -/
def romState : State := { boot with bus := { boot.bus with rom := ⟨true, 0xD000, 0xDFFF⟩ } }

theorem witness_EncodeThenDecode : Instr.WellFormed (.lda (.imm 0x42)) ∧ ¬Instr.WellFormed (.ldx (.mem (.zpx 0x10))) := by decide

theorem witness_IllegalOpcodesAreTheListed105 : (0x02 : Byte) ∈ illegalOpcodes ∧ (0xFF : Byte) ∈ illegalOpcodes ∧
    (0xA9 : Byte) ∉ illegalOpcodes := by decide

theorem witness_BaseCostsFollowTheSummary : Instr.opcode (.lda (.mem (.izy 0x20))) = some 0xB1 ∧ Instr.opcode (.ill 0x02) = some 0x02 := by
  decide

theorem witness_DataReadRunsTheHandlerFirst :
    (∃ d, deviceBus.devices.owner 0xE000 = some d ∧ d.readHandler = some 0) ∧
    (∃ d, deviceBus.devices.owner 0xE0FF = some d ∧ d.readHandler = some 0) ∧
    (∃ d, deviceBus.devices.owner 0xE100 = some d ∧ d.readHandler = none) ∧
    deviceBus.devices.owner 0xDFFF = none ∧ deviceBus.devices.owner 0xE101 = none :=
  ⟨⟨_, rfl, rfl⟩, ⟨_, rfl, rfl⟩, ⟨_, rfl, rfl⟩, rfl, rfl⟩

theorem witness_DataWriteGuardThenArrayThenHandler :
    (deviceBus.rom.enabled = true ∧ deviceBus.rom.first.toNat ≤ (0xD000 : Addr).toNat ∧
      (0xDFFF : Addr).toNat ≤ deviceBus.rom.last.toNat) ∧
    ¬(deviceBus.rom.enabled = true ∧ deviceBus.rom.first.toNat ≤ (0xCFFF : Addr).toNat ∧
      (0xCFFF : Addr).toNat ≤ deviceBus.rom.last.toNat) ∧
    ¬(deviceBus.rom.enabled = true ∧ deviceBus.rom.first.toNat ≤ (0xE000 : Addr).toNat ∧
      (0xE000 : Addr).toNat ≤ deviceBus.rom.last.toNat) ∧
    deviceBus.devices.owner 0xCFFF = none ∧
    (∃ d, deviceBus.devices.owner 0xE000 = some d ∧ d.writeHandler = some 0) ∧
    (∃ d, deviceBus.devices.owner 0xE100 = some d ∧ d.writeHandler = none) :=
  ⟨by decide, by decide, by decide, rfl, ⟨_, rfl, rfl⟩, ⟨_, rfl, rfl⟩⟩

theorem witness_StoredByteReadsBack :
    romState.bus.mem.wf = true ∧ romState.bus.devices.owner 0xFFFF = none ∧ romState.bus.rom.guards 0xFFFF = false ∧
      romState.bus.rom.guards 0xCFFF = false ∧ romState.bus.rom.guards 0xE000 = false ∧ (0x0000 : Addr) ≠ 0xFFFF := by
  decide

theorem witness_NoAddressHasTwoOwners :
    (twoDevices.regs[1]).owns 0xE100 = true ∧ (twoDevices.regs[0]).owns 0xE0FF = true := by decide

theorem noDevice_romState : romState.NoDevice := fun _ => rfl

theorem witness_RomWindowIsNeverWritten :
    romState.NoDevice ∧ romState.bus.rom.guards 0xD000 = true ∧ romState.bus.rom.guards 0xDFFF = true ∧
      ∃ t, step romState = .next t :=
  ⟨noDevice_romState, by decide, by decide, _, rfl⟩

theorem witness_StepKeepsInvariant : State.reset.Inv ∧ State.Inv { boot with cyclesLeft := 6 } ∧ ∃ t, step State.reset = .next t :=
  ⟨⟨rfl, by decide⟩, ⟨rfl, by decide⟩, _, rfl⟩

theorem witness_StepsKeepTheConfiguration : ∃ t, step { romState with exitAtLastRTS := true } = .next t := ⟨_, rfl⟩

theorem witness_LastFieldsPageBoundarySoftIrqLastRTSNeverInfluenceExecution :
    SameProgramView boot { boot with
      lastOpCode := 0xFF, lastAddrMode := .izy, lastArg := 0x1234, pageBoundary := true, softIrq := true, lastRTS := true } :=
  ⟨rfl, rfl, rfl, rfl, rfl, rfl, rfl, rfl, rfl, rfl⟩

theorem witness_InstructionStartForgetsTheRecord : boot.cyclesLeft = 0 := rfl

theorem witness_FlagsChangeOnlyInTheirWriters :
    (∀ f, writesFlag f .nop = false ∧ ∃ t, exec .nop boot = .next t) ∧ writesFlag .c (.lda (.imm 0x42)) = false ∧
      ∃ t, exec (.lda (.imm 0x42)) boot = .next t :=
  ⟨fun f => ⟨by cases f <;> rfl, _, rfl⟩, rfl, _, rfl⟩

theorem witness_RegistersChangeOnlyInTheirWriters :
    (writesA (.ldx (.imm 0x42)) = false ∧ writesY (.ldx (.imm 0x42)) = false ∧ writesSP (.ldx (.imm 0x42)) = false ∧
      ∃ t, exec (.ldx (.imm 0x42)) boot = .next t) ∧
    writesX (.lda (.imm 0x42)) = false ∧ ∃ t, exec (.lda (.imm 0x42)) boot = .next t :=
  ⟨⟨rfl, rfl, rfl, _, rfl⟩, rfl, _, rfl⟩

theorem witness_PcPassesTheOperandBytes :
    writesPC (.lda (.mem (.abs 0x0300))) = false ∧ ∃ t, exec (.lda (.mem (.abs 0x0300))) { boot with pc := 0xFFFF } = .next t :=
  ⟨rfl, _, rfl⟩

theorem witness_MemoryChangesOnlyWhereStored :
    boot.NoDevice ∧ (∃ t, exec (.sta (.zpg 0x10)) boot = .next t) ∧ (0x0011 : Addr) ∉ storedAddresses (.sta (.zpg 0x10)) boot :=
  ⟨fun _ => rfl, ⟨_, rfl⟩, by decide⟩

theorem witness_CountdownOnlyDecrements :
    State.cyclesLeft { boot with cyclesLeft := 1, irqPending := true } = 0 + 1 ∧ State.cyclesLeft { boot with cyclesLeft := 6 } = 5 + 1 :=
  ⟨rfl, rfl⟩

theorem witness_StepRunsTheDecodedInstruction :
    (loaded boot [] [0xA9, 0x42]).cyclesLeft = 0 ∧ (loaded boot [] [0xA9, 0x42]).irqPending = false ∧
    decode [memFetch (loaded boot [] [0xA9, 0x42]) 0x0200, memFetch (loaded boot [] [0xA9, 0x42]) 0x0201,
      memFetch (loaded boot [] [0xA9, 0x42]) 0x0202] = .ok (.lda (.imm 0x42), [0x00]) := by
  decide

theorem witness_UnmaskedRequestIsTaken :
    boot.cyclesLeft = 0 ∧ State.irqPending { boot with irqPending := true } = true ∧
      (State.p { boot with irqPending := true }).getLsbD 2 = false := by
  decide

theorem witness_MaskedRequestIsHeld :
    State.irqPending { boot with irqPending := true, p := 0x04 } = true ∧
      (State.p { boot with irqPending := true, p := 0x04 }).getLsbD 2 = true ∧
      ∃ t, step { boot with irqPending := false, p := 0x04 } = .next t :=
  ⟨rfl, rfl, _, rfl⟩

theorem witness_InstructionRunsInItsFirstStep :
    boot.cyclesLeft = 0 ∧ ∃ t, step boot = .next t ∧ (0 : Nat) ≤ t.cyclesLeft ∧ 6 ≤ t.cyclesLeft :=
  ⟨rfl, _, rfl, by decide, by decide⟩

theorem witness_PenaltiesAreExactlyThese :
    (Instr.WellFormed (.lda (.mem (.abx 0x12FF))) ∧ ∃ t, exec (.lda (.mem (.abx 0x12FF))) { boot with x := 1 } = .next t) ∧
    branchTaken (.lda (.mem (.abx 0x12FF))) { boot with x := 1 } = none ∧
    penalty (.lda (.mem (.abx 0x12FF))) { boot with x := 1 } ≠ 0 :=
  ⟨⟨rfl, _, rfl⟩, rfl, by decide⟩

theorem witness_PcOverrideIsAppliedFirst : State.cyclesLeft { boot with cyclesLeft := 3 } = 2 + 1 := rfl

theorem witness_IllegalOpcodeTraps :
    (loaded boot [] [0x02]).cyclesLeft = 0 ∧ (loaded boot [] [0x02]).irqPending = false ∧
      memFetch (loaded boot [] [0x02]) (loaded boot [] [0x02]).pc ∈ illegalOpcodes := by
  decide

theorem witness_ResolverFollowsTheTable : boot.NoDevice := fun _ => rfl

theorem witness_LogicCombinesBitwise :
    (Instr.and (.imm 0x0F) = .and (.imm 0x0F) ∧ and = and) ∧ (Instr.ora (.imm 0x0F) = .ora (.imm 0x0F) ∧ or = or) ∧
      (Instr.eor (.imm 0x0F) = .eor (.imm 0x0F) ∧ xor = xor) :=
  ⟨⟨rfl, rfl⟩, ⟨rfl, rfl⟩, rfl, rfl⟩

theorem witness_ComparesCompare :
    (Instr.cmp (.imm 0x10) = .cmp (.imm 0x10) ∧ (0xFF : Byte) = State.a { boot with a := 0xFF }) ∧
    (Instr.cpx (.imm 0x10) = .cpx (.imm 0x10) ∧ (0x00 : Byte) = boot.x) ∧
    (Instr.cpy (.imm 0x10) = .cpy (.imm 0x10) ∧ (0x00 : Byte) = boot.y) :=
  ⟨⟨rfl, rfl⟩, ⟨rfl, rfl⟩, rfl, rfl⟩

theorem witness_MemoryIncrementAndDecrement :
    (Instr.inc (.zpg 0x10) = .inc (.zpg 0x10) ∧
      (fun v : Byte => BitVec.ofNat 8 (v.toNat + 1)) = fun v => BitVec.ofNat 8 (v.toNat + 1)) ∧
    (Instr.dec (.zpg 0x10) = .dec (.zpg 0x10) ∧
      (fun v : Byte => BitVec.ofNat 8 (v.toNat + 255)) = fun v => BitVec.ofNat 8 (v.toNat + 255)) :=
  ⟨⟨rfl, rfl⟩, rfl, rfl⟩

theorem witness_ShiftsAndRotates :
    (∃ i f out, i = Instr.asl .acc ∧ f = (fun v : Byte => BitVec.ofNat 8 (2 * v.toNat)) ∧ out = fun v : Byte => decide (128 ≤ v.toNat)) ∧
    (∃ i f out, i = Instr.lsr .acc ∧ f = (fun v : Byte => BitVec.ofNat 8 (v.toNat / 2)) ∧ out = fun v : Byte => decide (v.toNat % 2 = 1)) ∧
    (∃ i f out, i = Instr.rol .acc ∧ f = (fun v : Byte => BitVec.ofNat 8 (2 * v.toNat + (boot.p.getLsbD 0).toNat)) ∧
      out = fun v : Byte => decide (128 ≤ v.toNat)) ∧
    (∃ i f out, i = Instr.ror .acc ∧ f = (fun v : Byte => BitVec.ofNat 8 (v.toNat / 2 + 128 * (boot.p.getLsbD 0).toNat)) ∧
      out = fun v : Byte => decide (v.toNat % 2 = 1)) :=
  ⟨⟨_, _, _, rfl, rfl, rfl⟩, ⟨_, _, _, rfl, rfl, rfl⟩, ⟨_, _, _, rfl, rfl, rfl⟩, _, _, _, rfl, rfl, rfl⟩

theorem witness_BranchesBranch :
    branchTaken (.bne 0x7F) boot = some (0x7F, true) ∧ branchTaken (.beq 0x80) boot = some (0x80, false) ∧
      branchTaken (.bcc 0x80) boot = some (0x80, true) ∧ branchTaken (.bcs 0x00) boot = some (0x00, false) ∧
      branchTaken (.bpl 0xFF) boot = some (0xFF, true) ∧ branchTaken (.bmi 0x01) boot = some (0x01, false) ∧
      branchTaken (.bvc 0x00) boot = some (0x00, true) ∧ branchTaken (.bvs 0x00) boot = some (0x00, false) :=
  ⟨rfl, rfl, rfl, rfl, rfl, rfl, rfl, rfl⟩

theorem witness_RtsReturns :
    (State.exitAtLastRTS { boot with exitAtLastRTS := true } = true ∧ boot.sp = 0xFF) ∧
    ¬(State.exitAtLastRTS { boot with exitAtLastRTS := true, sp := 0xFE } = true ∧
      State.sp { boot with exitAtLastRTS := true, sp := 0xFE } = 0xFF) ∧
    ¬(boot.exitAtLastRTS = true ∧ boot.sp = 0xFF) := by
  decide

theorem witness_FlagInstructionsAndNop :
    ∀ q ∈ [(Instr.clc, 0, false), (.sec, 0, true), (.cli, 2, false), (.sei, 2, true), (.cld, 3, false), (.sed, 3, true),
      (.clv, 6, false)], ∃ i k v, q = (i, k, v) :=
  fun q _ => ⟨q.1, q.2.1, q.2.2, rfl⟩

theorem witness_DecimalAddIsDecimal : (0 : Nat) < 100 ∧ (99 : Nat) < 100 := by decide

theorem witness_DecimalSubtractIsDecimal : (0 : Nat) < 100 ∧ (99 : Nat) < 100 := by decide

theorem witness_JsrThenRtsReturns :
    boot.bus.mem.wf = true ∧ boot.NoDevice ∧ boot.bus.rom.guards (stackAt boot.sp) = false ∧
      boot.bus.rom.guards (stackAt (boot.sp - 1)) = false ∧
      (∃ t u, exec (.jsr 0x0300) boot = .next t ∧ exec .rts { t with pc := 0x0301 } = .next u) ∧
      ¬(boot.exitAtLastRTS = true ∧ boot.sp = 1) :=
  ⟨rfl, fun _ => rfl, rfl, rfl, ⟨_, _, rfl, rfl⟩, by decide⟩

theorem witness_JsrThenRtsReturns_lastRTS :
    (State.bus { boot with exitAtLastRTS := true, sp := 1 }).mem.wf = true ∧
      State.NoDevice { boot with exitAtLastRTS := true, sp := 1 } ∧
      State.exitAtLastRTS { boot with exitAtLastRTS := true, sp := 1 } = true ∧ State.sp { boot with exitAtLastRTS := true, sp := 1 } = 1 ∧
      ∃ t u, exec (.jsr 0x0300) { boot with exitAtLastRTS := true, sp := 1 } = .next t ∧
        exec .rts { t with pc := 0x0301 } = .next u :=
  ⟨rfl, fun _ => rfl, rfl, rfl, _, _, rfl, rfl⟩

theorem witness_BrkThenRtiReturns :
    boot.bus.mem.wf = true ∧ boot.NoDevice ∧ boot.bus.rom.guards (stackAt boot.sp) = false ∧
      boot.bus.rom.guards (stackAt (boot.sp - 1)) = false ∧ boot.bus.rom.guards (stackAt (boot.sp - 2)) = false ∧
      ∃ t u, exec .brk boot = .next t ∧ exec .rti { t with pc := 0xFFF1 } = .next u :=
  ⟨rfl, fun _ => rfl, rfl, rfl, rfl, _, _, rfl, rfl⟩

theorem witness_InterruptThenRtiResumes :
    State.cyclesLeft { boot with irqPending := true } = 0 ∧ State.irqPending { boot with irqPending := true } = true ∧
      (State.p { boot with irqPending := true }).getLsbD 2 = false ∧ State.NoDevice { boot with irqPending := true } ∧
      (State.bus { boot with irqPending := true }).mem.wf = true ∧ boot.bus.rom.guards (stackAt boot.sp) = false ∧
      boot.bus.rom.guards (stackAt (boot.sp - 1)) = false ∧ boot.bus.rom.guards (stackAt (boot.sp - 2)) = false ∧
      ∃ t u, step { boot with irqPending := true } = .next t ∧ exec .rti { t with pc := 0xFFF1 } = .next u :=
  ⟨rfl, rfl, rfl, fun _ => rfl, rfl, rfl, rfl, rfl, _, _, rfl, rfl⟩

theorem witness_RegisterRecordOperations :
    State.exitAtLastRTS { boot with a := 0x42 } = boot.exitAtLastRTS ∧ State.bus { boot with a := 0x42 } = boot.bus ∧
      0 < State.cyclesLeft { boot with cyclesLeft := 1 } :=
  ⟨rfl, rfl, by decide⟩

theorem witness_DisassemblyAgreesWithExecution :
    branchTaken (decodeBytes (memFetch (loaded boot [] [0xD0, 0x05]) 0x0200) (memFetch (loaded boot [] [0xD0, 0x05]) 0x0201)
      (memFetch (loaded boot [] [0xD0, 0x05]) 0x0202)) boot = some (0x05, true) := by
  decide

end Sys2Proof.Tests
end

section
/-! The binary adder and subtracter against arithmetic over numbers (spec/41_alu_flags.md R112, R114). -/

namespace Sys2Proof.Machine

/-! ## Bytes -/

/-- The overflow formulas of R112 and R114 mask with `0x80`: what they test is the sign bit. -/
theorem and_signMask_bne_zero (x : Byte) : ((x &&& 0x80) != 0) = x.msb := by
  rw [show (0x80 : Byte) = BitVec.twoPow 8 7 from rfl, BitVec.and_twoPow, BitVec.msb_eq_getLsbD_last]
  cases x.getLsbD 7 <;> rfl

theorem byte_msb_eq_decide (x : Byte) : x.msb = decide (128 ≤ x.toNat) := BitVec.msb_eq_decide x

theorem byte_toInt_eq (x : Byte) : x.toInt = if x.toNat < 128 then (x.toNat : Int) else x.toNat - 256 := by
  rw [BitVec.toInt_eq_toNat_cond]
  split <;> split <;> omega

theorem xor_0xFF (m : Byte) : m ^^^ 0xFF = ~~~m := BitVec.xor_allOnes

/-! ## The binary adder -/

theorem adcBin_r_toNat (a m : Byte) (c : Bool) : (adcBin a m c).r.toNat = (a.toNat + m.toNat + c.toNat) % 256 :=
  BitVec.toNat_ofNat _ 8

theorem adcBin_c (a m : Byte) (c : Bool) : (adcBin a m c).c = decide (255 < a.toNat + m.toNat + c.toNat) := rfl

theorem adcBin_z (a m : Byte) (c : Bool) : (adcBin a m c).z = decide ((adcBin a m c).r = 0) := rfl

theorem adcBin_n (a m : Byte) (c : Bool) : (adcBin a m c).n = (adcBin a m c).r.getLsbD 7 :=
  BitVec.msb_eq_getLsbD_last (adcBin a m c).r

theorem adcBin_v (a m : Byte) (c : Bool) :
    (adcBin a m c).v = ((~~~(a ^^^ m) &&& (a ^^^ (adcBin a m c).r) &&& 0x80) != 0) := rfl

/-- The sign test of R112: the operands share a sign and the result has the other. -/
theorem adcBin_v_eq_sign_test (a m : Byte) (c : Bool) :
    (adcBin a m c).v = decide (a.msb = m.msb ∧ (adcBin a m c).r.msb ≠ a.msb) := by
  rw [adcBin_v, and_signMask_bne_zero, BitVec.msb_and, BitVec.msb_not, BitVec.msb_xor, BitVec.msb_xor]
  cases a.msb <;> cases m.msb <;> cases (adcBin a m c).r.msb <;> rfl

/-- The sign test is signed overflow: over the unsigned values, each side is a comparison with 128 or 256. -/
theorem adcBin_v_iff_signed_overflow (a m : Byte) (c : Bool) :
    (adcBin a m c).v = true ↔
      a.toInt + m.toInt + c.toNat < -128 ∨ 127 < a.toInt + m.toInt + c.toNat := by
  have ha := a.isLt
  have hm := m.isLt
  have hc := c.toNat_le
  rw [adcBin_v_eq_sign_test, decide_eq_true_iff, byte_msb_eq_decide, byte_msb_eq_decide, byte_msb_eq_decide,
    adcBin_r_toNat, byte_toInt_eq, byte_toInt_eq, decide_eq_decide, Ne, decide_eq_decide]
  split <;> split <;> omega

/-! ## The binary subtracter -/

/-- Complementing the operand turns its share of the sum into `255 - m`, so the sum is the difference plus 256. -/
theorem complement_sum_eq_difference_add (a m : Byte) (c : Bool) :
    ((a.toNat + (m ^^^ 0xFF).toNat + c.toNat : Nat) : Int) = a.toNat - m.toNat - (1 - c.toNat) + 256 := by
  have hm := m.isLt
  rw [xor_0xFF, BitVec.toNat_not]
  omega

theorem sbcBin_r_toNat (a m : Byte) (c : Bool) :
    ((sbcBin a m c).r.toNat : Int) = ((a.toNat : Int) - m.toNat - (1 - c.toNat)) % 256 := by
  have hs := complement_sum_eq_difference_add a m c
  rw [sbcBin, adcBin_r_toNat, Int.natCast_emod, hs]
  exact Int.add_emod_right _ 256

theorem sbcBin_c (a m : Byte) (c : Bool) :
    (sbcBin a m c).c = decide ((0 : Int) ≤ a.toNat - m.toNat - (1 - c.toNat)) := by
  have hs := complement_sum_eq_difference_add a m c
  rw [sbcBin, adcBin_c, decide_eq_decide]
  omega

theorem sbcBin_v (a m : Byte) (c : Bool) :
    (sbcBin a m c).v = (((a ^^^ m) &&& (a ^^^ (sbcBin a m c).r) &&& 0x80) != 0) := by
  have hx : ~~~(a ^^^ (m ^^^ 0xFF)) = a ^^^ m := by
    rw [xor_0xFF, BitVec.not_xor_right, BitVec.not_not]
  rw [sbcBin, adcBin_v, hx]

/-! ## The obligations of R112 and R114 -/

/-- Settles O49, from one lemma per field of the adder's result. -/
theorem binaryAddIsExact : Obligations.BinaryAddIsExact := by
  intro a m c
  refine ⟨adcBin_r_toNat a m c, adcBin_c a m c, adcBin_z a m c, adcBin_n a m c, ?_,
    adcBin_v_iff_signed_overflow a m c⟩
  simpa only [BitVec.msb_eq_getLsbD_last] using adcBin_v_eq_sign_test a m c

/-- Settles O51: the complement sum is the integer difference plus 256, which fixes the result and C; Z and N are the adder's. -/
theorem binarySubtractFormsAgree : Obligations.BinarySubtractFormsAgree := fun a m c =>
  ⟨rfl, sbcBin_r_toNat a m c, sbcBin_c a m c, sbcBin_v a m c, adcBin_z a _ c, adcBin_n a _ c⟩

end Sys2Proof.Machine
end

section
/-! The words of the claims against the model's: bytes, pointers and the resolver (spec/40_addressing_modes.md R90 to R105),
and what `SetNZ` writes (spec/41_alu_flags.md R111). -/

namespace Sys2Proof.Machine

open Sys2Proof.Claims

/-! ## Words -/

theorem toNat_hi (w : Addr) : (hi w).toNat = w.toNat / 256 := by
  have hw := w.isLt
  rw [hi, BitVec.extractLsb'_toNat, Nat.shiftRight_eq_div_pow]
  omega

theorem toNat_zext16 (b : Byte) : (zext16 b).toNat = b.toNat := BitVec.toNat_setWidth_of_le (by decide)

theorem ofNat_toNat_byte (b : Byte) : BitVec.ofNat 16 b.toNat = zext16 b := BitVec.ofNat_toNat 16 b

theorem ofNat_toNat_add_byte (b i : Byte) : BitVec.ofNat 16 ((b.toNat + i.toNat) % 256) = zext16 (b + i) := by
  rw [← ofNat_toNat_byte, BitVec.toNat_add]

theorem cross_eq_decide (a b : Addr) : cross a b = decide (a.toNat / 256 ≠ b.toNat / 256) := by
  simp only [cross, bne, ← toNat_hi, Ne, ← BitVec.toNat_eq, beq_eq_decide, decide_not]

/-- The operand word in memory order, by the claims' numbers. -/
theorem wordBytes_eq (w : Addr) : wordBytes w = [lowOf w, highOf w] := by
  have hlow : lo w = lowOf w := rfl
  have hhigh : hi w = highOf w := by
    rw [highOf, ← toNat_hi, BitVec.ofNat_toNat, BitVec.setWidth_eq]
  rw [wordBytes, hlow, hhigh]

/-! ## The resolver -/

theorem indexed_eq (w : Addr) (i : Byte) (b : Bus) :
    indexed w.toNat i.toNat b = ⟨w + zext16 i, cross w (w + zext16 i), b⟩ := by
  have hea : BitVec.ofNat 16 (w.toNat + i.toNat) = w + zext16 i := by
    rw [BitVec.ofNat_add, BitVec.ofNat_toNat, BitVec.setWidth_eq, ofNat_toNat_byte]
  have hpage : (w.toNat + i.toNat) % 65536 = (w + zext16 i).toNat := by
    rw [BitVec.toNat_add, toNat_zext16]
  rw [indexed, hea, hpage, cross_eq_decide]

/-- The claims' pointer is the model's: the high byte of a zero-page pointer comes from the next address (D5). -/
theorem pointerAt_eq (p : Addr) (s : State) :
    pointerAt s.bus p.toNat = ((readZpPointer p s).1.toNat, (readZpPointer p s).2.bus) := by
  have hlow : BitVec.ofNat 16 p.toNat = p := by rw [BitVec.ofNat_toNat, BitVec.setWidth_eq]
  have hhigh : BitVec.ofNat 16 (p.toNat + 1) = zpPointerHigh p := by
    rw [BitVec.ofNat_add, hlow]
    rfl
  rw [readZpPointer, readPointer, toNat_join, pointerAt, hlow, hhigh, Nat.add_comm, Nat.mul_comm]
  rfl

/-- The resolver computes the rows of R105, one case per mode. -/
theorem resolveMem_eq (m : MemOperand) (s : State) : resolveMem m s = ((resolution m s).ea, resolvedState m s) := by
  cases m with
  | zpg b => simp only [resolution, resolvedState, rawArg, ofNat_toNat_byte]; rfl
  | zpx b => simp only [resolution, resolvedState, rawArg, ofNat_toNat_byte, ofNat_toNat_add_byte]; rfl
  | zpy b => simp only [resolution, resolvedState, rawArg, ofNat_toNat_byte, ofNat_toNat_add_byte]; rfl
  | abs w => rfl
  | abx w => simp only [resolution, resolvedState, indexed_eq]; rfl
  | aby w => simp only [resolution, resolvedState, indexed_eq]; rfl
  | izx b =>
    have hptr : (b.toNat + s.x.toNat) % 256 = (zext16 (b + s.x)).toNat := by rw [toNat_zext16, BitVec.toNat_add]
    simp only [resolution, resolvedState, rawArg, hptr, pointerAt_eq, BitVec.ofNat_toNat, BitVec.setWidth_eq]
    rfl
  | izy b =>
    simp only [resolution, resolvedState, rawArg, ofNat_toNat_byte]
    rw [← toNat_zext16]
    simp only [pointerAt_eq, indexed_eq]
    rfl

theorem resolveImp_eq (s : State) : resolveImp s = implied s := by
  simp [resolveImp, State.resolved, State.noteOperand, AddrMode.length, implied]

/-! ## Operands -/

@[simp] theorem operand_p (o : ReadOperand) (s : State) : (operand o s).2.p = s.p := by
  cases o <;> rfl

/-- `ReadOperand` reads the claims' operand byte, with the page-crossing penalty (R147). -/
theorem readOperand_eq (o : ReadOperand) (s : State) : readOperand o s = operand o s := by
  cases o with
  | imm b => simp only [operand, ofNat_toNat_byte]; rfl
  | mem m =>
    have hpen (c : Bool) : c.toNat = if c then 1 else 0 := Bool.cond_eq_ite c 1 0
    simp only [readOperand, resolveMem_eq, memRead, State.readPenalty, hpen]
    rfl

/-- A store is one Data write at the effective address and no penalty (R153 to R155). -/
theorem storeOperand_eq (m : MemOperand) (v : Byte) (s : State) :
    storeOperand m v s =
      { resolvedState m s with bus := (resolution m s).bus.write (resolution m s).ea v } := by
  rw [storeOperand, resolveMem_eq]
  rfl

/-! ## Flags -/

theorem getLsbD_setNZ (v p : Byte) (k : Nat) :
    (setNZ v p).getLsbD k = if k = 7 then v.msb else if k = 1 then v == 0 else p.getLsbD k := by
  rw [setNZ, getLsbD_putFlag, getLsbD_putFlag]
  rfl

/-- `SetNZ(v)` writes N and Z of `v` and keeps every other bit (R111). -/
theorem writes_setNZ (v p : Byte) : Writes p (setNZ v p) (nz v) := by
  constructor
  · simp [nz, getLsbD_setNZ, BitVec.msb_eq_getLsbD_last, beq_eq_decide]
  · intro k hk
    obtain ⟨hn, hz⟩ : 7 ≠ k ∧ 1 ≠ k := by simpa [nz] using hk
    rw [getLsbD_setNZ, if_neg hn.symm, if_neg hz.symm]

/-! ## Encodings -/

theorem encode_byteOperand {i : Instr} {op b : Byte} (hop : i.opcode = some op) (hb : i.operandBytes = [b]) :
    encode i = some [op, b] := by
  rw [encode, hop, hb]

theorem encode_wordOperand {i : Instr} {op : Byte} {w : Addr} (hop : i.opcode = some op)
    (hw : i.operandBytes = wordBytes w) : encode i = some [op, lowOf w, highOf w] := by
  rw [encode, hop, hw, wordBytes_eq]

/-- A mnemonic with a group 1 row in the encoder's table encodes by that row. -/
theorem encodesGroup1_of_row {f : ReadOperand → Instr} {imm zpg zpx abs abx aby izx izy : Byte}
    (hop : ∀ o, (f o).opcode = o.group1 imm zpg zpx abs abx aby izx izy) (hb : ∀ o, (f o).operandBytes = o.bytes) :
    EncodesGroup1 f imm zpg zpx abs abx aby izx izy := fun _ _ =>
  ⟨encode_byteOperand (hop _) (hb _), encode_byteOperand (hop _) (hb _), encode_byteOperand (hop _) (hb _),
    encode_wordOperand (hop _) (hb _), encode_wordOperand (hop _) (hb _), encode_wordOperand (hop _) (hb _),
    encode_byteOperand (hop _) (hb _), encode_byteOperand (hop _) (hb _)⟩

end Sys2Proof.Machine
end

section
/-! Loads, stores and transfers (spec/43_load_store_transfer.md R150 to R161). -/

namespace Sys2Proof.Machine

open Sys2Proof.Claims

/-! ## Loads -/

theorem exec_lda (o : ReadOperand) (s : State) :
    exec (.lda o) s = .next { (operand o s).2 with a := (operand o s).1, p := setNZ (operand o s).1 s.p } := by
  rw [exec, execLda, readOperand_eq, operand_p]

theorem exec_ldx (o : ReadOperand) (s : State) :
    exec (.ldx o) s = .next { (operand o s).2 with x := (operand o s).1, p := setNZ (operand o s).1 s.p } := by
  rw [exec, execLdx, readOperand_eq, operand_p]

theorem exec_ldy (o : ReadOperand) (s : State) :
    exec (.ldy o) s = .next { (operand o s).2 with y := (operand o s).1, p := setNZ (operand o s).1 s.p } := by
  rw [exec, execLdy, readOperand_eq, operand_p]

/-- Settles O30: the rows of the encoder's tables, and `ReadOperand` followed by `SetNZ` of the byte read. -/
theorem loadsLoad : Obligations.LoadsLoad := by
  refine ⟨encodesGroup1_of_row (fun _ => rfl) (fun _ => rfl), fun b w => ?ldx, fun b w => ?ldy, fun o s => ?effect⟩
  case ldx =>
    exact ⟨encode_byteOperand rfl rfl, encode_byteOperand rfl rfl, encode_byteOperand rfl rfl,
      encode_wordOperand rfl rfl, encode_wordOperand rfl rfl⟩
  case ldy =>
    exact ⟨encode_byteOperand rfl rfl, encode_byteOperand rfl rfl, encode_byteOperand rfl rfl,
      encode_wordOperand rfl rfl, encode_wordOperand rfl rfl⟩
  case effect =>
    exact ⟨setNZ (operand o s).1 s.p, writes_setNZ _ _, exec_lda o s, exec_ldx o s, exec_ldy o s⟩

/-! ## Stores -/

/-- Settles O31: the rows of the encoder's tables, and the resolver followed by one Data write. -/
theorem storesStore : Obligations.StoresStore := by
  refine ⟨fun b w => ?sta, fun b w => ?stx, fun b w => ?sty, ⟨rfl, rfl, rfl⟩, fun m s => ?effect⟩
  case sta =>
    exact ⟨encode_byteOperand rfl rfl, encode_byteOperand rfl rfl, encode_wordOperand rfl rfl,
      encode_wordOperand rfl rfl, encode_wordOperand rfl rfl, encode_byteOperand rfl rfl, encode_byteOperand rfl rfl⟩
  case stx => exact ⟨encode_byteOperand rfl rfl, encode_byteOperand rfl rfl, encode_wordOperand rfl rfl⟩
  case sty => exact ⟨encode_byteOperand rfl rfl, encode_byteOperand rfl rfl, encode_wordOperand rfl rfl⟩
  case effect =>
    exact ⟨by rw [exec, execSta, storeOperand_eq], by rw [exec, execStx, storeOperand_eq],
      by rw [exec, execSty, storeOperand_eq]⟩

/-! ## Register transfers -/

/-- Settles O32: `resolve(IMP)`, the register move, and `SetNZ` of the byte moved for all but TXS. -/
theorem transfersTransfer : Obligations.TransfersTransfer := by
  refine ⟨⟨rfl, rfl, rfl, rfl, rfl, rfl⟩, fun s => ?_⟩
  rw [← resolveImp_eq]
  exact ⟨⟨setNZ s.a s.p, writes_setNZ _ _, rfl, rfl⟩, ⟨setNZ s.x s.p, writes_setNZ _ _, rfl⟩,
    ⟨setNZ s.y s.p, writes_setNZ _ _, rfl⟩, ⟨setNZ s.sp s.p, writes_setNZ _ _, rfl⟩, rfl⟩

end Sys2Proof.Machine
end

section
/-! The rules the arithmetic and logic instructions share: which bits of `P` a chain of flag writes replaces, the registers
after an operand is read, and `Modify` in the claims' words (spec/41_alu_flags.md R110 to R123, spec/42_dispatcher_cycles.md
R147, R148). -/

namespace Sys2Proof.Machine

open Sys2Proof.Claims

/-! ## Chains of flag writes -/

theorem writes_nil (p : Byte) : Writes p p [] := ⟨fun _ h => absurd h List.not_mem_nil, fun _ _ => rfl⟩

/-- One more flag write puts its bit in front of the bits written before, if it was not among them. -/
theorem writes_putFlag {p q : Byte} {bits : List (Nat × Bool)} (h : Writes p q bits) (f : Flag) (v : Bool)
    (hf : ∀ kv ∈ bits, kv.1 ≠ f.bit) : Writes p (putFlag q f v) ((f.bit, v) :: bits) := by
  obtain ⟨hset, hkeep⟩ := h
  constructor
  · intro kv hkv
    rw [getLsbD_putFlag]
    obtain rfl | hmem := List.mem_cons.mp hkv
    · exact if_pos rfl
    · rw [if_neg (hf kv hmem), hset kv hmem]
  · intro k hk
    obtain ⟨hfk, hrest⟩ := List.forall_mem_cons.mp hk
    rw [getLsbD_putFlag, if_neg (Ne.symm hfk), hkeep k hrest]

/-- The order in which the bits are listed does not matter. -/
theorem writes_perm {p q : Byte} {bits bits' : List (Nat × Bool)} (h : Writes p q bits) (hp : bits.Perm bits') :
    Writes p q bits' := by
  simpa only [Writes, hp.mem_iff] using h

/-- What the shifts, rotates and compares write: N and Z of the result byte, and C. -/
theorem writes_setCNZ (c : Bool) (r p : Byte) : Writes p (setCNZ c r p) [(7, r.msb), (1, r == 0), (0, c)] := by
  have hc := writes_putFlag (writes_nil p) .c c (by simp)
  have hz := writes_putFlag hc .z (r == 0) (by simp [Flag.bit])
  exact writes_putFlag hz .n r.msb (by simp [Flag.bit])

/-- ADC and SBC write the four flags of the adder's result (R125). -/
theorem writes_setFlags (out : AddResult) (p : Byte) :
    Writes p (out.setFlags p) [(7, out.n), (6, out.v), (1, out.z), (0, out.c)] := by
  have hc := writes_putFlag (writes_nil p) .c out.c (by simp)
  have hv := writes_putFlag hc .v out.v (by simp [Flag.bit])
  have hz := writes_putFlag hv .z out.z (by simp [Flag.bit])
  have hn := writes_putFlag hz .n out.n (by simp [Flag.bit])
  exact writes_perm hn ((List.Perm.swap _ _ _).cons _)

/-- BIT writes Z of the AND, and N and V from the operand (R121). -/
theorem writes_bitFlags (a m p : Byte) :
    Writes p (bitFlags a m p) [(7, m.getLsbD 7), (6, m.getLsbD 6), (1, decide (a &&& m = 0))] := by
  have hz := writes_putFlag (writes_nil p) .z ((a &&& m) == 0) (by simp)
  have hn := writes_putFlag hz .n (m.getLsbD 7) (by simp [Flag.bit])
  have hv := writes_putFlag hn .v (m.getLsbD 6) (by simp [Flag.bit])
  exact writes_perm hv (List.Perm.swap _ _ _)

/-- The flags of a comparison over numbers: N of the difference modulo 256, Z equality, C the unsigned order (R120). -/
theorem writes_compareFlags (reg m p : Byte) :
    Writes p (compareFlags reg m p) [(7, decide (128 ≤ (reg.toNat + 256 - m.toNat) % 256)), (1, decide (reg = m)),
      (0, decide (m.toNat ≤ reg.toNat))] := by
  have hm := m.isLt
  have hn : (reg - m).msb = decide (128 ≤ (reg.toNat + 256 - m.toNat) % 256) := by
    have hdiff : 2 ^ 8 - m.toNat + reg.toNat = reg.toNat + 256 - m.toNat := by omega
    rw [byte_msb_eq_decide, BitVec.toNat_sub, hdiff]
  have hz : (reg - m == 0) = decide (reg = m) := by
    rw [beq_eq_decide, decide_eq_decide]
    exact sub_eq_zero
  rw [← hn, ← hz]
  exact writes_setCNZ _ _ _

/-! ## Increment and decrement -/

theorem incByte_eq_ofNat (v : Byte) : incByte v = BitVec.ofNat 8 (v.toNat + 1) := by
  rw [BitVec.ofNat_add, BitVec.ofNat_toNat, BitVec.setWidth_eq]
  rfl

theorem decByte_eq_ofNat (v : Byte) : decByte v = BitVec.ofNat 8 (v.toNat + 255) := by
  rw [BitVec.ofNat_add, BitVec.ofNat_toNat, BitVec.setWidth_eq]
  exact BitVec.sub_eq_add_neg v 1

/-! ## Operands -/

@[simp] theorem operand_a (o : ReadOperand) (s : State) : (operand o s).2.a = s.a := by cases o <;> rfl
@[simp] theorem operand_x (o : ReadOperand) (s : State) : (operand o s).2.x = s.x := by cases o <;> rfl
@[simp] theorem operand_y (o : ReadOperand) (s : State) : (operand o s).2.y = s.y := by cases o <;> rfl

@[simp] theorem operand_flag (o : ReadOperand) (s : State) (f : Flag) : (operand o s).2.flag f = s.flag f := by
  rw [State.flag, operand_p, State.flag]

@[simp] theorem modified_p (o : ModifyOperand) (f : Byte → Byte) (s : State) : (modified o f s).2.p = s.p := by
  cases o <;> rfl

theorem resolveAcc_eq (s : State) :
    resolveAcc s = { s with lastAddrMode := .acc, lastArg := 0, pageBoundary := false } := by
  simp [resolveAcc, State.resolved, State.noteOperand, AddrMode.length]

/-- `Modify` is the claims' read-modify-write: one read, then one write of `f` of the byte at the same address (R148). -/
theorem modifyOperand_eq (o : ModifyOperand) (f : Byte → Byte) (s : State) : modifyOperand o f s = modified o f s := by
  cases o with
  | acc => simp only [modifyOperand, resolveAcc_eq, modified]
  | mem m =>
    simp only [modifyOperand, resolveMem_eq, memRead, memWrite, modified]
    rfl

/-! ## Encodings -/

/-- A mnemonic with a group 2 row in the encoder's table encodes by that row's memory columns. -/
theorem encodesModify_of_row {f : MemOperand → Instr} {zpg zpx abs abx : Byte}
    (hop : ∀ m, (f m).opcode = m.select (some zpg) (some zpx) none (some abs) (some abx) none none none)
    (hb : ∀ m, (f m).operandBytes = m.bytes) : EncodesModify f zpg zpx abs abx := fun _ _ =>
  ⟨encode_byteOperand (hop _) (hb _), encode_byteOperand (hop _) (hb _), encode_wordOperand (hop _) (hb _),
    encode_wordOperand (hop _) (hb _)⟩

end Sys2Proof.Machine
end

section
/-! Arithmetic and logic, compares, BIT, increments and decrements (spec/44_arith_logic.md R170 to R184). -/

namespace Sys2Proof.Machine

open Sys2Proof.Claims

/-! ## Add and subtract -/

theorem exec_adc (o : ReadOperand) (s : State) :
    exec (.adc o) s =
      .next { (operand o s).2 with
        a := (adc (s.flag .d) s.a (operand o s).1 (s.flag .c)).r
        p := (adc (s.flag .d) s.a (operand o s).1 (s.flag .c)).setFlags s.p } := by
  simp only [exec, execAdc, readOperand_eq, operand_flag, operand_a, operand_p]

theorem exec_sbc (o : ReadOperand) (s : State) :
    exec (.sbc o) s =
      .next { (operand o s).2 with
        a := (sbc (s.flag .d) s.a (operand o s).1 (s.flag .c)).r
        p := (sbc (s.flag .d) s.a (operand o s).1 (s.flag .c)).setFlags s.p } := by
  simp only [exec, execSbc, readOperand_eq, operand_flag, operand_a, operand_p]

/-- Settles O33: the encoder's row, and the adder `P.D` chooses with its four flags. -/
theorem adcAdds : Obligations.AdcAdds :=
  ⟨encodesGroup1_of_row (fun _ => rfl) (fun _ => rfl), fun o s => ⟨_, writes_setFlags _ _, exec_adc o s⟩⟩

/-- Settles O34: the encoder's row, and the subtracter `P.D` chooses with its four flags. -/
theorem sbcSubtracts : Obligations.SbcSubtracts :=
  ⟨encodesGroup1_of_row (fun _ => rfl) (fun _ => rfl), fun o s => ⟨_, writes_setFlags _ _, exec_sbc o s⟩⟩

/-! ## Logic -/

theorem exec_and (o : ReadOperand) (s : State) :
    exec (.and o) s =
      .next { (operand o s).2 with a := s.a &&& (operand o s).1, p := setNZ (s.a &&& (operand o s).1) s.p } := by
  rw [exec, execAnd, readOperand_eq, State.setAccNZ, operand_a, operand_p]

theorem exec_ora (o : ReadOperand) (s : State) :
    exec (.ora o) s =
      .next { (operand o s).2 with a := s.a ||| (operand o s).1, p := setNZ (s.a ||| (operand o s).1) s.p } := by
  rw [exec, execOra, readOperand_eq, State.setAccNZ, operand_a, operand_p]

theorem exec_eor (o : ReadOperand) (s : State) :
    exec (.eor o) s =
      .next { (operand o s).2 with a := s.a ^^^ (operand o s).1, p := setNZ (s.a ^^^ (operand o s).1) s.p } := by
  rw [exec, execEor, readOperand_eq, State.setAccNZ, operand_a, operand_p]

/-- Settles O35: the encoder's rows, and per mnemonic the bitwise operation with `SetNZ` of its result. -/
theorem logicCombinesBitwise : Obligations.LogicCombinesBitwise := by
  refine ⟨encodesGroup1_of_row (fun _ => rfl) (fun _ => rfl), encodesGroup1_of_row (fun _ => rfl) (fun _ => rfl),
    encodesGroup1_of_row (fun _ => rfl) (fun _ => rfl), ?_⟩
  rintro o s f i (⟨rfl, rfl⟩ | ⟨rfl, rfl⟩ | ⟨rfl, rfl⟩)
  · exact ⟨_, _, fun _ _ => BitVec.getLsbD_and, writes_setNZ _ _, exec_and o s⟩
  · exact ⟨_, _, fun _ _ => BitVec.getLsbD_or, writes_setNZ _ _, exec_ora o s⟩
  · exact ⟨_, _, fun _ _ => BitVec.getLsbD_xor, writes_setNZ _ _, exec_eor o s⟩

/-! ## Compares and bit test -/

theorem exec_cmp (o : ReadOperand) (s : State) :
    exec (.cmp o) s = .next { (operand o s).2 with p := compareFlags s.a (operand o s).1 s.p } := by
  rw [exec, execCmp, readOperand_eq, operand_a, operand_p]

theorem exec_cpx (o : ReadOperand) (s : State) :
    exec (.cpx o) s = .next { (operand o s).2 with p := compareFlags s.x (operand o s).1 s.p } := by
  rw [exec, execCpx, readOperand_eq, operand_x, operand_p]

theorem exec_cpy (o : ReadOperand) (s : State) :
    exec (.cpy o) s = .next { (operand o s).2 with p := compareFlags s.y (operand o s).1 s.p } := by
  rw [exec, execCpy, readOperand_eq, operand_y, operand_p]

theorem exec_bit (m : MemOperand) (s : State) :
    exec (.bit m) s = .next { (operand (.mem m) s).2 with p := bitFlags s.a (operand (.mem m) s).1 s.p } := by
  rw [exec, execBit, readOperand_eq, operand_a, operand_p]

/-- Settles O36: the encoder's rows, and the flags of `cmp` on each mnemonic's register. -/
theorem comparesCompare : Obligations.ComparesCompare := by
  refine ⟨encodesGroup1_of_row (fun _ => rfl) (fun _ => rfl), fun b w => ?cpx, fun b w => ?cpy, ?effect⟩
  case cpx =>
    exact ⟨encode_byteOperand rfl rfl, encode_byteOperand rfl rfl, encode_wordOperand rfl rfl⟩
  case cpy =>
    exact ⟨encode_byteOperand rfl rfl, encode_byteOperand rfl rfl, encode_wordOperand rfl rfl⟩
  case effect =>
    rintro o s i reg (⟨rfl, rfl⟩ | ⟨rfl, rfl⟩ | ⟨rfl, rfl⟩)
    · exact ⟨_, writes_compareFlags _ _ _, exec_cmp o s⟩
    · exact ⟨_, writes_compareFlags _ _ _, exec_cpx o s⟩
    · exact ⟨_, writes_compareFlags _ _ _, exec_cpy o s⟩

/-- Settles O37: the encoder's rows, and the flags of `bit` on `A` and the operand byte. -/
theorem bitTests : Obligations.BitTests :=
  ⟨fun _ _ => ⟨encode_byteOperand rfl rfl, encode_wordOperand rfl rfl⟩,
    fun m s => ⟨_, writes_bitFlags _ _ _, exec_bit m s⟩⟩

/-! ## Increment and decrement -/

theorem exec_inc (m : MemOperand) (s : State) :
    exec (.inc m) s =
      .next { (modified (.mem m) incByte s).2 with p := setNZ (incByte (modified (.mem m) incByte s).1) s.p } := by
  rw [exec, execInc, modifyOperand_eq, modified_p]

theorem exec_dec (m : MemOperand) (s : State) :
    exec (.dec m) s =
      .next { (modified (.mem m) decByte s).2 with p := setNZ (decByte (modified (.mem m) decByte s).1) s.p } := by
  rw [exec, execDec, modifyOperand_eq, modified_p]

/-- Settles O38: the encoder's rows, and `Modify` with the byte plus or minus 1 followed by `SetNZ` of the new byte. -/
theorem memoryIncrementAndDecrement : Obligations.MemoryIncrementAndDecrement := by
  refine ⟨encodesModify_of_row (fun _ => rfl) (fun _ => rfl), encodesModify_of_row (fun _ => rfl) (fun _ => rfl), ?_⟩
  rintro m s i f (⟨rfl, rfl⟩ | ⟨rfl, rfl⟩)
  · rw [← funext incByte_eq_ofNat]
    exact ⟨_, writes_setNZ _ _, exec_inc m s⟩
  · rw [← funext decByte_eq_ofNat]
    exact ⟨_, writes_setNZ _ _, exec_dec m s⟩

/-- Settles O39: `resolve(IMP)`, the index register plus or minus 1, and `SetNZ` of it. -/
theorem indexIncrementAndDecrement : Obligations.IndexIncrementAndDecrement := by
  refine ⟨⟨rfl, rfl, rfl, rfl⟩, fun s => ?_⟩
  rw [← resolveImp_eq, ← incByte_eq_ofNat, ← incByte_eq_ofNat, ← decByte_eq_ofNat, ← decByte_eq_ofNat]
  exact ⟨⟨_, writes_setNZ _ _, rfl⟩, ⟨_, writes_setNZ _ _, rfl⟩, ⟨_, writes_setNZ _ _, rfl⟩,
    ⟨_, writes_setNZ _ _, rfl⟩⟩

end Sys2Proof.Machine
end

section
/-! Shifts and rotates (spec/41_alu_flags.md R116 to R119, spec/45_shift_rotate.md R190 to R193). -/

namespace Sys2Proof.Machine

open Sys2Proof.Claims

/-! ## The bit moved out over numbers -/

theorem getLsbD_seven_eq_decide (v : Byte) : v.getLsbD 7 = decide (128 ≤ v.toNat) := by
  rw [← byte_msb_eq_decide, BitVec.msb_eq_getLsbD_last]

theorem getLsbD_zero_eq_decide (v : Byte) : v.getLsbD 0 = decide (v.toNat % 2 = 1) := Nat.testBit_zero v.toNat

/-! ## The shifts over numbers -/

/-- The mask of R116 clears only the bit the shift has vacated, so what is left is the shift itself. -/
theorem aslByte_eq (v : Byte) : aslByte v = ⟨BitVec.ofNat 8 (2 * v.toNat), decide (128 ≤ v.toNat)⟩ := by
  have hr : (aslByte v).r = BitVec.ofNat 8 (2 * v.toNat) :=
    calc (aslByte v).r
      _ = v <<< 1 &&& BitVec.allOnes 8 <<< 1 := rfl
      _ = v <<< 1 := by rw [← BitVec.shiftLeft_and_distrib, BitVec.and_allOnes]
      _ = BitVec.ofNat 8 (v.toNat <<< 1) := rfl
      _ = BitVec.ofNat 8 (2 * v.toNat) := by rw [Nat.shiftLeft_eq, mul_comm, pow_one]
  rw [← hr, ← getLsbD_seven_eq_decide]
  rfl

/-- The mask of R117 clears only the bit the shift has vacated, so what is left is the shift itself. -/
theorem lsrByte_eq (v : Byte) : lsrByte v = ⟨BitVec.ofNat 8 (v.toNat / 2), decide (v.toNat % 2 = 1)⟩ := by
  have hr : (lsrByte v).r = BitVec.ofNat 8 (v.toNat / 2) :=
    calc (lsrByte v).r
      _ = v >>> 1 &&& BitVec.allOnes 8 >>> 1 := rfl
      _ = v >>> 1 := by rw [← BitVec.ushiftRight_and_distrib, BitVec.and_allOnes]
      _ = BitVec.ofNat 8 (v.toNat / 2) := by
        rw [← Nat.shiftRight_one, ← BitVec.toNat_ushiftRight, BitVec.ofNat_toNat, BitVec.setWidth_eq]
  rw [← hr, ← getLsbD_zero_eq_decide]
  rfl

/-! ## The rotates: the shift of the same direction with the carry in the vacated bit -/

/-- A carry or-ed into a bit the mask has cleared is added there. -/
theorem mask_or_eq_add {x mask carry : Byte} (h : mask &&& carry = 0) : x &&& mask ||| carry = (x &&& mask) + carry := by
  have hdisjoint : (x &&& mask) &&& carry = 0 := by
    rw [BitVec.and_assoc, h]
    exact BitVec.and_zero
  exact (BitVec.add_eq_or_of_and_eq_zero _ _ hdisjoint).symm

theorem rolByte_eq_aslByte_add (v : Byte) (c : Bool) :
    rolByte v c = ⟨(aslByte v).r + BitVec.ofNat 8 c.toNat, (aslByte v).c⟩ := by
  have hvacated : (0xFE : Byte) &&& carryByte c = 0 := by cases c <;> rfl
  have hcarry : carryByte c = BitVec.ofNat 8 c.toNat := by cases c <;> rfl
  rw [← hcarry]
  exact congrArg (ShiftResult.mk · _) (mask_or_eq_add hvacated)

theorem rorByte_eq_lsrByte_add (v : Byte) (c : Bool) :
    rorByte v c = ⟨(lsrByte v).r + BitVec.ofNat 8 (128 * c.toNat), (lsrByte v).c⟩ := by
  have hvacated : (0x7F : Byte) &&& carryByte c <<< 7 = 0 := by cases c <;> rfl
  have hcarry : carryByte c <<< 7 = BitVec.ofNat 8 (128 * c.toNat) := by cases c <;> rfl
  rw [← hcarry]
  exact congrArg (ShiftResult.mk · _) (mask_or_eq_add hvacated)

theorem rolByte_eq (v : Byte) (c : Bool) :
    rolByte v c = ⟨BitVec.ofNat 8 (2 * v.toNat + c.toNat), decide (128 ≤ v.toNat)⟩ := by
  rw [rolByte_eq_aslByte_add, aslByte_eq, BitVec.ofNat_add]

theorem rorByte_eq (v : Byte) (c : Bool) :
    rorByte v c = ⟨BitVec.ofNat 8 (v.toNat / 2 + 128 * c.toNat), decide (v.toNat % 2 = 1)⟩ := by
  rw [rorByte_eq_lsrByte_add, lsrByte_eq, BitVec.ofNat_add]

/-! ## The instructions -/

/-- `setCNZ` writes C beside the two bits of `SetNZ` of the result. -/
theorem writes_setCNZ_nz (c : Bool) (r p : Byte) : Writes p (setCNZ c r p) ((0, c) :: nz r) := by
  have h := writes_setCNZ c r p
  rw [BitVec.msb_eq_getLsbD_last, beq_eq_decide] at h
  exact writes_perm h (List.perm_append_singleton (0, c) (nz r))

/-- The shifts and rotates are the claims' read-modify-write with the flags of the byte the operation returns (R190). -/
theorem shiftOperand_eq (o : ModifyOperand) (g : Byte → ShiftResult) (s : State) :
    shiftOperand o g s =
      { (modified o (fun b => (g b).r) s).2 with
        p := setCNZ (g (modified o (fun b => (g b).r) s).1).c (g (modified o (fun b => (g b).r) s).1).r s.p } := by
  rw [shiftOperand, modifyOperand_eq, modified_p]

/-- The effect of an instruction that applies an operation returning the byte `f v` and the carry `out v`. -/
theorem exec_shift_effect {i : Instr} {g : Byte → ShiftResult} {f : Byte → Byte} {out : Byte → Bool} (o : ModifyOperand)
    (s : State) (hi : exec i s = .next (shiftOperand o g s)) (hg : ∀ v, g v = ⟨f v, out v⟩) :
    ∃ p', Writes s.p p' ((0, out (modified o f s).1) :: nz (f (modified o f s).1)) ∧
      exec i s = .next { (modified o f s).2 with p := p' } := by
  obtain rfl : g = fun v => ⟨f v, out v⟩ := funext hg
  rw [hi, shiftOperand_eq]
  exact ⟨_, writes_setCNZ_nz _ _ _, rfl⟩

/-- Settles O40: the encoder's rows, and per mnemonic the byte and the carry its operation returns, over numbers. -/
theorem shiftsAndRotates : Obligations.ShiftsAndRotates := by
  refine ⟨⟨rfl, rfl, rfl, rfl⟩, encodesModify_of_row (fun _ => rfl) (fun _ => rfl),
    encodesModify_of_row (fun _ => rfl) (fun _ => rfl), encodesModify_of_row (fun _ => rfl) (fun _ => rfl),
    encodesModify_of_row (fun _ => rfl) (fun _ => rfl), rfl, ?_⟩
  rintro o s i f out (⟨rfl, rfl, rfl⟩ | ⟨rfl, rfl, rfl⟩ | ⟨rfl, rfl, rfl⟩ | ⟨rfl, rfl, rfl⟩)
  · exact exec_shift_effect o s rfl aslByte_eq
  · exact exec_shift_effect o s rfl lsrByte_eq
  · exact exec_shift_effect o s rfl (fun v => rolByte_eq v (s.flag .c))
  · exact exec_shift_effect o s rfl (fun v => rorByte_eq v (s.flag .c))

end Sys2Proof.Machine
end

section
/-! Stack and subroutines in the words of the claims (spec/46_branch_jump.md R209, R210). -/

namespace Sys2Proof.Machine

open Sys2Proof.Claims

/-! ## Words -/

theorem lo_eq_lowOf (w : Addr) : lo w = lowOf w := rfl

theorem hi_eq_highOf (w : Addr) : hi w = highOf w := by
  have hbytes : [lo w, hi w] = [lowOf w, highOf w] := wordBytes_eq w
  exact (List.cons_eq_cons.mp (List.cons_eq_cons.mp hbytes).2).1

theorem join_eq_wordOf (h l : Byte) : join h l = wordOf l h := by
  rw [wordOf, Nat.add_comm, Nat.mul_comm, ← toNat_join, BitVec.ofNat_toNat, BitVec.setWidth_eq]

/-! ## The stack -/

theorem stackAddr_eq_stackAt (sp : Byte) : stackAddr sp = stackAt sp := by
  rw [stackAt, BitVec.ofNat_add, ofNat_toNat_byte]
  rfl

/-- A return address goes to two stack bytes, high byte first (R51). -/
theorem pushWord_eq_writes (w : Addr) (s : State) :
    pushWord w s = { s with
      sp := s.sp - 2
      bus := (s.bus.write (stackAt s.sp) (highOf w)).write (stackAt (s.sp - 1)) (lowOf w) } := by
  have hsp : s.sp - 1 - 1 = s.sp - 2 := sub_sub s.sp 1 1
  rw [pushWord_eq, hsp, stackAddr_eq_stackAt, stackAddr_eq_stackAt, hi_eq_highOf, lo_eq_lowOf]

/-- A return address comes from two stack bytes by Data reads, low byte first (R210). -/
theorem popWord_eq_reads (s : State) :
    popWord s =
      let l := s.bus.read (stackAt (s.sp + 1))
      let h := l.2.read (stackAt (s.sp + 2))
      (wordOf l.1 h.1, { s with sp := s.sp + 2, bus := h.2 }) := by
  have hsp : s.sp + 1 + 1 = s.sp + 2 := add_assoc s.sp 1 1
  rw [popWord_eq, hsp, stackAddr_eq_stackAt, stackAddr_eq_stackAt, join_eq_wordOf]

/-! ## JSR -/

/-- After the two operand bytes `PC` is one past the instruction, so the pushed address is `PC + 1` on entry. -/
theorem exec_jsr (w : Addr) (s : State) :
    exec (.jsr w) s =
      .next { pushWord (s.pc + 1) { s with lastAddrMode := .abs, lastArg := w, pageBoundary := false } with pc := w } := by
  have hret : s.pc + 2 - 1 = s.pc + 1 := add_sub_assoc s.pc 2 1
  rw [← hret]
  rfl

/-- Settles O43: the encoder's row, and the return address pushed before the jump. -/
theorem jsrCalls : Obligations.JsrCalls := by
  refine ⟨fun w => encode_wordOperand rfl rfl, rfl, fun w s => ?_⟩
  rw [exec_jsr, pushWord_eq_writes]

/-! ## RTS -/

theorem exec_rts_of_terminal {s : State} (h : s.exitAtLastRTS = true ∧ s.sp = 0xFF) :
    exec .rts s = .next { implied s with lastRTS := true } := by
  obtain ⟨hexit, hsp⟩ := h
  have htest : ((resolveImp s).exitAtLastRTS && (resolveImp s).sp == Config.spInit) = true := by
    simp [hexit, hsp, Config.spInit]
  rw [exec, execRts, if_pos htest, resolveImp_eq]

theorem exec_rts_of_not_terminal {s : State} (h : ¬(s.exitAtLastRTS = true ∧ s.sp = 0xFF)) :
    exec .rts s = .next { (popWord (implied s)).2 with pc := (popWord (implied s)).1 + 1 } := by
  have htest : ¬((resolveImp s).exitAtLastRTS && (resolveImp s).sp == Config.spInit) = true := by
    simpa [Config.spInit] using h
  rw [exec, execRts, if_neg htest, resolveImp_eq]

/-- Settles O44: the encoder's row; the terminal test, and where it fails the popped word plus 1. -/
theorem rtsReturns : Obligations.RtsReturns := by
  refine ⟨rfl, rfl, fun s => ⟨fun hexit hsp => exec_rts_of_terminal ⟨hexit, hsp⟩, fun h => ?_⟩⟩
  rw [exec_rts_of_not_terminal h, popWord_eq_reads]
  rfl

end Sys2Proof.Machine
end

section
/-! RTI, the flag instructions and NOP in the words of the claims (spec/47_stack_flags_system.md R224 to R233). -/

namespace Sys2Proof.Machine

open Sys2Proof.Claims

/-- A single flag write replaces that flag's bit and keeps the other seven. -/
theorem writes_putFlag_self (p : Byte) (f : Flag) (v : Bool) : Writes p (putFlag p f v) [(f.bit, v)] :=
  writes_putFlag (writes_nil p) f v (List.forall_mem_nil _)

/-! ## RTI -/

/-- Returning from an exception is three Data reads up the stack: the status, then the word of `PC`, low byte first (R233). -/
theorem returnFromException_eq_reads (s : State) :
    returnFromException s =
      let st := s.bus.read (stackAt (s.sp + 1))
      let l := st.2.read (stackAt (s.sp + 2))
      let h := l.2.read (stackAt (s.sp + 3))
      { s with sp := s.sp + 3, p := putFlag st.1 .i false, pc := wordOf l.1 h.1, bus := h.2 } := by
  have hsp2 : s.sp + 1 + 1 = s.sp + 2 := add_assoc s.sp 1 1
  have hsp3 : s.sp + 2 + 1 = s.sp + 3 := add_assoc s.sp 2 1
  simp only [returnFromException_eq, hsp2, hsp3, stackAddr_eq_stackAt, join_eq_wordOf]

theorem exec_rti (s : State) : exec .rti s = .next (returnFromException (implied s)) := by
  rw [exec, execRti, resolveImp_eq]

/-- Settles O48: the encoder's row; the popped status with its I bit then cleared, and the popped word as it is. -/
theorem rtiReturnsFromInterrupt : Obligations.RtiReturnsFromInterrupt := by
  refine ⟨rfl, rfl, fun s => ⟨_, writes_putFlag_self _ .i false, ?_⟩⟩
  rw [exec_rti, returnFromException_eq_reads]
  rfl

/-! ## Flag instructions and NOP -/

/-- An instruction that resolves to the implied mode and sets one flag writes that flag's bit and nothing else but the record. -/
theorem exec_setFlag_effect {i : Instr} {s : State} {f : Flag} {v : Bool}
    (hi : exec i s = .next ((resolveImp s).setFlag f v)) :
    ∃ p', Writes s.p p' [(f.bit, v)] ∧ exec i s = .next { implied s with p := p' } := by
  rw [hi, resolveImp_eq]
  exact ⟨putFlag s.p f v, writes_putFlag_self _ _ _, rfl⟩

theorem exec_nop (s : State) : exec .nop s = .next (implied s) := by
  rw [exec, execNop, resolveImp_eq]

/-- Settles O46: the encoder's rows, one flag write per listed instruction, and NOP with none. -/
theorem flagInstructionsAndNop : Obligations.FlagInstructionsAndNop := by
  refine ⟨⟨rfl, rfl, rfl, rfl, rfl, rfl, rfl, rfl⟩, rfl, fun i s k v hmem => ?flags, exec_nop⟩
  case flags =>
    simp only [List.mem_cons, List.not_mem_nil, or_false, Prod.mk.injEq] at hmem
    obtain ⟨rfl, rfl, rfl⟩ | ⟨rfl, rfl, rfl⟩ | ⟨rfl, rfl, rfl⟩ | ⟨rfl, rfl, rfl⟩ | ⟨rfl, rfl, rfl⟩ | ⟨rfl, rfl, rfl⟩ |
      ⟨rfl, rfl, rfl⟩ := hmem
    · exact exec_setFlag_effect (f := .c) rfl
    · exact exec_setFlag_effect (f := .c) rfl
    · exact exec_setFlag_effect (f := .i) rfl
    · exact exec_setFlag_effect (f := .i) rfl
    · exact exec_setFlag_effect (f := .d) rfl
    · exact exec_setFlag_effect (f := .d) rfl
    · exact exec_setFlag_effect (f := .v) rfl

end Sys2Proof.Machine
end

section
/-! The opcode table against the encoder's tables (spec/30_encoding.md R70 to R78) and against the summary of base costs
(spec/70_reset_and_hazards.md R287). -/

namespace Sys2Proof.Machine

open Sys2Proof.Claims

/-! ## Rows of the opcode table -/

/-- What holds of an entry of the opcode table, whatever operand bytes follow: its cost is that of the summary by shape, and
the instruction it stands for has the operand bytes of the entry's length. -/
def SoundEntry (e : Entry) : Prop :=
  ∀ b1 b2 : Byte, e.cycles = summaryCost (e.build b1 b2) ∧
    (e.build b1 b2).operandBytes =
      match e.mode.length with
      | 1 => []
      | 2 => [b1]
      | _ => wordBytes (join b2 b1)

theorem soundEntry_of_mem_table : ∀ e ∈ opcodeTable, SoundEntry e := by
  rw [← List.forall_iff_forall_mem]
  repeat' apply And.intro
  all_goals exact fun _ _ => ⟨rfl, rfl⟩

theorem opcodeEntry_cycles (op b1 b2 : Byte) : (opcodeEntry op).cycles = summaryCost (decodeBytes op b1 b2) :=
  (opcodeEntry_forall _ soundEntry_of_mem_table op b1 b2).1

/-- The operand bytes of the instruction read from three bytes are those bytes, as many as its mode has. -/
theorem decodeBytes_operandBytes (op b1 b2 : Byte) :
    (decodeBytes op b1 b2).operandBytes = [b1, b2].take ((opcodeEntry op).mode.length - 1) := by
  have hb : (decodeBytes op b1 b2).operandBytes = _ := (opcodeEntry_forall _ soundEntry_of_mem_table op b1 b2).2
  rw [hb]
  rcases (opcodeEntry op).mode.length_cases with h | h | h <;> rw [h]
  · rfl
  · rfl
  · rw [wordBytes, lo_join, hi_join]
    rfl

/-- A list that starts with an opcode and the bytes of its operand decodes to what the three-byte window gives. -/
theorem decode_window (op b1 b2 : Byte) (rest : List Byte) :
    decode (op :: [b1, b2].take ((opcodeEntry op).mode.length - 1) ++ rest) = .ok (decodeBytes op b1 b2, rest) := by
  have hread := (decodesTo op b1 b2).2.2.2
  rw [List.cons_append, decode_cons]
  rcases (opcodeEntry op).mode.length_cases with h | h | h <;> rw [h] at hread ⊢ <;> rw [hread] <;> rfl

/-! ## Terms -/

theorem wellFormed_eq_isSome_opcode (i : Instr) : i.wellFormed = i.opcode.isSome := by
  cases i with
  | lda o | ldx o | ldy o | adc o | sbc o | and o | ora o | eor o | cmp o | cpx o | cpy o =>
    cases o with
    | imm b => rfl
    | mem m => cases m <;> rfl
  | asl o | lsr o | rol o | ror o =>
    cases o with
    | acc => rfl
    | mem m => cases m <;> rfl
  | sta m | stx m | sty m | bit m | inc m | dec m => cases m <;> rfl
  | jmp o => cases o <;> rfl
  | ill op =>
    rw [Instr.wellFormed, Instr.opcode]
    cases illegalOpcodes.contains op <;> rfl
  | _ => rfl

theorem exists_join (w : Addr) : ∃ l h, w = join h l := ⟨lo w, hi w, (join_hi_lo w).symm⟩

/-- Every memory operand is made of its mode and two bytes, the second unused where the operand is one byte. -/
theorem exists_operandBytes (m : MemOperand) :
    ∃ l h, m = .zpg l ∨ m = .zpx l ∨ m = .zpy l ∨ m = .izx l ∨ m = .izy l ∨ m = .abs (join h l) ∨ m = .abx (join h l) ∨
      m = .aby (join h l) := by
  cases m with
  | zpg b | zpx b | zpy b | izx b | izy b => exact ⟨b, 0, by simp⟩
  | abs w | abx w | aby w =>
    obtain ⟨l, h, rfl⟩ := exists_join w
    exact ⟨l, h, by simp⟩

theorem mem_illegalOpcodes_of_opcode {op q : Byte} (h : Instr.opcode (.ill q) = some op) : q ∈ illegalOpcodes ∧ q = op := by
  rw [Instr.opcode] at h
  split at h
  · next hq => exact ⟨by simpa using hq, Option.some.inj h⟩
  · cases h

theorem opcodeEntry_of_mem_illegalOpcodes : ∀ op ∈ illegalOpcodes, opcodeEntry op = .illegal op := by
  rw [← List.forall_iff_forall_mem]
  repeat' apply And.intro
  all_goals rfl

/-- Every instruction with an opcode is what the decoder reads behind it from some operand bytes: a row of the opcode table
stands for every cell of the encoder's tables. -/
theorem exists_decodeBytes_eq {i : Instr} {op : Byte} (hop : i.opcode = some op) : ∃ b1 b2, decodeBytes op b1 b2 = i := by
  cases i with
  | lda o | ldx o | ldy o | adc o | sbc o | and o | ora o | eor o | cmp o | cpx o | cpy o =>
    cases o with
    | imm b =>
      cases hop
      exact ⟨b, 0, rfl⟩
    | mem m =>
      obtain ⟨l, h, rfl | rfl | rfl | rfl | rfl | rfl | rfl | rfl⟩ := exists_operandBytes m <;>
        cases hop <;> exact ⟨l, h, rfl⟩
  | asl o | lsr o | rol o | ror o =>
    cases o with
    | acc =>
      cases hop
      exact ⟨0, 0, rfl⟩
    | mem m =>
      obtain ⟨l, h, rfl | rfl | rfl | rfl | rfl | rfl | rfl | rfl⟩ := exists_operandBytes m <;>
        cases hop <;> exact ⟨l, h, rfl⟩
  | sta m | stx m | sty m | bit m | inc m | dec m =>
    obtain ⟨l, h, rfl | rfl | rfl | rfl | rfl | rfl | rfl | rfl⟩ := exists_operandBytes m <;>
      cases hop <;> exact ⟨l, h, rfl⟩
  | bcc d | bcs d | beq d | bne d | bmi d | bpl d | bvc d | bvs d =>
    cases hop
    exact ⟨d, 0, rfl⟩
  | jmp o =>
    cases o with
    | abs w | ind w =>
      obtain ⟨l, h, rfl⟩ := exists_join w
      cases hop
      exact ⟨l, h, rfl⟩
  | jsr w =>
    obtain ⟨l, h, rfl⟩ := exists_join w
    cases hop
    exact ⟨l, h, rfl⟩
  | ill q =>
    obtain ⟨hq, rfl⟩ := mem_illegalOpcodes_of_opcode hop
    exact ⟨0, 0, by rw [decodeBytes, opcodeEntry_of_mem_illegalOpcodes q hq]; rfl⟩
  | _ =>
    cases hop
    exact ⟨0, 0, rfl⟩

/-! ## The obligations -/

/-- The encoding of an instruction read from three bytes. -/
theorem encode_decodeBytes (op b1 b2 : Byte) :
    encode (decodeBytes op b1 b2) = some (op :: [b1, b2].take ((opcodeEntry op).mode.length - 1)) := by
  rw [encode, decodeBytes_opcode, decodeBytes_operandBytes]

/-- Settles O1: a term with an opcode is read back from its operand bytes by the table, and a term without one is ill-formed. -/
theorem encodeThenDecode : Obligations.EncodeThenDecode := by
  intro i
  rw [Instr.WellFormed, wellFormed_eq_isSome_opcode]
  constructor
  · intro hsome
    obtain ⟨op, hop⟩ := Option.isSome_iff_exists.mp hsome
    obtain ⟨b1, b2, rfl⟩ := exists_decodeBytes_eq hop
    exact ⟨_, encode_decodeBytes op b1 b2, decode_window op b1 b2⟩
  · intro hnone
    rw [encode, Option.not_isSome_iff_eq_none.mp hnone]

/-- Settles O2: the opcode comes back by the encoder's tables, the operand bytes entry by entry of the table. -/
theorem decodeThenEncode : Obligations.DecodeThenEncode := by
  intro b0 b1 b2
  refine ⟨decodeBytes_wellFormed b0 b1 b2, ?_⟩
  rw [encode_decodeBytes, decodeBytes_mode]
  rcases (opcodeEntry b0).mode.length_cases with h | h | h <;> rw [h] <;> rfl

/-- Settles O3: an illegal opcode that is read is well-formed, so it is listed; the entries of the listed values are checked. -/
theorem illegalOpcodesAreTheListed105 : Obligations.IllegalOpcodesAreTheListed105 := by
  refine ⟨fun op b1 b2 => ⟨fun h => ?listed, fun h => ?illegal⟩, fun op h => ?entry, rfl, by decide⟩
  case listed =>
    have hwf : Instr.WellFormed (.ill op) := h ▸ decodeBytes_wellFormed op b1 b2
    exact List.contains_iff_mem.mp hwf
  case illegal =>
    rw [decodeBytes, opcodeEntry_of_mem_illegalOpcodes op h]
    rfl
  case entry =>
    rw [opcodeEntry_of_mem_illegalOpcodes op h]
    exact ⟨rfl, rfl, rfl⟩

/-- Settles O4: the decoder evaluates on each of the words. -/
theorem writtenWordsDecode : Obligations.WrittenWordsDecode :=
  ⟨rfl, rfl, rfl, rfl, rfl, rfl, rfl, rfl, rfl, rfl, rfl, rfl, rfl, rfl⟩

/-- Settles O5: the instruction is one the table reads behind the opcode, and the table's entries are sound. -/
theorem baseCostsFollowTheSummary : Obligations.BaseCostsFollowTheSummary := by
  intro i op hop
  obtain ⟨b1, b2, rfl⟩ := exists_decodeBytes_eq hop
  exact ⟨(decodeBytes_mode op b1 b2).symm, opcodeEntry_cycles op b1 b2⟩

end Sys2Proof.Machine
end

section
/-! The bus and the device map (spec/20_memory.md R43 to R49, R57, R59). -/

namespace Sys2Proof.Machine

/-! ## Data reads and writes -/

theorem RomWindow.guards_iff (r : RomWindow) (a : Addr) :
    r.guards a = true ↔ r.enabled = true ∧ r.first.toNat ≤ a.toNat ∧ a.toNat ≤ r.last.toNat := by
  simp [RomWindow.guards, BitVec.le_def, and_assoc]

theorem Bus.read_of_readHandler {b : Bus} {a : Addr} {d : Device} {h : Nat} (hd : b.devices.owner a = some d)
    (hh : d.readHandler = some h) :
    b.read a =
      ((b.afterHandler (Config.deviceRead h d.params b.devEnv b.mem a)).fetch a,
        b.afterHandler (Config.deviceRead h d.params b.devEnv b.mem a)) := by
  simp only [Bus.read, Bus.runReadHandler, hd, hh]

theorem Bus.read_of_no_readHandler {b : Bus} {a : Addr} {d : Device} (hd : b.devices.owner a = some d)
    (hh : d.readHandler = none) : b.read a = (b.fetch a, b) := by
  simp only [Bus.read, Bus.runReadHandler, hd, hh]

/-- Outside the ROM window a Data write pokes the array and then runs the write handler. -/
theorem Bus.write_of_not_guarded {b : Bus} {a : Addr} (hg : ¬b.rom.guards a = true) (v : Byte) :
    b.write a v = (b.poke a v).runWriteHandler a v := if_neg hg

theorem Bus.runWriteHandler_of_no_owner {b : Bus} {a : Addr} (hd : b.devices.owner a = none) (v : Byte) :
    b.runWriteHandler a v = b := by
  simp only [Bus.runWriteHandler, hd]

theorem Bus.runWriteHandler_of_no_writeHandler {b : Bus} {a : Addr} {d : Device} (hd : b.devices.owner a = some d)
    (hh : d.writeHandler = none) (v : Byte) : b.runWriteHandler a v = b := by
  simp only [Bus.runWriteHandler, hd, hh]

theorem Bus.runWriteHandler_of_writeHandler {b : Bus} {a : Addr} {d : Device} {h : Nat} (hd : b.devices.owner a = some d)
    (hh : d.writeHandler = some h) (v : Byte) :
    b.runWriteHandler a v = b.afterHandler (Config.deviceWrite h d.params b.devEnv b.mem a v) := by
  simp only [Bus.runWriteHandler, hd, hh]

/-- Settles O6, one case per kind of owner. -/
theorem dataReadRunsTheHandlerFirst : Obligations.DataReadRunsTheHandlerFirst := fun b a =>
  ⟨fun _ _ hd hh => Bus.read_of_readHandler hd hh, fun _ hd hh => Bus.read_of_no_readHandler hd hh,
    Bus.read_of_no_owner b a⟩

/-- Settles O7: the guard's test over numbers, and outside it the poke followed by each kind of owner's handler. -/
theorem dataWriteGuardThenArrayThenHandler : Obligations.DataWriteGuardThenArrayThenHandler := by
  intro b a v
  rw [← RomWindow.guards_iff]
  refine ⟨fun hon hfirst hlast => ?guarded, fun hg => ?unguarded⟩
  case guarded => exact Bus.write_guarded b a v ((RomWindow.guards_iff b.rom a).mpr ⟨hon, hfirst, hlast⟩)
  case unguarded =>
    rw [Bus.write_of_not_guarded hg]
    exact ⟨fun hd => Bus.runWriteHandler_of_no_owner (b := b.poke a v) hd v,
      fun d hd hh => Bus.runWriteHandler_of_no_writeHandler (b := b.poke a v) hd hh v,
      fun d h hd hh => Bus.runWriteHandler_of_writeHandler (b := b.poke a v) hd hh v⟩

/-! ## Ordinary memory -/

/-- A Data write at an address with no owner and no guard changes that cell of the array and nothing else. -/
theorem Bus.write_ordinary {b : Bus} {a : Addr} (hd : b.devices.owner a = none) (hg : b.rom.guards a = false) (v : Byte) :
    b.write a v = { b with mem := b.mem.poke a v } := by
  rw [Bus.write_of_no_owner b a v hd, hg]
  rfl

theorem Bus.fetch_write_same {b : Bus} {a : Addr} (hwf : b.mem.wf = true) (hd : b.devices.owner a = none)
    (hg : b.rom.guards a = false) (v : Byte) : (b.write a v).fetch a = v := by
  rw [Bus.write_ordinary hd hg]
  exact Memory.read_poke_same b.mem a v hwf

theorem Bus.fetch_write_other {b : Bus} {a c : Addr} (hd : b.devices.owner a = none) (v : Byte) (h : c ≠ a) :
    (b.write a v).fetch c = b.fetch c := by
  rw [Bus.write_of_no_owner b a v hd]
  split
  · rfl
  · exact Memory.read_poke_other b.mem a c v h

/-- Settles O8: the write is a poke of the one cell, which the array's laws read back. -/
theorem storedByteReadsBack : Obligations.StoredByteReadsBack := by
  intro s a v hwf hd hg t
  have hfetch : memFetch t a = v := Bus.fetch_write_same hwf hd hg v
  have hread : memRead a t = (memFetch t a, t) := by
    have howner : t.bus.devices.owner a = none := by simpa [t] using hd
    rw [memRead, Bus.read_of_no_owner t.bus a howner]
    rfl
  refine ⟨hfetch, hfetch ▸ hread, fun c hc => Bus.fetch_write_other hd v hc, Bus.write_wf s.bus a v hwf, ?_⟩
  simp only [t, memWrite, Bus.write_ordinary hd hg]

/-! ## Owners -/

theorem pairwise_not_clashes {ds : List Device} (h : devicesDisjoint ds = true) :
    ds.Pairwise fun d e => d.clashes e = false := by
  induction ds with
  | nil => exact .nil
  | cons d ds ih =>
    simp only [devicesDisjoint, Bool.and_eq_true, List.all_eq_true, Bool.not_eq_true'] at h
    exact .cons h.1 (ih h.2)

theorem AddrRange.meets_of_contains {r q : AddrRange} {a : Addr} (hr : r.contains a = true) (hq : q.contains a = true) :
    r.meets q = true := by
  simp only [AddrRange.contains, AddrRange.meets, Bool.and_eq_true, decide_eq_true_eq, BitVec.le_def] at *
  omega

/-- Two devices that own one address have ranges that share it. -/
theorem Device.clashes_of_owns {d e : Device} {a : Addr} (hd : d.owns a = true) (he : e.owns a = true) :
    d.clashes e = true := by
  simp only [Device.owns, Device.clashes, Bool.and_eq_true, List.any_eq_true] at *
  obtain ⟨hda, r, hr, hra⟩ := hd
  obtain ⟨hea, q, hq, hqa⟩ := he
  exact ⟨⟨hda, hea⟩, r, hr, q, hq, AddrRange.meets_of_contains hra hqa⟩

/-- Settles O9: of two places that own an address the earlier would clash with the later, which the map excludes. -/
theorem noAddressHasTwoOwners : Obligations.NoAddressHasTwoOwners := by
  intro m i j hi hj a howni hownj
  have hpair := List.pairwise_iff_getElem.mp (pairwise_not_clashes m.disjoint)
  have hne : ∀ k l (hk : k < m.regs.length) (hl : l < m.regs.length), (m.regs[k]).owns a = true →
      (m.regs[l]).owns a = true → ¬k < l := by
    intro k l hk hl hownk hownl hlt
    have hclash := Device.clashes_of_owns hownk hownl
    rw [hpair k l hk hl hlt] at hclash
    cases hclash
  have hij := hne i j hi hj howni hownj
  have hji := hne j i hj hi hownj howni
  omega

end Sys2Proof.Machine
end

section
/-! Branches and JMP in the words of the claims (spec/46_branch_jump.md R200 to R208, R211). -/

namespace Sys2Proof.Machine

open Sys2Proof.Claims

/-! ## Branches -/

theorem branchTarget_eq (d : Byte) (w : Addr) : branchTarget d w = w + 1 + sext16 d := by
  rw [branchTarget, BitVec.ofInt_add, BitVec.ofInt_add, BitVec.ofInt_natCast, BitVec.ofNat_toNat, BitVec.setWidth_eq]
  rfl

theorem branchCrosses_eq (d : Byte) (w : Addr) : branchCrosses d w = cross (branchPageAddr w) (w + 1 + sext16 d) := by
  have hpage : (w.toNat + 65535) % 65536 = (branchPageAddr w).toNat := by
    have hw : branchPageAddr w = w - 1 := rfl
    rw [hw]
    bv_omega
  rw [branchCrosses, hpage, branchTarget_eq, cross_eq_decide]

/-- `Branch(cond)` over the claims' target and page test. -/
theorem branch_eq (taken : Bool) (d : Byte) (s : State) :
    branch taken d s = { s with
      pc := if taken then branchTarget d s.pc else s.pc + 1
      cyclesLeft := s.cyclesLeft + if taken then (if branchCrosses d s.pc then 2 else 1) else 0
      lastAddrMode := .rel
      lastArg := BitVec.ofNat 16 d.toNat
      pageBoundary := branchCrosses d s.pc } := by
  rw [branchTarget_eq, branchCrosses_eq, ofNat_toNat_byte]
  cases taken <;> rfl

/-- An instruction with a branch condition is `Branch` of that condition. -/
theorem exec_branch {i : Instr} {s : State} {d : Byte} {taken : Bool} (h : branchTaken i s = some (d, taken)) :
    exec i s = .next (branch taken d s) := by
  cases i with
  | bcc | bcs | beq | bne | bmi | bpl | bvc | bvs =>
    cases h
    rfl
  | _ => cases h

/-- Settles O41: the encoder's rows, and `Branch` of each mnemonic's condition. -/
theorem branchesBranch : Obligations.BranchesBranch := by
  refine ⟨fun d => ⟨rfl, rfl, rfl, rfl, rfl, rfl, rfl, rfl⟩, fun i s d taken h => ?_⟩
  rw [exec_branch h, branch_eq]

/-! ## JMP -/

theorem exec_jmp_abs (w : Addr) (s : State) :
    exec (.jmp (.abs w)) s = .next { s with pc := w, lastAddrMode := .abs, lastArg := w, pageBoundary := false } := rfl

/-- The pointer's high byte comes from the next address, without a wrap in the page (D6), as a zero-page pointer's does. -/
theorem exec_jmp_ind (w : Addr) (s : State) :
    exec (.jmp (.ind w)) s = .next { s with
      pc := (readZpPointer w s).1
      lastAddrMode := .ind
      lastArg := w
      pageBoundary := false
      bus := (readZpPointer w s).2.bus } := rfl

/-- Settles O42: the encoder's rows, and `resolve` in each of JMP's two modes. -/
theorem jmpJumps : Obligations.JmpJumps := by
  refine ⟨fun w => ⟨encode_wordOperand rfl rfl, encode_wordOperand rfl rfl⟩, rfl, rfl, fun w s => ⟨exec_jmp_abs w s, ?_⟩⟩
  rw [exec_jmp_ind, pointerAt_eq, BitVec.ofNat_toNat, BitVec.setWidth_eq]

end Sys2Proof.Machine
end

section
/-! Stack instructions and BRK in the words of the claims (spec/47_stack_flags_system.md R220 to R223, R232,
spec/60_exceptions.md R259). -/

namespace Sys2Proof.Machine

open Sys2Proof.Claims

/-! ## Push and pull -/

theorem push_eq_write (v : Byte) (s : State) :
    push v s = { s with sp := s.sp - 1, bus := s.bus.write (stackAt s.sp) v } := by
  rw [← stackAddr_eq_stackAt]
  rfl

theorem pop_eq_read (s : State) :
    pop s = ((s.bus.read (stackAt (s.sp + 1))).1,
      { s with sp := s.sp + 1, bus := (s.bus.read (stackAt (s.sp + 1))).2 }) := by
  rw [← stackAddr_eq_stackAt]
  rfl

theorem exec_pha (s : State) : exec .pha s = .next (push s.a (implied s)) := by
  rw [exec, execPha, resolveImp_eq]

theorem exec_php (s : State) : exec .php s = .next (push (s.p ||| 0x10) (implied s)) := by
  rw [exec, execPhp, resolveImp_eq, statusWithBreak]

theorem exec_pla (s : State) :
    exec .pla s =
      .next { (pop (implied s)).2 with a := (pop (implied s)).1, p := setNZ (pop (implied s)).1 s.p } := by
  rw [exec, execPla, resolveImp_eq]
  rfl

theorem exec_plp (s : State) : exec .plp s = .next { (pop (implied s)).2 with p := (pop (implied s)).1 } := by
  rw [exec, execPlp, resolveImp_eq]

/-- Settles O45: the encoder's rows; a push is one Data write, a pull one Data read, and PLA sets N and Z of the byte. -/
theorem stackInstructions : Obligations.StackInstructions := by
  refine ⟨⟨rfl, rfl, rfl, rfl⟩, ⟨rfl, rfl, rfl, rfl⟩, fun s => ⟨?pha, ?php, ⟨_, writes_setNZ _ _, ?pla⟩, ?plp⟩⟩
  case pha => rw [exec_pha, push_eq_write]; rfl
  case php => rw [exec_php, push_eq_write]; rfl
  case pla => rw [exec_pla, pop_eq_read]; rfl
  case plp => rw [exec_plp, pop_eq_read]; rfl

/-! ## Taking an exception -/

/-- The bus after the three Data writes of an exception's frame: the return address high byte first, then the status. -/
def frameBus (ret : Addr) (status : Byte) (s : State) : Bus :=
  ((s.bus.write (stackAt s.sp) (highOf ret)).write (stackAt (s.sp - 1)) (lowOf ret)).write (stackAt (s.sp - 2)) status

/-- Taking an exception pushes the frame, sets `P.I` and loads `PC` raw from the shared vector (R259). -/
theorem takeException_eq_frame (ret : Addr) (status : Byte) (s : State) :
    takeException ret status s = { s with
      sp := s.sp - 3
      p := putFlag s.p .i true
      pc := wordOf ((frameBus ret status s).mem.read 0xFFFE) ((frameBus ret status s).mem.read 0xFFFF)
      bus := frameBus ret status s } := by
  have hsp2 : s.sp - 1 - 1 = s.sp - 2 := sub_sub s.sp 1 1
  have hsp3 : s.sp - 2 - 1 = s.sp - 3 := sub_sub s.sp 2 1
  simp only [takeException_eq, hsp2, hsp3, stackAddr_eq_stackAt, hi_eq_highOf, lo_eq_lowOf, join_eq_wordOf]
  rfl

theorem exec_brk (s : State) :
    exec .brk s = .next { takeException (s.pc + 1) (s.p ||| 0x10) (implied s) with softIrq := true } := by
  rw [exec, execBrk, resolveImp_eq, brkSequence_eq, statusWithBreak]
  rfl

/-- Settles O47: the encoder's row; BRK takes an exception with its address plus 2 and the status with bit 4 set. -/
theorem brkTakesTheSoftwareInterrupt : Obligations.BrkTakesTheSoftwareInterrupt := by
  refine ⟨rfl, rfl, fun s => ⟨putFlag s.p .i true, writes_putFlag_self _ .i true, ?_⟩⟩
  rw [exec_brk, takeException_eq_frame]
  rfl

end Sys2Proof.Machine
end

section
/-! What each instruction can change: registers, flags, `PC`, the countdown and memory (spec/10_state.md R11 to R18,
spec/42_dispatcher_cycles.md R135, R136). -/

namespace Sys2Proof.Machine

open Sys2Proof.Claims

/-! ## Registers -/

theorem exec_rts_cases {s t : State} (h : exec .rts s = .next t) :
    t = { implied s with lastRTS := true } ∨
      t = { (popWord (implied s)).2 with pc := (popWord (implied s)).1 + 1 } := by
  by_cases hterm : s.exitAtLastRTS = true ∧ s.sp = 0xFF
  · exact .inl (eq_of_next ((exec_rts_of_terminal hterm).symm.trans h))
  · exact .inr (eq_of_next ((exec_rts_of_not_terminal hterm).symm.trans h))

section
variable {i : Instr} {s t : State} (h : exec i s = .next t)
include h

theorem exec_a (hw : writesA i = false) : t.a = s.a := by
  cases i with
  | lda | pla | txa | tya | adc | sbc | and | ora | eor => cases hw
  | asl o | lsr o | rol o | ror o =>
    cases o with
    | acc => cases hw
    | mem m =>
      rw [eq_of_next h]
      simp [shiftOperand]
  | rts => obtain rfl | rfl := exec_rts_cases h <;> rfl
  | _ =>
    rw [eq_of_next h]
    simp [pushWord_eq, brkSequence_eq, takeException_eq, returnFromException_eq]

theorem exec_x (hw : writesX i = false) : t.x = s.x := by
  cases i with
  | ldx | tax | tsx | inx | dex => cases hw
  | rts => obtain rfl | rfl := exec_rts_cases h <;> rfl
  | _ =>
    rw [eq_of_next h]
    simp [shiftOperand, pushWord_eq, brkSequence_eq, takeException_eq, returnFromException_eq]

theorem exec_y (hw : writesY i = false) : t.y = s.y := by
  cases i with
  | ldy | tay | iny | dey => cases hw
  | rts => obtain rfl | rfl := exec_rts_cases h <;> rfl
  | _ =>
    rw [eq_of_next h]
    simp [shiftOperand, pushWord_eq, brkSequence_eq, takeException_eq, returnFromException_eq]

theorem exec_sp (hw : writesSP i = false) : t.sp = s.sp := by
  cases i with
  | txs | jsr | rts | pha | pla | php | plp | brk | rti => cases hw
  | _ =>
    rw [eq_of_next h]
    simp [shiftOperand]

/-- The resolver passes the operand bytes, and nothing else moves `PC`. -/
theorem exec_pc (hw : writesPC i = false) : t.pc = s.pc + BitVec.ofNat 16 (i.mode.length - 1) := by
  have himp : AddrMode.imp.length = 1 := rfl
  cases i with
  | bcc | bcs | beq | bne | bmi | bpl | bvc | bvs | jmp | jsr | rts | brk | rti => cases hw
  | _ =>
    rw [eq_of_next h]
    simp [shiftOperand, Instr.mode, ReadOperand.mode, ModifyOperand.mode, himp]

end

/-- Settles O18, register by register; the latches are those of every instruction. -/
theorem registersChangeOnlyInTheirWriters : Obligations.RegistersChangeOnlyInTheirWriters := by
  intro i s t h
  obtain ⟨hop, hirq, hexit⟩ := exec_latches i s t h
  exact ⟨exec_a h, exec_x h, exec_y h, exec_sp h, hop, hirq, hexit⟩

/-- Settles O19: a mode has at most two operand bytes, and the sum wraps at 65536. -/
theorem pcPassesTheOperandBytes : Obligations.PcPassesTheOperandBytes := by
  intro i s t hw h
  have hlen := i.mode.length_cases
  rw [exec_pc h hw, BitVec.toNat_add, BitVec.toNat_ofNat]
  omega

/-! ## Flags -/

section
variable {f : Flag} {i : Instr} (hw : writesFlag f i = false)
include hw

/-- A write of one of the instruction's own flags leaves every flag that is not one of them. -/
theorem getLsbD_putFlag_of_not_written {g : Flag} (hg : writesFlag g i = true) (v : Bool) (p : Byte) :
    (putFlag p g v).getLsbD f.bit = p.getLsbD f.bit := by
  have hne : f.bit ≠ g.bit := by
    intro hbit
    rw [Flag.bit_injective hbit, hg] at hw
    cases hw
  rw [getLsbD_putFlag, if_neg hne]

theorem getLsbD_setNZ_of_not_written (hnz : writesNZ i = true) (v p : Byte) :
    (setNZ v p).getLsbD f.bit = p.getLsbD f.bit := by
  rw [setNZ, getLsbD_putFlag_of_not_written hw (by simp [writesFlag, hnz]),
    getLsbD_putFlag_of_not_written hw (by simp [writesFlag, hnz])]

theorem getLsbD_setCNZ_of_not_written (hc : writesC i = true) (hnz : writesNZ i = true) (c : Bool) (r p : Byte) :
    (setCNZ c r p).getLsbD f.bit = p.getLsbD f.bit := by
  rw [setCNZ, getLsbD_setNZ_of_not_written hw hnz, getLsbD_putFlag_of_not_written hw (by simp [writesFlag, hc])]

theorem getLsbD_setFlags_of_not_written (hc : writesC i = true) (hv : writesV i = true) (hnz : writesNZ i = true)
    (out : AddResult) (p : Byte) : (out.setFlags p).getLsbD f.bit = p.getLsbD f.bit := by
  have hsplit : out.setFlags p = putFlag (putFlag (putFlag (putFlag p .c out.c) .v out.v) .z out.z) .n out.n := rfl
  rw [hsplit, getLsbD_putFlag_of_not_written hw (by simp [writesFlag, hnz]),
    getLsbD_putFlag_of_not_written hw (by simp [writesFlag, hnz]),
    getLsbD_putFlag_of_not_written hw (by simp [writesFlag, hv]),
    getLsbD_putFlag_of_not_written hw (by simp [writesFlag, hc])]

theorem getLsbD_bitFlags_of_not_written (hv : writesV i = true) (hnz : writesNZ i = true) (a m p : Byte) :
    (bitFlags a m p).getLsbD f.bit = p.getLsbD f.bit := by
  rw [bitFlags, getLsbD_putFlag_of_not_written hw (by simp [writesFlag, hv]),
    getLsbD_putFlag_of_not_written hw (by simp [writesFlag, hnz]),
    getLsbD_putFlag_of_not_written hw (by simp [writesFlag, hnz])]

end

/-- Settles O17: each group of instructions writes `P` through one function, which keeps the bits outside its own flags. -/
theorem flagsChangeOnlyInTheirWriters : Obligations.FlagsChangeOnlyInTheirWriters := by
  intro f i s t hw h
  cases i with
  | plp | rti => cases hw
  | lda | ldx | ldy | tax | tay | txa | tya | tsx | pla | and | ora | eor | inc | dec | inx | iny | dex | dey =>
    rw [eq_of_next h]
    simp [getLsbD_setNZ_of_not_written hw rfl]
  | asl | lsr | rol | ror | cmp | cpx | cpy =>
    rw [eq_of_next h]
    simp [shiftOperand, compareFlags, getLsbD_setCNZ_of_not_written hw rfl rfl]
  | adc | sbc =>
    rw [eq_of_next h]
    simp [getLsbD_setFlags_of_not_written hw rfl rfl rfl]
  | bit =>
    rw [eq_of_next h]
    simp [getLsbD_bitFlags_of_not_written hw rfl rfl]
  | clc | sec =>
    rw [eq_of_next h]
    simp [getLsbD_putFlag_of_not_written hw (g := .c) rfl]
  | cli | sei | brk =>
    rw [eq_of_next h]
    simp [brkSequence_eq, takeException_eq, getLsbD_putFlag_of_not_written hw (g := .i) rfl]
  | cld | sed =>
    rw [eq_of_next h]
    simp [getLsbD_putFlag_of_not_written hw (g := .d) rfl]
  | clv =>
    rw [eq_of_next h]
    simp [getLsbD_putFlag_of_not_written hw (g := .v) rfl]
  | rts => obtain rfl | rfl := exec_rts_cases h <;> rfl
  | _ =>
    rw [eq_of_next h]
    simp [pushWord_eq]

/-! ## The countdown -/

/-- The read penalty of R147 is the claims' penalty of any of the nine mnemonics, LDA among them. -/
theorem readOperand_cyclesLeft_eq_penalty (o : ReadOperand) (s : State) :
    (readOperand o s).2.cyclesLeft = s.cyclesLeft + penalty (.lda o) s := by
  rw [readOperand_eq]
  cases o <;> rfl

theorem mode_of_crossed {m : MemOperand} {s : State} (h : (resolution m s).crossed = true) :
    m.mode = .abx ∨ m.mode = .aby ∨ m.mode = .izy := by
  refine resolveMem_pageBoundary m s ?_
  rw [resolveMem_eq]
  exact h

/-- An operand of CPX, CPY or BIT crosses no page: those mnemonics lack the indexed modes (R135). -/
theorem readOperand_cyclesLeft_of_unindexed {o : ReadOperand} (h : [.imm, .zpg, .abs].contains o.mode = true) (s : State) :
    (readOperand o s).2.cyclesLeft = s.cyclesLeft := by
  cases o with
  | imm b => rfl
  | mem m =>
    have hmode : m.mode = .imm ∨ m.mode = .zpg ∨ m.mode = .abs := by simpa [ReadOperand.mode] using h
    have hcross : (resolution m s).crossed ≠ true := fun hc => by
      rcases mode_of_crossed hc with hm | hm | hm <;> simp [hm] at hmode
    rw [readOperand_eq]
    exact congrArg (s.cyclesLeft + ·) (if_neg hcross)

theorem penaltyOperand_of_branch {i : Instr} {s : State} {q : Byte × Bool} (h : branchTaken i s = some q) :
    penaltyOperand i = none := by
  cases i with
  | bcc | bcs | beq | bne | bmi | bpl | bvc | bvs => rfl
  | _ => cases h

theorem penalty_of_branch {i : Instr} {s : State} {d : Byte} {taken : Bool} (h : branchTaken i s = some (d, taken)) :
    penalty i s = if taken then (if branchCrosses d s.pc then 2 else 1) else 0 := by
  rw [penalty, penaltyOperand_of_branch h, h]
  cases taken <;> rfl

theorem exec_branch_cyclesLeft {i : Instr} {s t : State} {d : Byte} {taken : Bool} (hb : branchTaken i s = some (d, taken))
    (h : exec i s = .next t) : t.cyclesLeft = s.cyclesLeft + penalty i s := by
  rw [eq_of_next ((exec_branch hb).symm.trans h), branch_eq, penalty_of_branch hb]

/-- An instruction of the opcode table adds exactly the claims' penalty to the countdown (R135, R136). -/
theorem exec_cyclesLeft {i : Instr} {s t : State} (hwf : i.WellFormed) (h : exec i s = .next t) :
    t.cyclesLeft = s.cyclesLeft + penalty i s := by
  cases i with
  | adc o | and o | cmp o | eor o | lda o | ldx o | ldy o | ora o | sbc o =>
    rw [eq_of_next h]
    exact readOperand_cyclesLeft_eq_penalty o s
  | cpx o | cpy o =>
    rw [eq_of_next h]
    exact readOperand_cyclesLeft_of_unindexed hwf s
  | bit m =>
    have hmode : [AddrMode.imm, .zpg, .abs].contains m.mode = true := by
      have hbit : [AddrMode.zpg, .abs].contains m.mode = true := hwf
      simp only [List.contains_cons, hbit, Bool.or_true]
    rw [eq_of_next h]
    exact readOperand_cyclesLeft_of_unindexed (o := .mem m) hmode s
  | bcc | bcs | beq | bne | bmi | bpl | bvc | bvs => exact exec_branch_cyclesLeft rfl h
  | rts => obtain rfl | rfl := exec_rts_cases h <;> rfl
  | _ =>
    rw [eq_of_next h]
    simp [shiftOperand, pushWord_eq, brkSequence_eq, takeException_eq, returnFromException_eq, penalty, penaltyOperand,
      branchTaken]

theorem mode_of_penaltyOperand {i : Instr} {o : ReadOperand} (h : penaltyOperand i = some o) : i.mode = o.mode := by
  cases i with
  | adc | and | cmp | eor | lda | ldx | ldy | ora | sbc =>
    cases h
    rfl
  | _ => cases h

/-- Without a branch only a page crossing of one of the nine mnemonics is paid for. -/
theorem mode_of_penalty {i : Instr} {s : State} (hb : branchTaken i s = none) (hp : penalty i s ≠ 0) :
    i.mode = .abx ∨ i.mode = .aby ∨ i.mode = .izy := by
  rw [penalty, hb] at hp
  split at hp
  · next hm =>
    rw [mode_of_penaltyOperand hm]
    exact mode_of_crossed (by simpa using hp)
  · next htaken _ => cases htaken
  · exact absurd rfl hp

theorem penalty_of_mem_penaltyOpcodes : ∀ op ∈ penaltyOpcodes, ∀ b1 b2 : Byte,
    (penaltyOperand (decodeBytes op b1 b2)).isSome = true ∧ (opcodeEntry op).mode ∈ [AddrMode.abx, .aby, .izy] := by
  rw [← List.forall_iff_forall_mem]
  repeat' apply And.intro
  all_goals exact fun _ _ => ⟨rfl, by decide⟩

/-- The encoder's columns ABX, ABY and IZY of the nine mnemonics are the listed opcodes. -/
theorem mem_penaltyOpcodes {i : Instr} {op : Byte} (hop : i.opcode = some op) (hp : (penaltyOperand i).isSome = true)
    (hm : i.mode ∈ [AddrMode.abx, .aby, .izy]) : op ∈ penaltyOpcodes := by
  cases i with
  | adc o | and o | cmp o | eor o | lda o | ldx o | ldy o | ora o | sbc o =>
    cases o with
    | imm b => simp [Instr.mode, ReadOperand.mode] at hm
    | mem m =>
      cases m with
      | abx w | aby w | izy b => cases hop <;> decide
      | _ => simp [Instr.mode, ReadOperand.mode, MemOperand.mode] at hm
  | _ => cases hp

/-- Settles O26: the countdown instruction by instruction, the modes that can cross a page, and the list both ways. -/
theorem penaltiesAreExactlyThese : Obligations.PenaltiesAreExactlyThese := by
  refine ⟨fun i s t hwf h => exec_cyclesLeft hwf h, fun i s hb hp => mode_of_penalty hb hp, fun op b1 b2 => ⟨?listed, ?found⟩⟩
  case listed => exact fun hmem => penalty_of_mem_penaltyOpcodes op hmem b1 b2
  case found =>
    rintro ⟨hp, hm⟩
    exact mem_penaltyOpcodes (decodeBytes_opcode op b1 b2) hp (decodeBytes_mode op b1 b2 ▸ hm)

/-! ## Memory -/

theorem resolveMem_ea (m : MemOperand) (s : State) : (resolveMem m s).1 = (resolution m s).ea := by
  rw [resolveMem_eq]

/-- The path of a store or of an INC or DEC writes at the effective address alone. -/
theorem ea_mem_storedAddresses {m : MemOperand} {s : State} : (resolveMem m s).1 ∈ [(resolution m s).ea] :=
  List.mem_singleton.mpr (resolveMem_ea m s)

theorem ea_mem_modifiedAddresses {o : ModifyOperand} {s : State} :
    ∀ m, o = .mem m → (resolveMem m s).1 ∈ modifiedAddresses o s := by
  rintro m rfl
  exact ea_mem_storedAddresses

/-- Every instruction reaches its bus by Data reads, and by Data writes at the addresses listed for it. -/
theorem exec_path_storedAddresses {i : Instr} {s t : State} (h : exec i s = .next t) :
    BusPath (· ∈ storedAddresses i s) s.bus t.bus := by
  cases i with
  | lda o | ldx o | ldy o | adc o | sbc o | and o | ora o | eor o | cmp o | cpx o | cpy o =>
    rw [eq_of_next h]
    exact readOperand_path o s
  | bit m =>
    rw [eq_of_next h]
    exact readOperand_path (.mem m) s
  | sta m | stx m | sty m =>
    rw [eq_of_next h]
    exact storeOperand_path m _ s ea_mem_storedAddresses
  | inc m | dec m =>
    rw [eq_of_next h]
    exact modifyOperand_path (.mem m) _ s ea_mem_modifiedAddresses
  | asl o | lsr o | rol o | ror o =>
    rw [eq_of_next h]
    exact modifyOperand_path o _ s ea_mem_modifiedAddresses
  | bcc | bcs | beq | bne | bmi | bpl | bvc | bvs =>
    rw [eq_of_next h, branch_bus]
    exact .refl
  | jmp o =>
    rw [eq_of_next h]
    exact resolveJump_path o s
  | jsr w =>
    rw [eq_of_next ((exec_jsr w s).symm.trans h), pushWord_eq_writes]
    exact .write _ _ _ (by simp [storedAddresses]) (.write _ _ _ (by simp [storedAddresses]) .refl)
  | rts =>
    obtain rfl | rfl := exec_rts_cases h
    · exact .refl
    · exact popWord_path (implied s)
  | pha | php =>
    rw [eq_of_next h]
    exact push_path _ (resolveImp s) (by simp [storedAddresses, stackAddr_eq_stackAt])
  | pla | plp =>
    rw [eq_of_next h]
    exact pop_path (resolveImp s)
  | brk =>
    rw [eq_of_next ((exec_brk s).symm.trans h), takeException_eq_frame]
    exact .write _ _ _ (by simp [storedAddresses, implied]) (.write _ _ _ (by simp [storedAddresses, implied])
      (.write _ _ _ (by simp [storedAddresses, implied]) .refl))
  | rti =>
    rw [eq_of_next h]
    exact returnFromException_path (resolveImp s)
  | _ => exact busPath_of_eq (eq_of_next h ▸ rfl)

/-- Settles O20: without devices a byte no Data write of the path is at reads as before. -/
theorem memoryChangesOnlyWhereStored : Obligations.MemoryChangesOnlyWhereStored := fun _ _ _ hdev h a ha =>
  (exec_path_storedAddresses h).fetch_eq hdev a (.inl ha)

end Sys2Proof.Machine
end

section
/-! The step: what it keeps, what it forgets, when it takes an interrupt (spec/42_dispatcher_cycles.md R131 to R137,
spec/60_exceptions.md R254 to R258). -/

namespace Sys2Proof.Machine

open Sys2Proof.Claims

/-! ## Which of the three kinds a step is -/

theorem step_of_countdown {s : State} {n : Nat} (h : s.cyclesLeft = n + 1) : step s = .next { s with cyclesLeft := n } := by
  have hrun := step_cases s
  rw [h] at hrun
  simpa using hrun

theorem step_of_unmasked_request {s : State} (hc : s.cyclesLeft = 0) (hirq : s.irqPending = true)
    (hi : s.p.getLsbD 2 = false) : step s = .next (startIrq s.clearStatus) := by
  obtain ⟨hne, -⟩ | ⟨-, -, -, hstep⟩ | ⟨-, hready, -⟩ := step_cases s
  · exact absurd hc hne
  · exact hstep
  · rw [hirq, show s.flag .i = false from hi] at hready
    simp at hready

theorem step_of_ready {s : State} (hc : s.cyclesLeft = 0) (hready : s.irqPending = false ∨ s.p.getLsbD 2 = true) :
    step s = exec (fetchInstr s) s.fetched := by
  obtain ⟨hne, -⟩ | ⟨-, hirq, hi, -⟩ | ⟨-, -, hstep⟩ := step_cases s
  · exact absurd hc hne
  · rw [hirq, show s.p.getLsbD 2 = false from hi] at hready
    simp at hready
  · exact hstep

/-- Settles O21. -/
theorem countdownOnlyDecrements : Obligations.CountdownOnlyDecrements := fun _ _ h => step_of_countdown h

/-- Settles O22: the instruction the list decoder reads at `PC` is the one fetched. -/
theorem stepRunsTheDecodedInstruction : Obligations.StepRunsTheDecodedInstruction := by
  intro s i rest hc hready hdec
  have hfetch : fetchInstr s = i := decodeBytes_of_decode _ _ _ _ _ hdec
  rw [step_of_ready hc hready, hfetch]
  rfl

/-- Settles O23: the interrupt takes an exception at `PC` itself, with bit 4 of the stacked status clear. -/
theorem unmaskedRequestIsTaken : Obligations.UnmaskedRequestIsTaken := by
  intro s hc hirq hi
  refine ⟨putFlag s.p .i true, writes_putFlag_self _ .i true, ?_⟩
  rw [step_of_unmasked_request hc hirq hi, startIrq, irqEntry_eq, takeException_eq_frame]
  rfl

/-- Settles O27: the override is written before the tick, which during a countdown only counts. -/
theorem pcOverrideIsAppliedFirst : Obligations.PcOverrideIsAppliedFirst := fun s a =>
  ⟨rfl, rfl, fun _ h => step_of_countdown (s := { s with pc := a }) h⟩

/-- Settles O28: the illegal instruction only raises the trap, and a step at a listed opcode runs it. -/
theorem illegalOpcodeTraps : Obligations.IllegalOpcodeTraps := by
  refine ⟨fun op s => rfl, fun s hc hready hmem => ?_⟩
  have hentry := opcodeEntry_of_mem_illegalOpcodes _ hmem
  have hfetch : fetchInstr s = .ill (memFetch s s.pc) := by
    rw [fetchInstr, decodeBytes, hentry]
    rfl
  have hfetched : s.fetched = s.clearStatus.beginInstr (memFetch s s.pc) 0 := by
    rw [State.fetched, hentry]
    rfl
  rw [step_of_ready hc hready, hfetch, hfetched]
  rfl

/-! ## Everything completes -/

theorem step_next (s : State) : ∃ t, step s = .next t := by
  obtain ⟨-, hstep⟩ | ⟨-, -, -, hstep⟩ | ⟨-, -, hstep⟩ := step_cases s
  · exact ⟨_, hstep⟩
  · exact ⟨_, hstep⟩
  · rw [hstep]
    exact exec_next _ _

theorem hostAct_completes (op : HostOp) (s : State) : Completes (hostAct op s) := by
  cases op with
  | step pcOverride => exact step_next (s.overridePC pcOverride)
  | _ => exact ⟨_, rfl⟩

/-- Settles O13, by induction on the schedule. -/
theorem everyOperationCompletes : Obligations.EveryOperationCompletes := by
  refine ⟨step_next, hostAct_completes, fun stop ops => ?_⟩
  induction ops with
  | nil => exact fun s => ⟨s, rfl⟩
  | cons op ops ih =>
    intro s
    obtain ⟨t, ht⟩ := hostAct_completes op s
    rw [runSchedule, ht]
    cases hstop : stop t
    · simpa [hstop] using ih t
    · exact ⟨t, by simp [hstop]⟩

/-! ## What every step keeps -/

theorem step_exitAtLastRTS {s t : State} (h : step s = .next t) : t.exitAtLastRTS = s.exitAtLastRTS := by
  obtain ⟨-, hstep⟩ | ⟨-, -, -, hstep⟩ | ⟨-, -, hstep⟩ := step_cases s
  · rw [eq_of_next (hstep.symm.trans h)]
  · rw [eq_of_next (hstep.symm.trans h), startIrq, irqEntry_eq, takeException_eq_frame]
    rfl
  · exact (exec_latches _ _ _ (hstep.symm.trans h)).exitAtLastRTS

/-- Settles O14: the bus is reached by accesses, which keep its configuration. -/
theorem stepsKeepTheConfiguration : Obligations.StepsKeepTheConfiguration := fun s t h =>
  ⟨(step_path s t h).rom_eq, (step_path s t h).devices_eq, step_exitAtLastRTS h⟩

/-- Settles O10: along the accesses of a step the guard protects the byte, and the configuration stays. -/
theorem romWindowIsNeverWritten : Obligations.RomWindowIsNeverWritten := by
  intro s t a hdev hguard h
  have hpath := step_path s t h
  refine ⟨hpath.fetch_eq hdev a (.inr hguard), fun b => ?_, ?_⟩
  · rw [hpath.devices_eq]
    exact hdev b
  · rw [hpath.rom_eq]
    exact hguard

/-! The longest instruction takes seven Steps, its penalty included (R21, R287). -/

theorem readMemCost_le (m : MemOperand) : readMemCost m ≤ 6 := by cases m <;> simp [readMemCost]

theorem readCost_le (o : ReadOperand) : readCost o ≤ 6 := by
  cases o with
  | imm b => exact Nat.le_of_ble_eq_true rfl
  | mem m => exact readMemCost_le m

theorem storeCost_le (m : MemOperand) : storeCost m ≤ 6 := by cases m <;> simp [storeCost]

theorem modifyMemCost_le (m : MemOperand) : modifyMemCost m ≤ 7 := by cases m <;> simp [modifyMemCost]

theorem modifyCost_le (o : ModifyOperand) : modifyCost o ≤ 7 := by
  cases o with
  | acc => exact Nat.le_of_ble_eq_true rfl
  | mem m => exact modifyMemCost_le m

theorem summaryCost_le (i : Instr) : summaryCost i ≤ 7 := by
  cases i with
  | lda o | ldx o | ldy o | adc o | sbc o | and o | ora o | eor o | cmp o | cpx o | cpy o =>
    exact Nat.le_succ_of_le (readCost_le o)
  | bit m => exact Nat.le_succ_of_le (readMemCost_le m)
  | sta m | stx m | sty m => exact Nat.le_succ_of_le (storeCost_le m)
  | inc m | dec m => exact modifyMemCost_le m
  | asl o | lsr o | rol o | ror o => exact modifyCost_le o
  | jmp o => cases o <;> simp [summaryCost, jumpCost]
  | _ => simp [summaryCost]

theorem summaryCost_of_penaltyOperand {i : Instr} {o : ReadOperand} (h : penaltyOperand i = some o) :
    summaryCost i = readCost o := by
  cases i with
  | adc | and | cmp | eor | lda | ldx | ldy | ora | sbc =>
    cases h
    rfl
  | _ => cases h

theorem summaryCost_of_branch {i : Instr} {s : State} {q : Byte × Bool} (h : branchTaken i s = some q) :
    summaryCost i = 2 := by
  cases i with
  | bcc | bcs | beq | bne | bmi | bpl | bvc | bvs => rfl
  | _ => cases h

/-- What the first Step of an instruction leaves to count: a penalty is paid by the shorter instructions only. -/
theorem summaryCost_pred_add_penalty_le (i : Instr) (s : State) : summaryCost i - 1 + penalty i s ≤ 6 := by
  rw [penalty]
  split
  · next m hm =>
    have hcost := readCost_le (.mem m)
    rw [summaryCost_of_penaltyOperand hm]
    split <;> omega
  · next hb _ =>
    rw [summaryCost_of_branch hb]
    split <;> omega
  · have hcost := summaryCost_le i
    omega

theorem step_countdown_le {s t : State} (hs : s.cyclesLeft ≤ 6) (h : step s = .next t) : t.cyclesLeft ≤ 6 := by
  obtain ⟨-, hstep⟩ | ⟨-, -, -, hstep⟩ | ⟨-, -, hstep⟩ := step_cases s
  · rw [eq_of_next (hstep.symm.trans h)]
    exact Nat.le_trans (Nat.sub_le _ _) hs
  · rw [eq_of_next (hstep.symm.trans h), startIrq, irqEntry_eq, takeException_eq_frame]
  · have hcost : s.fetched.cyclesLeft = summaryCost (fetchInstr s) - 1 := by
      rw [fetchInstr, ← opcodeEntry_cycles]
      rfl
    have hwf : (fetchInstr s).WellFormed := decodeBytes_wellFormed _ _ _
    rw [exec_cyclesLeft hwf (hstep.symm.trans h), hcost]
    exact summaryCost_pred_add_penalty_le (fetchInstr s) s.fetched

/-- Settles O11: accesses keep the canonical form, and no instruction is longer than seven Steps. -/
theorem stepKeepsInvariant : Obligations.StepKeepsInvariant := fun s t hinv h =>
  ⟨(step_path s t h).wf hinv.memWf, step_countdown_le hinv.countdown h⟩

end Sys2Proof.Machine
end

section
/-! What a step does not depend on: the record of the previous instruction, a masked request, the length of the countdown
(spec/10_state.md R20 to R30, spec/42_dispatcher_cycles.md R132, R137, R146, spec/60_exceptions.md R254). -/

namespace Sys2Proof.Machine

open Sys2Proof.Claims

/-! ## The record of the previous instruction -/

/-- Every instruction resolves its mode, and every resolution overwrites the whole record of the last one (R90). -/
theorem exec_noteOperand (i : Instr) (s : State) (md : AddrMode) (w : Addr) (c : Bool) :
    exec i (s.noteOperand md w c) = exec i s := by
  cases i with
  | lda o | ldx o | ldy o | adc o | sbc o | and o | ora o | eor o | cmp o | cpx o | cpy o =>
    cases o with
    | imm b => rfl
    | mem m => cases m <;> rfl
  | asl o | lsr o | rol o | ror o =>
    cases o with
    | acc => rfl
    | mem m => cases m <;> rfl
  | sta m | stx m | sty m | bit m | inc m | dec m => cases m <;> rfl
  | jmp o => cases o <;> rfl
  | _ => rfl

/-- Settles O16: the start of an instruction clears the status flags and records the opcode, the resolution does the rest. -/
theorem instructionStartForgetsTheRecord : Obligations.InstructionStartForgetsTheRecord := by
  intro s op md w pb si lr hc
  obtain ⟨hne, -⟩ | ⟨-, hirq, hi, hstep⟩ | ⟨-, hready, hstep⟩ := step_cases s
  · exact absurd hc hne
  · rw [hstep]
    exact step_of_unmasked_request hc hirq hi
  · rw [hstep, ← exec_noteOperand _ _ md w false]
    exact step_of_ready hc hready

theorem sameProgramView_refl (s : State) : SameProgramView s s := ⟨rfl, rfl, rfl, rfl, rfl, rfl, rfl, rfl, rfl, rfl⟩

/-- Two states of one program view differ in the six fields of the record alone. -/
theorem eq_of_sameProgramView {s s' : State} (h : SameProgramView s s') :
    s' = { s with
      lastOpCode := s'.lastOpCode
      lastAddrMode := s'.lastAddrMode
      lastArg := s'.lastArg
      pageBoundary := s'.pageBoundary
      softIrq := s'.softIrq
      lastRTS := s'.lastRTS } := by
  obtain ⟨ha, hx, hy, hsp, hpc, hp, hc, hirq, hexit, hbus⟩ := h
  rw [ha, hx, hy, hsp, hpc, hp, hc, hirq, hexit, hbus]

/-- One step from two states of one program view: the countdown keeps the view, an instruction start forgets the record. -/
theorem step_sameProgramView {s s' : State} (h : SameProgramView s s') :
    ∃ t t', step s = .next t ∧ step s' = .next t' ∧ SameProgramView t t' := by
  cases hc : s.cyclesLeft with
  | zero =>
    rw [eq_of_sameProgramView h]
    obtain ⟨t, ht⟩ := step_next s
    exact ⟨t, t, ht, (instructionStartForgetsTheRecord s _ _ _ _ _ _ hc).trans ht, sameProgramView_refl t⟩
  | succ n =>
    rw [eq_of_sameProgramView h]
    exact ⟨_, _, step_of_countdown hc, step_of_countdown hc, rfl, rfl, rfl, rfl, rfl, rfl, rfl, rfl, rfl, rfl⟩

/-- Settles O15, by induction on the number of steps. -/
theorem lastFieldsPageBoundarySoftIrqLastRTSNeverInfluenceExecution :
    Obligations.LastFieldsPageBoundarySoftIrqLastRTSNeverInfluenceExecution := by
  intro k
  induction k with
  | zero => exact fun s s' h => ⟨s, s', rfl, rfl, h⟩
  | succ k ih =>
    intro s s' h
    obtain ⟨t, t', ht, ht', hview⟩ := step_sameProgramView h
    rw [run_succ Sys2Proof.core k s t ht, run_succ Sys2Proof.core k s' t' ht']
    exact ih t t' hview

/-! ## A masked request -/

/-- No instruction looks at the request latch, and none writes it (R26). -/
theorem exec_requestInterrupt {i : Instr} {s t : State} (h : exec i s = .next t) :
    exec i (requestInterrupt s) = .next (requestInterrupt t) := by
  cases i with
  | lda o | ldx o | ldy o | adc o | sbc o | and o | ora o | eor o | cmp o | cpx o | cpy o =>
    rw [eq_of_next h]
    cases o with
    | imm b => rfl
    | mem m => cases m <;> rfl
  | asl o | lsr o | rol o | ror o =>
    rw [eq_of_next h]
    cases o with
    | acc => rfl
    | mem m => cases m <;> rfl
  | sta m | stx m | sty m | bit m | inc m | dec m =>
    rw [eq_of_next h]
    cases m <;> rfl
  | bcc d | bcs d | beq d | bne d | bmi d | bpl d | bvc d | bvs d =>
    rw [exec_branch rfl] at h
    rw [eq_of_next h, exec_branch rfl, branch_eq, branch_eq]
    rfl
  | jmp o =>
    rw [eq_of_next h]
    cases o <;> rfl
  | rts =>
    by_cases hterm : s.exitAtLastRTS = true ∧ s.sp = 0xFF
    · rw [eq_of_next ((exec_rts_of_terminal hterm).symm.trans h)]
      exact exec_rts_of_terminal (s := requestInterrupt s) hterm
    · rw [eq_of_next ((exec_rts_of_not_terminal hterm).symm.trans h)]
      exact exec_rts_of_not_terminal (s := requestInterrupt s) hterm
  | _ =>
    rw [eq_of_next h]
    rfl

/-- While `P.I` is 1 both states start the same instruction, or both count down. -/
theorem step_requestInterrupt {s t : State} (hi : s.p.getLsbD 2 = true) (h : step s = .next t) :
    step (requestInterrupt s) = .next (requestInterrupt t) := by
  cases hc : s.cyclesLeft with
  | zero =>
    rw [step_of_ready hc (.inr hi)] at h
    rw [step_of_ready (s := requestInterrupt s) hc (.inr hi)]
    exact exec_requestInterrupt h
  | succ n =>
    rw [step_of_countdown hc] at h
    rw [step_of_countdown (s := requestInterrupt s) hc, eq_of_next h]
    rfl

/-- Settles O24: the state is its own request-free copy with the request latched. -/
theorem maskedRequestIsHeld : Obligations.MaskedRequestIsHeld := by
  intro s t hirq hi h
  have hs : requestInterrupt { s with irqPending := false } = s := by
    rw [requestInterrupt, ← hirq]
  exact hs ▸ step_requestInterrupt hi h

/-! ## The first Step of an instruction -/

theorem instrStep_eq {s t : State} (hc : s.cyclesLeft = 0) (h : step s = .next t) :
    instrStep s = .next { t with cyclesLeft := 0 } := by
  have hstart : startInstr s = .next t := by
    rw [← h, step_eq_tick, tick, if_pos hc]
  rw [instrStep, hstart]

/-- Settles O25: the step that starts the instruction, then a run no longer than the countdown it leaves. -/
theorem instructionRunsInItsFirstStep : Obligations.InstructionRunsInItsFirstStep := by
  intro s t hc h
  refine ⟨fun k hk => ?_, instrStep_eq hc h⟩
  rw [run_succ Sys2Proof.core k s t h]
  exact run_countdown k t hk

end Sys2Proof.Machine
end

section
/-! The resolver without devices, the disassembler, and the operations beside the step (spec/40_addressing_modes.md R104,
R105, spec/30_encoding.md R81, spec/42_dispatcher_cycles.md R139 to R142, spec/70_reset_and_hazards.md R280, R281). -/

namespace Sys2Proof.Machine

open Sys2Proof.Claims

/-! ## Addressing -/

/-- Without a device a pointer's two Data reads change nothing. -/
theorem readPointer_bus {s : State} (hdev : s.NoDevice) (low high : Addr) : (readPointer low high s).2.bus = s.bus := by
  have hl : s.bus.read low = (s.bus.fetch low, s.bus) := Bus.read_of_no_owner s.bus low (hdev low)
  have hh : s.bus.read high = (s.bus.fetch high, s.bus) := Bus.read_of_no_owner s.bus high (hdev high)
  simp only [readPointer, memRead, hl, hh]

theorem resolveMem_bus {s : State} (hdev : s.NoDevice) (m : MemOperand) : (resolveMem m s).2.bus = s.bus := by
  cases m with
  | izx b => exact readPointer_bus hdev _ _
  | izy b => exact readPointer_bus hdev _ _
  | _ => rfl

/-- The effective address depends on `X`, `Y` and the bus alone. -/
theorem resolveMem_ea_congr {s t : State} (hx : t.x = s.x) (hy : t.y = s.y) (hbus : t.bus = s.bus) (m : MemOperand) :
    (resolveMem m t).1 = (resolveMem m s).1 := by
  cases m <;> simp only [resolveMem, readZpPointer, readPointer, memRead, hx, hy, hbus]

/-- Settles O29: the rows of R105, and a second resolution finds the registers and the bus of the first. -/
theorem resolverFollowsTheTable : Obligations.ResolverFollowsTheTable := by
  refine ⟨resolveMem_eq, fun m s hdev => ⟨?address, ?pc, resolveMem_bus hdev m⟩⟩
  case address =>
    exact resolveMem_ea_congr (t := { (resolveMem m s).2 with pc := s.pc }) (resolveMem_x m s) (resolveMem_y m s)
      (resolveMem_bus hdev m) m
  case pc => rw [resolveMem_pc, resolveMem_pc]

/-! ## Disassembly -/

/-- A branch has mode REL, and its operand byte is its displacement. -/
theorem branch_mode_and_operandBytes {i : Instr} {s : State} {d : Byte × Bool} (h : branchTaken i s = some d) :
    i.mode = .rel ∧ i.operandBytes = [d.1] := by
  cases i with
  | bcc | bcs | beq | bne | bmi | bpl | bvc | bvs =>
    cases h
    exact ⟨rfl, rfl⟩
  | _ => cases h

theorem lo_zext16 (b : Byte) : lo (zext16 b) = b := by
  rw [lo_eq_lowOf, lowOf, toNat_zext16, BitVec.ofNat_toNat, BitVec.setWidth_eq]

theorem decodeAt_target {s : State} {a : Addr} (h : (opcodeEntry (memFetch s a)).mode = .rel) :
    (decodeAt s a).target = some (branchTarget (memFetch s (a + 1)) (a + 1)) := by
  have hnext : a + 2 = a + 1 + 1 := (add_assoc a 1 1).symm
  simp only [decodeAt, h, AddrMode.length, if_true, lo_zext16, branchTarget_eq, hnext]

/-- Settles O60: the disassembler looks up the entry the decoder builds from, and a branch's one operand byte is the
displacement of both. -/
theorem disassemblyAgreesWithExecution : Obligations.DisassemblyAgreesWithExecution := by
  intro s a i
  have hmode : i.mode = (opcodeEntry (memFetch s a)).mode := decodeBytes_mode _ _ _
  refine ⟨hmode.symm, by rw [hmode]; rfl, rfl, fun d hd => ?_⟩
  obtain ⟨hrel, hbytes⟩ := branch_mode_and_operandBytes hd
  have hentry : (opcodeEntry (memFetch s a)).mode = .rel := hmode.symm.trans hrel
  have hdisp : i.operandBytes = [memFetch s (a + 1)] := by
    rw [decodeBytes_operandBytes, hentry]
    rfl
  rw [decodeAt_target hentry, (List.singleton_inj.mp (hbytes.symm.trans hdisp))]

/-! ## Reset and the register record -/

/-- Settles O12. -/
theorem resetMeetsInvariant : Obligations.ResetMeetsInvariant :=
  ⟨⟨rfl, Nat.zero_le 6⟩, ⟨rfl, Nat.zero_le 6⟩, fun _ => rfl⟩

/-- Settles O57: the vector's two raw fetches, and the write of `P.I`. -/
theorem resetWritesThreeThings : Obligations.ResetWritesThreeThings := by
  intro s
  refine ⟨putFlag s.p .i true, writes_putFlag_self _ .i true, ?_⟩
  rw [resetOp, memFetch16, join_eq_wordOf]
  rfl

/-- Settles O58: the states and the pre-wired cells are evaluated. -/
theorem powerOnAndResetValues : Obligations.PowerOnAndResetValues := by
  unfold Obligations.PowerOnAndResetValues
  exact ⟨rfl, rfl, rfl, rfl, rfl, rfl, rfl, rfl, rfl, rfl⟩

/-- Settles O59: record updates, and a countdown of the state with the request latched. -/
theorem registerRecordOperations : Obligations.RegisterRecordOperations := by
  refine ⟨fun r s => ⟨rfl, rfl⟩, fun s t hexit hbus => ?restore, fun s b => ⟨rfl, rfl, rfl, fun hc => ?countdown⟩⟩
  case restore =>
    rw [setRegisters, hexit, hbus]
    rfl
  case countdown =>
    obtain ⟨n, hn⟩ := Nat.exists_eq_succ_of_ne_zero hc.ne'
    rw [step_of_countdown (s := requestInterrupt s) hn, hn]
    rfl

end Sys2Proof.Machine
end

section
/-! The rotates as turns of nine bits, and as inverses of each other (spec/41_alu_flags.md R119). -/

namespace Sys2Proof.Machine

/-- The byte and the carry as the nine bits a rotate turns, the carry on top. -/
def rotateRing (q : ShiftResult) : BitVec 9 := BitVec.cons q.c q.r

theorem rotateRing_injective : Function.Injective rotateRing := by
  rintro ⟨r, c⟩ ⟨r', c'⟩ h
  have hc := congrArg BitVec.msb h
  have hr := congrArg (BitVec.setWidth 8) h
  simp only [rotateRing, BitVec.msb_cons, BitVec.setWidth_cons] at hc hr
  rw [hc, hr]

/-- ROL turns the nine bits left by one place. -/
theorem rotateRing_rolByte (q : ShiftResult) : rotateRing (rolByte q.r q.c) = (rotateRing q).rotateLeft 1 := by
  obtain ⟨v, c⟩ := q
  apply BitVec.eq_of_getElem_eq
  intro k hk
  cases c <;> interval_cases k <;> simp [rotateRing, rolByte, carryByte, BitVec.getElem_cons]

theorem rotateLeft_one_nine (w : BitVec 9) : (fun w : BitVec 9 => w.rotateLeft 1)^[9] w = w := by
  apply BitVec.eq_of_getElem_eq
  intro k hk
  interval_cases k <;> simp

theorem rolByte_iterate_nine (q : ShiftResult) : (fun q : ShiftResult => rolByte q.r q.c)^[9] q = q := by
  have hturn : Function.Semiconj rotateRing (fun q => rolByte q.r q.c) (fun w => w.rotateLeft 1) := rotateRing_rolByte
  exact rotateRing_injective ((hturn.iterate_right 9 q).trans (rotateLeft_one_nine _))

theorem toNat_decide_eq_ite (p : Prop) [Decidable p] : (decide p).toNat = if p then 1 else 0 := by
  by_cases h : p <;> simp [h]

theorem rorByte_rolByte (v : Byte) (c : Bool) : rorByte (rolByte v c).r (rolByte v c).c = ⟨v, c⟩ := by
  have hv := v.isLt
  have hc := c.toNat_le
  have hr : (BitVec.ofNat 8 (2 * v.toNat + c.toNat)).toNat / 2 + 128 * (decide (128 ≤ v.toNat)).toNat = v.toNat := by
    have hbit7 : (decide (128 ≤ v.toNat)).toNat = v.toNat / 128 := by rw [toNat_decide_eq_ite]; split <;> omega
    rw [BitVec.toNat_ofNat, hbit7]
    omega
  have hcarry : decide ((BitVec.ofNat 8 (2 * v.toNat + c.toNat)).toNat % 2 = 1) = c := by
    rw [BitVec.toNat_ofNat]
    cases c <;> simp
  rw [rolByte_eq, rorByte_eq, hr, hcarry, BitVec.ofNat_toNat, BitVec.setWidth_eq]

theorem rolByte_rorByte (v : Byte) (c : Bool) : rolByte (rorByte v c).r (rorByte v c).c = ⟨v, c⟩ := by
  have hv := v.isLt
  have hc := c.toNat_le
  have hr : BitVec.ofNat 8 (2 * (BitVec.ofNat 8 (v.toNat / 2 + 128 * c.toNat)).toNat +
      (decide (v.toNat % 2 = 1)).toNat) = v := by
    have hbit0 : (decide (v.toNat % 2 = 1)).toNat = v.toNat % 2 := by rw [toNat_decide_eq_ite]; split <;> omega
    apply BitVec.eq_of_toNat_eq
    rw [BitVec.toNat_ofNat, BitVec.toNat_ofNat, hbit0]
    omega
  have hcarry : decide (128 ≤ (BitVec.ofNat 8 (v.toNat / 2 + 128 * c.toNat)).toNat) = c := by
    rw [BitVec.toNat_ofNat]
    cases c <;> simp <;> omega
  rw [rorByte_eq, rolByte_eq, hr, hcarry]

/-- Nine right rotates undo nine left rotates, which do nothing. -/
theorem rorByte_iterate_nine (q : ShiftResult) : (fun q : ShiftResult => rorByte q.r q.c)^[9] q = q := by
  have hinv : Function.LeftInverse (fun q : ShiftResult => rorByte q.r q.c) (fun q => rolByte q.r q.c) := fun q =>
    rorByte_rolByte q.r q.c
  have hnine := hinv.iterate 9 q
  rwa [rolByte_iterate_nine] at hnine

/-- Settles O53: the nine bits come round, and each direction is the inverse of the other. -/
theorem nineRotatesRestore : Obligations.NineRotatesRestore := fun v c =>
  ⟨rolByte_iterate_nine ⟨v, c⟩, rorByte_iterate_nine ⟨v, c⟩, rorByte_rolByte v c, rolByte_rorByte v c⟩

end Sys2Proof.Machine
end

section
/-! Decimal add and subtract (spec/41_alu_flags.md R113, R115): the algorithms written out, and their value on packed BCD. -/

namespace Sys2Proof.Machine

open Sys2Proof.Claims

/-! ## Nibbles by masks and shifts -/

theorem and_0x0F (n : Nat) : n &&& 0x0F = n % 16 := Nat.and_two_pow_sub_one_eq_mod n 4

theorem and_0x0F_toNat (b : Byte) : b.toNat &&& 0x0F = loNibble b := and_0x0F b.toNat

theorem shiftRight_four_toNat (b : Byte) : b.toNat >>> 4 = hiNibble b := Nat.shiftRight_eq_div_pow b.toNat 4

theorem shiftLeft_four_or {l : Nat} (h : l < 16) (n : Nat) : n <<< 4 ||| l = n * 16 + l := by
  rw [← Nat.shiftLeft_add_eq_or_of_lt (i := 4) h, Nat.shiftLeft_eq]

theorem and_0x80_bne_zero (n : Nat) : (n &&& 0x80 != 0) = n.testBit 7 := by
  have hpow : n &&& 0x80 = (n.testBit 7).toNat * 2 ^ 7 := Nat.and_two_pow n 7
  rw [hpow]
  cases n.testBit 7 <;> rfl

theorem testBit_seven_toNat (b : Byte) : b.toNat.testBit 7 = b.msb := (BitVec.msb_eq_getLsbD_last b).symm

/-- Bit 3 of the high-nibble sum is bit 7 of it shifted up. -/
theorem testBit_seven_shiftLeft_four (n : Nat) : (n <<< 4).testBit 7 = nibbleSign n := by
  rw [Nat.testBit_shiftLeft, nibbleSign, Nat.testBit_eq_decide_div_mod_eq, beq_eq_decide]
  rfl

/-! ## Packed BCD -/

theorem bcd_toNat {n : Nat} (h : n < 100) : (bcd n).toNat = n / 10 * 16 + n % 10 := by
  rw [bcd, BitVec.toNat_ofNat]
  omega

theorem loNibble_bcd {n : Nat} (h : n < 100) : loNibble (bcd n) = n % 10 := by
  rw [loNibble, bcd_toNat h]
  omega

theorem hiNibble_bcd {n : Nat} (h : n < 100) : hiNibble (bcd n) = n / 10 := by
  rw [hiNibble, bcd_toNat h]
  omega

/-! ## Decimal add -/

/-- The overflow test of R113: the sign of the high-nibble sum differs from the sign the operands share. -/
theorem decimal_overflow_eq (n : Nat) (a m : Byte) :
    (((n <<< 4) ^^^ a.toNat) &&& 0x80 != 0 && ((a.toNat ^^^ m.toNat) &&& 0x80) == 0) =
      ((nibbleSign n != a.msb) && a.msb == m.msb) := by
  rw [← Bool.not_not (_ == 0), ← bne, and_0x80_bne_zero, and_0x80_bne_zero, Nat.testBit_xor, Nat.testBit_xor,
    testBit_seven_toNat, testBit_seven_toNat, testBit_seven_shiftLeft_four]
  cases nibbleSign n <;> cases a.msb <;> cases m.msb <;> rfl

/-- The algorithm over `%` and `/` is the one over masks and shifts, field by field. -/
theorem adcDec_eq_decimalAdd (a m : Byte) (c : Bool) : adcDec a m c = decimalAdd a m c := by
  have hmod (n : Nat) : n % 16 < 16 := Nat.mod_lt n (by decide)
  simp only [adcDec, toNat_decide_eq_ite]
  simp only [decimalAdd, decimal_overflow_eq]
  simp only [and_0x80_bne_zero, testBit_seven_shiftLeft_four, shiftRight_four_toNat,
    and_0x0F, shiftLeft_four_or (hmod _)]
  rfl

/-- The correction by 6 turns a carry out of ten into a carry out of sixteen. -/
theorem adjustNibble_carry {n : Nat} (h : n ≤ 19) : 15 < adjustNibble n ↔ 10 ≤ n := by
  unfold adjustNibble
  split <;> omega

theorem adjustNibble_mod {n : Nat} (h : n ≤ 19) : adjustNibble n % 16 = n % 10 := by
  unfold adjustNibble
  split <;> omega

section
variable {x y : Nat} (hx : x < 100) (hy : y < 100) (c : Bool)
include hx hy

/-- On packed BCD the result and C are those of the two digit sums, the low one carrying into the high one. -/
theorem adcDec_bcd :
    (adcDec (bcd x) (bcd y) c).r.toNat =
        (x / 10 + y / 10 + (x % 10 + y % 10 + c.toNat) / 10) % 10 * 16 + (x % 10 + y % 10 + c.toNat) % 10 ∧
      (adcDec (bcd x) (bcd y) c).c = decide (10 ≤ x / 10 + y / 10 + (x % 10 + y % 10 + c.toNat) / 10) := by
  have hc := c.toNat_le
  have hlow : x % 10 + y % 10 + c.toNat ≤ 19 := by omega
  have hcarry : (if 10 ≤ x % 10 + y % 10 + c.toNat then 1 else 0) = (x % 10 + y % 10 + c.toNat) / 10 := by
    split <;> omega
  have hhigh : x / 10 + y / 10 + (x % 10 + y % 10 + c.toNat) / 10 ≤ 19 := by omega
  simp only [adcDec, loNibble_bcd hx, loNibble_bcd hy, hiNibble_bcd hx, hiNibble_bcd hy, toNat_decide_eq_ite,
    adjustNibble_carry hlow, adjustNibble_mod hlow, hcarry, BitVec.toNat_ofNat, adjustNibble_carry hhigh, and_true]
  rw [← adjustNibble_mod hhigh]
  omega

theorem adcDec_bcd_r : (adcDec (bcd x) (bcd y) c).r = bcd ((x + y + c.toNat) % 100) := by
  apply BitVec.eq_of_toNat_eq
  rw [(adcDec_bcd hx hy c).1, bcd_toNat (Nat.mod_lt _ (by decide))]
  omega

theorem adcDec_bcd_c : (adcDec (bcd x) (bcd y) c).c = decide (100 ≤ x + y + c.toNat) := by
  rw [(adcDec_bcd hx hy c).2, decide_eq_decide]
  omega

end

/-- Settles O50: the written-out algorithm on every operand, and the two digit sums on packed BCD. -/
theorem decimalAddIsDecimal : Obligations.DecimalAddIsDecimal :=
  ⟨adcDec_eq_decimalAdd, fun _ _ c hx hy => ⟨adcDec_bcd_r hx hy c, adcDec_bcd_c hx hy c⟩⟩

/-! ## Decimal subtract -/

theorem ofInt_two_nibbles (h l : Int) :
    BitVec.ofInt 8 (h % 16 * 16 + l % 16) = BitVec.ofNat 8 ((h % 16).toNat <<< 4 ||| (l % 16).toNat) := by
  have hl : (l % 16).toNat < 16 := by omega
  have hcast : (((h % 16).toNat * 16 + (l % 16).toNat : Nat) : Int) = h % 16 * 16 + l % 16 := by omega
  rw [shiftLeft_four_or hl, ← BitVec.ofInt_natCast, hcast]

/-- The algorithm with the borrow as a number is the one that takes it in a conditional. -/
theorem sbcDec_r_eq_decimalDifference (a m : Byte) (c : Bool) : (sbcDec a m c).r = decimalDifference a m c := by
  simp only [sbcDec, decimalDifference, ofInt_two_nibbles, and_0x0F_toNat, shiftRight_four_toNat]
  by_cases hborrow : (loNibble a : Int) - loNibble m - (1 - c.toNat) < 0 <;> simp [hborrow]

/-- The correction by 6 turns a borrow from ten into a borrow from sixteen. -/
theorem adjusted_difference_mod {n : Int} (h : -10 ≤ n ∧ n ≤ 9) : (if n < 0 then n - 6 else n) % 16 = n % 10 := by
  split <;> omega

theorem borrow_eq_neg_div {n : Int} (h : -10 ≤ n ∧ n ≤ 9) : ((if n < 0 then 1 else 0 : Nat) : Int) = -(n / 10) := by
  split <;> omega

section
variable {x y : Nat} (hx : x < 100) (hy : y < 100) (c : Bool)
include hx hy

/-- On packed BCD the result is that of the two digit differences, the low one borrowing from the high one. -/
theorem sbcDec_bcd_r : (sbcDec (bcd x) (bcd y) c).r = bcd ((x + 100 - y - (1 - c.toNat)) % 100) := by
  have hc := c.toNat_le
  have hlow : -10 ≤ ((x % 10 : Nat) : Int) - (y % 10 : Nat) - (1 - c.toNat) ∧
      ((x % 10 : Nat) : Int) - (y % 10 : Nat) - (1 - c.toNat) ≤ 9 := by omega
  have hhigh :
      -10 ≤ ((x / 10 : Nat) : Int) - (y / 10 : Nat) - -((((x % 10 : Nat) : Int) - (y % 10 : Nat) - (1 - c.toNat)) / 10) ∧
      ((x / 10 : Nat) : Int) - (y / 10 : Nat) - -((((x % 10 : Nat) : Int) - (y % 10 : Nat) - (1 - c.toNat)) / 10) ≤ 9 := by
    omega
  simp only [sbcDec, loNibble_bcd hx, loNibble_bcd hy, hiNibble_bcd hx, hiNibble_bcd hy, toNat_decide_eq_ite,
    decide_eq_true_eq]
  rw [borrow_eq_neg_div hlow, adjusted_difference_mod hlow, adjusted_difference_mod hhigh, bcd, ← BitVec.ofInt_natCast]
  congr 1
  omega

theorem sbcDec_bcd_c : (sbcDec (bcd x) (bcd y) c).c = decide (y + (1 - c.toNat) ≤ x) := by
  have hc := c.toNat_le
  have hbin : (sbcDec (bcd x) (bcd y) c).c = (sbcBin (bcd x) (bcd y) c).c := rfl
  rw [hbin, sbcBin_c, bcd_toNat hx, bcd_toNat hy, decide_eq_decide]
  omega

end

/-- Settles O52: the written-out algorithm with the binary flags, and the two digit differences on packed BCD. -/
theorem decimalSubtractIsDecimal : Obligations.DecimalSubtractIsDecimal :=
  ⟨fun a m c => ⟨sbcDec_r_eq_decimalDifference a m c, rfl, rfl, rfl, rfl⟩,
    fun _ _ c hx hy => ⟨sbcDec_bcd_r hx hy c, sbcDec_bcd_c hx hy c⟩⟩

end Sys2Proof.Machine
end

section
/-! What is pushed is pulled again: JSR and RTS, BRK and RTI, an interrupt and RTI (spec/46_branch_jump.md R212,
spec/60_exceptions.md R263). -/

namespace Sys2Proof.Machine

open Sys2Proof.Claims

/-! ## The stack bytes -/

theorem stackAt_ne {sp sp' : Byte} (h : sp ≠ sp') : stackAt sp ≠ stackAt sp' := by
  intro heq
  have hnat := congrArg BitVec.toNat heq
  rw [stackAt, stackAt, BitVec.toNat_ofNat, BitVec.toNat_ofNat] at hnat
  exact h (BitVec.eq_of_toNat_eq (by omega))

theorem wordOf_lowOf_highOf (w : Addr) : wordOf (lowOf w) (highOf w) = w := by
  rw [← join_eq_wordOf, ← lo_eq_lowOf, ← hi_eq_highOf, join_hi_lo]

/-- The bus after a return address is pushed. -/
def wordBus (w : Addr) (s : State) : Bus :=
  (s.bus.write (stackAt s.sp) (highOf w)).write (stackAt (s.sp - 1)) (lowOf w)

section
variable {s : State} (hwf : s.bus.mem.wf = true) (hdev : s.NoDevice) (hg0 : s.bus.rom.guards (stackAt s.sp) = false)
  (hg1 : s.bus.rom.guards (stackAt (s.sp - 1)) = false)
include hwf hdev hg0 hg1

theorem wordBus_fetch (w : Addr) :
    (wordBus w s).fetch (stackAt (s.sp - 1)) = lowOf w ∧ (wordBus w s).fetch (stackAt s.sp) = highOf w := by
  have hne : stackAt s.sp ≠ stackAt (s.sp - 1) := stackAt_ne (by bv_omega)
  constructor
  · exact Bus.fetch_write_same (Bus.write_wf _ _ _ hwf) (by simpa using hdev _) (by simpa using hg1) _
  · rw [wordBus, Bus.fetch_write_other (by simpa using hdev _) _ hne]
    exact Bus.fetch_write_same hwf (hdev _) hg0 _

/-- A return address that was pushed is popped, and the stack pointer is back. -/
theorem popWord_of_pushed {q : State} {w : Addr} (hsp : q.sp = s.sp - 2) (hbus : q.bus = wordBus w s) :
    popWord q = (w, { q with sp := s.sp }) := by
  obtain ⟨hlow, hhigh⟩ := wordBus_fetch hwf hdev hg0 hg1 w
  have hread (a : Addr) : (wordBus w s).read a = ((wordBus w s).fetch a, wordBus w s) :=
    Bus.read_of_no_owner _ a (by simpa [wordBus] using hdev a)
  have hsp1 : q.sp + 1 = s.sp - 1 := by rw [hsp]; bv_omega
  have hsp2 : q.sp + 2 = s.sp := by rw [hsp]; bv_omega
  simp only [popWord_eq_reads, hsp1, hsp2, hbus, hread, hlow, hhigh, wordOf_lowOf_highOf]

variable (hg2 : s.bus.rom.guards (stackAt (s.sp - 2)) = false)
include hg2

/-- An exception's frame that was pushed is restored by the return, and the stack pointer is back. -/
theorem returnFromException_of_pushed {q : State} {ret : Addr} {status : Byte} (hsp : q.sp = s.sp - 3)
    (hbus : q.bus = frameBus ret status s) :
    returnFromException q = { q with sp := s.sp, p := putFlag status .i false, pc := ret } := by
  obtain ⟨hlow, hhigh⟩ := wordBus_fetch hwf hdev hg0 hg1 ret
  have hframe : frameBus ret status s = (wordBus ret s).write (stackAt (s.sp - 2)) status := rfl
  have howner (a : Addr) : (wordBus ret s).devices.owner a = none := by simpa [wordBus] using hdev a
  have hread (a : Addr) : (frameBus ret status s).read a = ((frameBus ret status s).fetch a, frameBus ret status s) :=
    Bus.read_of_no_owner _ a (by simpa [hframe] using howner a)
  have hstatus : (frameBus ret status s).fetch (stackAt (s.sp - 2)) = status :=
    Bus.fetch_write_same (Bus.write_wf _ _ _ (Bus.write_wf _ _ _ hwf)) (howner _) (by simpa [wordBus] using hg2) _
  have hlow' : (frameBus ret status s).fetch (stackAt (s.sp - 1)) = lowOf ret := by
    rw [hframe, Bus.fetch_write_other (howner _) _ (stackAt_ne (by bv_omega)), hlow]
  have hhigh' : (frameBus ret status s).fetch (stackAt s.sp) = highOf ret := by
    rw [hframe, Bus.fetch_write_other (howner _) _ (stackAt_ne (by bv_omega)), hhigh]
  have hsp1 : q.sp + 1 = s.sp - 2 := by rw [hsp]; bv_omega
  have hsp2 : q.sp + 2 = s.sp - 1 := by rw [hsp]; bv_omega
  have hsp3 : q.sp + 3 = s.sp := by rw [hsp]; bv_omega
  simp only [returnFromException_eq_reads, hsp1, hsp2, hsp3, hbus, hread, hstatus, hlow', hhigh', wordOf_lowOf_highOf]

end

/-! ## The round trips -/

/-- Writing the value a flag already has changes nothing. -/
theorem putFlag_of_bit {p : Byte} {f : Flag} {v : Bool} (h : p.getLsbD f.bit = v) : putFlag p f v = p := by
  apply BitVec.eq_of_getLsbD_eq
  intro k _
  rw [getLsbD_putFlag]
  split
  · next hbit => rw [hbit, h]
  · rfl

theorem exec_jsr_eq_wordBus {w : Addr} {s t : State} (h : exec (.jsr w) s = .next t) :
    t = { s with pc := w, sp := s.sp - 2, lastAddrMode := .abs, lastArg := w, pageBoundary := false,
                 bus := wordBus (s.pc + 1) s } := by
  rw [exec_jsr, pushWord_eq_writes] at h
  exact eq_of_next h

/-- Settles O54: RTS finds the empty stack only where the stack pointer was 1, and else pops what JSR pushed. -/
theorem jsrThenRtsReturns : Obligations.JsrThenRtsReturns := by
  intro s t u w at' hwf hdev hg0 hg1 ht hu
  rw [exec_jsr_eq_wordBus ht] at hu
  have hempty : s.sp - 2 = 0xFF ↔ s.sp = 1 := by constructor <;> intro h <;> bv_omega
  refine ⟨fun hterm => ?returns, fun hexit hsp => ?stays⟩
  case returns =>
    rw [exec_rts_of_not_terminal (by rwa [hempty]),
      popWord_of_pushed hwf hdev hg0 hg1 (q := implied _) (w := s.pc + 1) rfl rfl] at hu
    rw [eq_of_next hu]
    exact ⟨add_assoc s.pc 1 1, rfl, rfl⟩
  case stays =>
    rw [exec_rts_of_terminal (by exact ⟨hexit, hempty.mpr hsp⟩)] at hu
    rw [eq_of_next hu]
    exact ⟨rfl, rfl, hempty.mpr hsp⟩

/-- Settles O55: the frame BRK pushed, restored with I cleared. -/
theorem brkThenRtiReturns : Obligations.BrkThenRtiReturns := by
  intro s t u at' hwf hdev hg0 hg1 hg2 ht hu
  rw [exec_brk, takeException_eq_frame] at ht
  rw [eq_of_next ht, exec_rti, returnFromException_of_pushed hwf hdev hg0 hg1 hg2 (q := implied _) rfl rfl] at hu
  rw [eq_of_next hu]
  exact ⟨rfl, rfl, rfl, rfl, rfl, rfl⟩

/-- Settles O56: the frame the interrupt pushed, restored; the stacked I was 0 already. -/
theorem interruptThenRtiResumes : Obligations.InterruptThenRtiResumes := by
  intro s t u at' hwf hdev hg0 hg1 hg2 hc hirq hi ht hu
  rw [step_of_unmasked_request hc hirq hi, startIrq, irqEntry_eq, takeException_eq_frame] at ht
  rw [eq_of_next ht, exec_rti, returnFromException_of_pushed hwf hdev hg0 hg1 hg2 (q := implied _) rfl rfl] at hu
  rw [eq_of_next hu]
  have hi' : (s.p &&& 0xEF).getLsbD Flag.i.bit = false := by
    rw [BitVec.getLsbD_and, show s.p.getLsbD Flag.i.bit = false from hi, Bool.false_and]
  exact ⟨rfl, rfl, putFlag_of_bit hi', rfl, rfl, rfl, rfl⟩

end Sys2Proof.Machine
end
